-- ==== Sys2Proof/Word.lean ====
section
/-! DEFINITION. The word types of the engine (R5, R41): fixed widths, plain bit vectors. -/

namespace Sys2Proof

/-- A byte of data memory: 8 bits (R5). -/
abbrev Byte := BitVec 8

/-- A CRC value, a table entry, an operator row, a command word: 32 bits (R5, R75). -/
abbrev Word := BitVec 32

/-- A length, an address register, a 64-bit register slot (R5, R30). -/
abbrev DWord := BitVec 64

end Sys2Proof
end

