-- ==== Sys2Proof/Syntax.lean ====
section
/-! DEFINITION. The commands of the opcode table, the kernels they select, and what the host and the platform can do
to the block. -/

namespace Sys2Proof

/-- The twelve commands (R77), one constructor per row of the opcode table. A command word carries no operand (R75):
every operand stands in an operand register. -/
inductive Instr where
  | tblinit      -- TBLINIT
  | digestBit    -- DIGEST.BIT
  | digestHalf   -- DIGEST.HALF
  | digestTl1    -- DIGEST.TL1
  | digestTl2    -- DIGEST.TL2
  | digestB1     -- DIGEST.B1
  | digestS4     -- DIGEST.S4
  | digestS8     -- DIGEST.S8
  | digestS16    -- DIGEST.S16
  | digestS16p   -- DIGEST.S16P
  | digestFast   -- DIGEST.FAST
  | combine      -- COMBINE
  deriving DecidableEq, Repr

/-- The kernels `KSEL` can name (R19): the digest algorithms, after DIGEST.FAST has been resolved (R132). -/
inductive Kernel where
  | bit | half | tl1 | tl2 | b1 | s4 | s8 | s16 | s16p
  deriving DecidableEq, Repr, Inhabited

/-- The nine host-visible registers (R30). -/
inductive HostReg where
  | opa | opb | ptr | len | res | cmd | status | config | einfo
  deriving DecidableEq, Repr

/-- What can happen to the block between two of its own steps. `write` and `read` are the host's actions of R31 (a
write of `cmd` is `Issue`, taken as one transition as R83 allows); `start` is `Issue` taken at the finer granularity
of R83 (acceptance only); `tick` is one step of the engine's own; `store` is a write of the platform to data memory
(R50, R54); `reset` is the reset event (R205). -/
inductive Action where
  | write (r : HostReg) (v : DWord)
  | start (w : Word)
  | read (r : HostReg)
  | tick
  | store (a : Nat) (b : Byte)
  | reset
  deriving DecidableEq, Repr

/-- An action and the number of the engine it addresses (R36: the block has `NENG` engines). -/
structure Event where
  inst : Nat
  act : Action
  deriving DecidableEq, Repr

end Sys2Proof
end

