-- ==== Sys2Proof/Config.lean ====
section
/-! DEFINITION. The parameters of the block (R4) as plain data, and the free values: constants without a body, about
which nothing can be proved beyond their type. -/

namespace Sys2Proof

/-- `TABLE_LEVEL` (R4, R6): which lookup-table rows exist. -/
inductive TableLevel where
  | none | byte | slice4 | slice8 | slice16
  deriving DecidableEq, Repr

/-- A stretch of data addresses `base .. base + size - 1`. -/
structure Region where
  base : Nat
  size : Nat
  deriving DecidableEq, Repr

/-- The parameters of R4. `Readable` is held as the list of its stretches: a predicate on the addresses below `2^AW`
is a finite union of them. -/
structure Config where
  level : TableLevel          -- `TABLE_LEVEL`
  cfgBe : Bool                -- `CFG_BE`
  platBe : Bool               -- `PLAT_BE`
  prefetchAhead : Nat         -- `PREFETCH_AHEAD`
  prefetchBlock : Nat         -- `PREFETCH_BLOCK`
  aw : Nat                    -- `AW`
  neng : Nat                  -- `NENG`
  readable : List Region      -- `Readable`
  deriving DecidableEq, Repr

/-- The values the spec suggests (92_eei_decisions.md, "Open parameters in one place"). `State.reset` is the reset of
this configuration; every statement is about all of them (assumption 1). -/
def Config.suggested : Config :=
  { level := .slice16, cfgBe := false, platBe := false, prefetchAhead := 256, prefetchBlock := 64,
    aw := 64, neng := 1, readable := [⟨0, 2 ^ 64⟩] }

/-- What a free value stands for: each unspecified value of one draw has its own name. -/
inductive FreeSlot where
  | res | acc | va | vb | nb | pos | rem | sel
  | opRow (buffer row : Nat)
  | entry (row index : Nat)
  | byteChoice (addr : Nat)
  | info
  deriving DecidableEq, Repr

/-- FREE VALUE (assumption 3). The `n`-th draw of an unspecified 32-bit value. -/
opaque Config.freeWord : Nat → FreeSlot → Word

/-- FREE VALUE (assumption 3). The `n`-th draw of an unspecified number or choice. -/
opaque Config.freeNat : Nat → FreeSlot → Nat

/-- FREE VALUE (assumption 3). The `n`-th draw of an unspecified kernel name (`KSEL` between commands). -/
opaque Config.freeKernel : Nat → Kernel

end Sys2Proof
end

