-- ==== Sys2Proof/WellFormed.lean ====
section
/-! DEFINITION. Checks on data that comes from outside: a configuration (R4), a command word's format (R75), an event. -/

namespace Sys2Proof

/-- The ranges of R4: `AW` in 1..64, `NENG` at least 1, `PREFETCH_BLOCK` a multiple of 16 (and not 0: a block of no
bytes would be no block). -/
def Config.wf (c : Config) : Bool :=
  decide (1 ≤ c.aw) && decide (c.aw ≤ 64) && decide (1 ≤ c.neng) &&
    decide (0 < c.prefetchBlock) && decide (c.prefetchBlock % 16 = 0)

/-- Format C (R75): bits 31:8 are 0 and `CLASS` (bits 7:4) is system 0, digest 1 or combine 2. -/
def formatC (w : Word) : Bool :=
  decide (w.extractLsb' 8 24 = 0) && decide ((w.extractLsb' 4 4).toNat ≤ 2)

/-- A command is a bare name (R75: a command word carries no operand), so every term of `Instr` is well formed. -/
def Instr.wf (_ : Instr) : Bool := true

/-- An action is well formed when a data address it stores to exists (`a < 2^AW`, R50). -/
def Action.wf (c : Config) : Action → Bool
  | .store a _ => decide (a < 2 ^ c.aw)
  | _ => true

/-- An event is well formed when the engine it addresses exists (R36) and its action is well formed. -/
def Event.wf (c : Config) (e : Event) : Bool :=
  decide (e.inst < c.neng) && e.act.wf c

end Sys2Proof
end

