-- ==== Sys2Proof/Decode.lean ====
section
/-! DEFINITION. The opcode map (R77), its decoder, total on every 32-bit word and rejecting by name (R79), and the
encoder. -/

namespace Sys2Proof

/-- Why a word is no command (R79). -/
inductive DecodeError where
  | illegalCommand (w : Word)   -- the word is not a `match` value of R77
  deriving DecidableEq, Repr

/-- The command word of a command (R77, column `match`). -/
def encode : Instr → Word
  | .tblinit    => 0x00000001#32
  | .digestBit  => 0x00000010#32
  | .digestHalf => 0x00000011#32
  | .digestTl1  => 0x00000012#32
  | .digestTl2  => 0x00000013#32
  | .digestB1   => 0x00000014#32
  | .digestS4   => 0x00000015#32
  | .digestS8   => 0x00000016#32
  | .digestS16  => 0x00000017#32
  | .digestS16p => 0x00000018#32
  | .digestFast => 0x0000001F#32
  | .combine    => 0x00000020#32

/-- A row of the opcode map: the word under `mask` must equal `pattern` (R77). -/
structure OpcodeRow where
  mask : Word
  pattern : Word
  instr : Instr
  deriving DecidableEq, Repr

/-- The opcode map of R77; the mask is all ones for every row because the word has no operand field. -/
def opcodeRows : List OpcodeRow :=
  [⟨0xFFFFFFFF#32, 0x00000001#32, .tblinit⟩,
   ⟨0xFFFFFFFF#32, 0x00000010#32, .digestBit⟩,
   ⟨0xFFFFFFFF#32, 0x00000011#32, .digestHalf⟩,
   ⟨0xFFFFFFFF#32, 0x00000012#32, .digestTl1⟩,
   ⟨0xFFFFFFFF#32, 0x00000013#32, .digestTl2⟩,
   ⟨0xFFFFFFFF#32, 0x00000014#32, .digestB1⟩,
   ⟨0xFFFFFFFF#32, 0x00000015#32, .digestS4⟩,
   ⟨0xFFFFFFFF#32, 0x00000016#32, .digestS8⟩,
   ⟨0xFFFFFFFF#32, 0x00000017#32, .digestS16⟩,
   ⟨0xFFFFFFFF#32, 0x00000018#32, .digestS16p⟩,
   ⟨0xFFFFFFFF#32, 0x0000001F#32, .digestFast⟩,
   ⟨0xFFFFFFFF#32, 0x00000020#32, .combine⟩]

/-- Decoding of a command word (R75, R77, R79): the row it matches, or `illegalCommand`. -/
def decode (w : Word) : Except DecodeError Instr :=
  match opcodeRows.find? (fun r => decide (w &&& r.mask = r.pattern)) with
  | some r => .ok r.instr
  | none => .error (.illegalCommand w)

/-- The 32-bit command word whose low `nbits` bits are those of `w` and whose other bits are 0: the engine's one
command length is 32 bits (R75), written to `CMD` as one register access, so there is no byte order (R57). -/
def tableWord (nbits w : Nat) : Word := BitVec.ofNat 32 (w % 2 ^ nbits)

/-- The decoder on the opcode table's own numbering of an instruction's bits. -/
def decodeTableWord (nbits w : Nat) : Option Instr :=
  match decode (tableWord nbits w) with
  | .ok i => some i
  | .error _ => none

end Sys2Proof
end

