-- ==== Sys2Proof/Machine/Crc.lean ====
section
/-! DEFINITION. The arithmetic of the CRC: the bit step, the byte step, the function `digest`, the half-byte table and
the two tableless forms (00_scope.md section 6, 41_digest_bytewise.md). -/

namespace Sys2Proof.Machine

/-- `POLY`, the reflected CRC-32 polynomial (R2). -/
def poly : Word := 0xEDB88320#32

/-- `byte_k(w)`: bits `8k+7 .. 8k` (R41). -/
def byteOf (k : Nat) (w : Word) : Byte := w.extractLsb' (8 * k) 8

/-- `bswap32` (R41). -/
def bswap32 (w : Word) : Word :=
  (byteOf 3 w).setWidth 32 ||| (byteOf 2 w).setWidth 32 <<< 8 ||| (byteOf 1 w).setWidth 32 <<< 16 |||
    (byteOf 0 w).setWidth 32 <<< 24

/-- `bitstep(c) = (c >> 1) ^ (POLY & -(c & 1))` (R10). -/
def bitstep (c : Word) : Word := (c >>> 1) ^^^ (poly &&& -(c &&& 1#32))

/-- `row0(i)` (R96), written `T0(i)` where it is used as a function (R111): eight bit steps of the byte. -/
def row0 (i : Byte) : Word := bitstep^[8] (i.setWidth 32)

/-- `bytestep(c, b)` (R112). -/
def bytestep (c : Word) (b : Byte) : Word := (c >>> 8) ^^^ row0 (byteOf 0 (c ^^^ b.setWidth 32))

/-- `Zbyte(c) = bytestep(c, 0)` (R112). -/
def zbyte (c : Word) : Word := bytestep c 0#8

/-- `Reg(r, D)`: the accumulator reached from `r` by the bytes of `D` (R116). -/
def regAfter (r : Word) : List Byte → Word
  | [] => r
  | b :: bs => regAfter (bytestep r b) bs

/-- `digest(D, seed)` (R105). -/
def digest (d : List Byte) (seed : Word) : Word := ~~~(regAfter (~~~seed) d)

/-- The half-byte table `H` (R24), sixteen constants. -/
def halfTable (i : BitVec 4) : Word :=
  [0x00000000#32, 0x1DB71064#32, 0x3B6E20C8#32, 0x26D930AC#32,
   0x76DC4190#32, 0x6B6B51F4#32, 0x4DB26158#32, 0x5005713C#32,
   0xEDB88320#32, 0xF00F9344#32, 0xD6D6A3E8#32, 0xCB61B38C#32,
   0x9B64C2B0#32, 0x86D3D2D4#32, 0xA00AE278#32, 0xBDBDF21C#32].getD i.toNat 0

/-- The fourteen shift amounts of `t0_shift` (R109). -/
def tl1Shifts : List Nat := [0, 1, 2, 4, 5, 7, 8, 10, 11, 12, 16, 22, 23, 26]

/-- `t0_shift(s)` (R109): `T0(s)` by shifts and exclusive-ors alone. -/
def t0Shift (s : Byte) : Word :=
  let low : Byte := s ^^^ (s <<< 6)
  let t : Word := low.setWidth 32 <<< 24
  tl1Shifts.foldr (fun k x => (t >>> k) ^^^ x) 0

/-- The eight constants `K[j] = T0(1 << j)` of DIGEST.TL2 (R110). -/
def tl2Consts : List Word :=
  [0x77073096#32, 0xEE0E612C#32, 0x076DC419#32, 0x0EDB8832#32,
   0x1DB71064#32, 0x3B6E20C8#32, 0x76DC4190#32, 0xEDB88320#32]

/-- `XOR{ K[j] & -(s[j]) }` (R110): `T0(s)` as the sum over the set bits of `s`, bit 0 first. -/
def t0Sum (s : Byte) : Word :=
  tl2Consts.zipIdx.foldr (fun kj x => (kj.1 &&& -((BitVec.ofBool (s.getLsbD kj.2)).setWidth 32)) ^^^ x) 0

end Sys2Proof.Machine
end

