-- ==== Sys2Proof/Machine/Gf2.lean ====
section
/-! DEFINITION. GF(2) operators as 32 rows (R11, R25) and the function `combine` they compute (43_combine.md). -/

namespace Sys2Proof.Machine

/-- `gf2_times(M, v)` (R148): the exclusive-or of the rows selected by the set bits of `v`, row 0 by bit 0. -/
def gf2Times : List Word → Word → Word
  | [], _ => 0
  | r :: rs, v => (if v.getLsbD 0 then r else 0) ^^^ gf2Times rs (v >>> 1)

/-- `gf2_square(dst, src)` (R147): the new rows of `dst`, each from the rows of `src` alone. -/
def gf2Square (src : List Word) : List Word := src.map (gf2Times src)

/-- The operator of one zero bit, `M1` (R149). -/
def gf2Base : List Word := poly :: (List.range 31).map (fun i => 1#32 <<< i)

/-- `combine(crcA, crcB, lengthB)` as a function of its three numbers (R145). -/
def combine (crcA crcB : Word) (lengthB : DWord) : Word :=
  if lengthB = 0 then crcA else zbyte^[lengthB.toNat] crcA ^^^ crcB

end Sys2Proof.Machine
end

