-- ==== Sys2Proof/Machine/Params.lean ====
section
/-! DEFINITION. What the configuration fixes: the table rows (R6), what a kernel needs (R77), what DIGEST.FAST resolves
to (R132), how many bytes a block step takes (R125), and which data reads are admitted (R53). -/

namespace Sys2Proof.Machine

/-- `ROWS` (R6). -/
def rowsOf : TableLevel → Nat
  | .none => 0
  | .byte => 1
  | .slice4 => 4
  | .slice8 => 8
  | .slice16 => 16

/-- The column "table rows needed" of R77, by kernel. -/
def rowsNeeded : Kernel → Nat
  | .bit | .half | .tl1 | .tl2 => 0
  | .b1 => 1
  | .s4 => 4
  | .s8 => 8
  | .s16 | .s16p => 16

/-- Whether a kernel is table-driven: it reads `T`. -/
def usesTable (k : Kernel) : Bool := decide (0 < rowsNeeded k)

/-- `resolve` of R132: the kernel DIGEST.FAST runs at a table level. -/
def resolveFast : TableLevel → Kernel
  | .slice16 => .s16
  | .slice8 => .s8
  | .slice4 => .s4
  | .byte => .b1
  | .none => .half

/-- The `N` of a slicing-by-`N` kernel (R125); 0 for a bytewise kernel, which takes no block step (R105). -/
def blockBytes : Kernel → Nat
  | .bit | .half | .tl1 | .tl2 | .b1 => 0
  | .s4 => 4
  | .s8 => 8
  | .s16 | .s16p => 16

/-- `Readable(a)` (R4). -/
def readableAt (c : Config) (a : Nat) : Bool :=
  c.readable.any (fun r => decide (r.base ≤ a) && decide (a < r.base + r.size))

/-- Admission of a one-byte read (R53): `a < 2^AW` and `Readable(a)`. No address wraps (R9). -/
def admitted (c : Config) (a : Nat) : Bool := decide (a < 2 ^ c.aw) && readableAt c a

/-- The code of `CONFIG.LEVEL` (R28). -/
def levelCode : TableLevel → Nat
  | .none => 0
  | .byte => 1
  | .slice4 => 2
  | .slice8 => 3
  | .slice16 => 4

end Sys2Proof.Machine
end

