-- ==== Sys2Proof/Machine/State.lean ====
section
/-! DEFINITION. The state of the block (10_state.md), its reset (R34, R205), and the reasons a step can stop. Plain
data throughout. -/

namespace Sys2Proof.Machine

/-- The latched range of a running DIGEST command and the model's record of hazards on it. `first .. stop - 1` are the
addresses of the range fixed at acceptance (R81). `stale` lists the bytes of the range that were overwritten while the
command runs, each with the value it had (R61). `tainted` says that a TBLINIT ran on another engine at the same time as
this table-driven command (R212). -/
structure DigestJob where
  first : Nat
  stop : Nat
  stale : List Host.Cell
  tainted : Bool
  deriving DecidableEq, Repr

/-- What a busy engine is doing: digesting (R105, R125), building table rows with `row` the next row (R95), or
combining, with `built` saying whether the operators of R146 steps 1 to 3 have been built. -/
inductive Job where
  | digest (j : DigestJob)
  | tblinit (row : Nat)
  | combine (built : Bool)
  deriving DecidableEq, Repr

/-- `STATE` (R21). `STATUS.BUSY` and `STATUS.ERR` are read from it. -/
inductive Ctrl where
  | idle
  | busy (job : Job)
  | error
  deriving DecidableEq, Repr

/-- The state one engine has for itself (R36). -/
structure Engine where
  opa : Word           -- `x[0]`: seed or crcA (R15)
  opb : Word           -- `x[1]`: crcB (R15)
  ptr : DWord          -- `x[2]`: data address; its low `AW` bits are used, the others are 0 (R15)
  len : DWord          -- `x[3]`: length (R15)
  res : Word           -- `x[4]`: result (R15, R17)
  ctrl : Ctrl          -- `STATE`, `STATUS.BUSY`, `STATUS.ERR` (R21, R27)
  done : Bool          -- `STATUS.DONE` (R22, R27)
  ecode : BitVec 4     -- `STATUS.ECODE` (R27)
  einfo : DWord        -- `EINFO` (R29)
  acc : Word           -- `ACC` (R19)
  va : Word            -- `VA` (R19)
  vb : Word            -- `VB` (R19)
  nb : DWord           -- `NB` (R19)
  ksel : Kernel        -- `KSEL` (R19)
  pos : Nat            -- `POS` (R20)
  rem : DWord          -- `REM` (R20)
  op0 : List Word      -- `OP[0]`, 32 rows (R25)
  op1 : List Word      -- `OP[1]`, 32 rows (R25)
  sel : Bool           -- `SEL` (R25)
  deriving DecidableEq, Repr

/-- The whole machine. The engines are `before ++ eng :: after`, numbered from 0; `eng` is the one the current action
addresses. `T` and `TVALID` are shared by all of them (R36). -/
structure State where
  cfg : Config                -- the parameters (R4), fixed
  eng : Engine                -- the addressed engine
  before : List Engine        -- the engines with lower numbers
  after : List Engine         -- the engines with higher numbers
  table : List (List Word)    -- `T[r][i]` (R23): `ROWS` rows of 256 entries
  tvalid : Bool               -- `STATUS.TVALID` (R22, R36)
  mem : List Host.Cell        -- data memory (R50)
  pending : List Event        -- the host's and the platform's actions to come, oldest first (model's own)
  rdata : DWord               -- what the last `HostRead` returned (R31; model's own)
  draws : Nat                 -- how many free values have been drawn (model's own)
  racy : Bool                 -- sticky: a hazard of R61 or R212 has occurred (model's own bookkeeping)
  deriving DecidableEq, Repr

/-- Why the machine stops. -/
inductive Fault where
  /-- Raised by `step` when the next event addresses an engine the block does not have (R36: `NENG` engines). Safe:
  there is nothing there that could act. -/
  | noSuchInstance
  /-- Raised by `step` when the platform stores to a data address of `2^AW` or more, which does not exist (R50).
  Safe: there is no such byte. -/
  | noSuchAddress
  deriving DecidableEq, Repr

/-- Why an instruction has no meaning. -/
inductive Refusal where
  /-- Raised only by an arm of `exec` whose instruction has no meaning yet: none is left. Safe. -/
  | notModelled (mnemonic : String)
  deriving DecidableEq, Repr

/-- One engine right after reset (R34). `STATE`, `DONE`, `ECODE` and `EINFO` have the spec's values; every other
register is unspecified there and holds 0 here (assumption 2). -/
def Engine.reset : Engine :=
  { opa := 0, opb := 0, ptr := 0, len := 0, res := 0,
    ctrl := .idle, done := false, ecode := 0, einfo := 0,
    acc := 0, va := 0, vb := 0, nb := 0, ksel := .bit, pos := 0, rem := 0,
    op0 := List.replicate 32 0, op1 := List.replicate 32 0, sel := false }

/-- Table memory right after reset: unspecified in the spec (R34), zeros here (assumption 2). No command reads it
before a TBLINIT has completed (R84). -/
def blankTable (c : Config) : List (List Word) :=
  List.replicate (rowsOf c.level) (List.replicate 256 0)

/-- The block of a configuration right after reset (R34, R208), with no data memory written and no action pending. -/
def State.resetWith (c : Config) : State :=
  { cfg := c, eng := Engine.reset, before := [], after := List.replicate (c.neng - 1) Engine.reset,
    table := blankTable c, tvalid := false, mem := [], pending := [], rdata := 0, draws := 0, racy := false }

/-- The machine right after reset, in the configuration the spec suggests (assumption 1). -/
def State.reset : State := State.resetWith Config.suggested

end Sys2Proof.Machine
end

