-- ==== Sys2Proof/Machine/Ops.lean ====
section
/-! DEFINITION. The named operations over memory, the engines and the registers: data memory (R50 to R55), table memory
(R23), the addressed engine (R36), taking an error (R183), completing a command (R80), the reset event (R205). -/

namespace Sys2Proof.Machine

/-! ### Data memory -/

/-- What a byte of data memory that the platform has not written reads as (assumption 4). -/
def memDefault : Byte := 0#8

/-- The byte at a data address. -/
def memRead : List Host.Cell → Nat → Byte
  | [], _ => memDefault
  | (k, v) :: m, a => if k = a then v else memRead m a

/-- Put a cell at the front unless its byte is what an unlisted address reads as. -/
def memCons (a : Nat) (b : Byte) (m : List Host.Cell) : List Host.Cell :=
  if b = memDefault then m else (a, b) :: m

/-- Data memory with one byte changed, in canonical form. -/
def memWrite : List Host.Cell → Nat → Byte → List Host.Cell
  | [], a, b => memCons a b []
  | (k, v) :: m, a, b =>
    if a < k then memCons a b ((k, v) :: m)
    else if a = k then memCons a b m
    else (k, v) :: memWrite m a b

/-- Every address listed is at least `lo`, addresses rise strictly, no byte listed is the default. -/
def memWfFrom (lo : Nat) : List Host.Cell → Bool
  | [] => true
  | (k, v) :: m => decide (lo ≤ k) && decide (v ≠ memDefault) && memWfFrom (k + 1) m

/-- The canonical form of data memory. -/
def Memory.wf (m : List Host.Cell) : Bool := memWfFrom 0 m

/-! ### The engines -/

/-- All engines in number order. -/
def allEngines (s : State) : List Engine := s.before ++ s.eng :: s.after

/-- The engines other than the addressed one. -/
def otherEngines (s : State) : List Engine := s.before ++ s.after

/-- Address engine `k`; there is none past `NENG`. -/
def focus (k : Nat) (s : State) : Option State :=
  match (allEngines s).drop k with
  | [] => none
  | e :: es => some { s with before := (allEngines s).take k, eng := e, after := es }

/-- Change the addressed engine. -/
def mapEng (f : Engine → Engine) (s : State) : State := { s with eng := f s.eng }

/-- `STATUS.BUSY` of an engine (R21). -/
def Engine.isBusy (e : Engine) : Bool :=
  match e.ctrl with
  | .busy _ => true
  | _ => false

/-- The engine is running TBLINIT. -/
def Engine.isBuilding (e : Engine) : Bool :=
  match e.ctrl with
  | .busy (.tblinit _) => true
  | _ => false

/-- The engine is running a table-driven command. -/
def Engine.isReadingTable (e : Engine) : Bool :=
  match e.ctrl with
  | .busy (.digest _) => usesTable e.ksel
  | _ => false

/-! ### Unspecified values -/

/-- The operator buffer `b` with every row unspecified (R25). -/
def freeOperator (n b : Nat) : List Word := (List.range 32).map (fun i => Config.freeWord n (.opRow b i))

/-- The working registers and the stream position between commands: every one is unspecified (R19, R20, R184). -/
def scrub (n : Nat) (e : Engine) : Engine :=
  { e with acc := Config.freeWord n .acc, va := Config.freeWord n .va, vb := Config.freeWord n .vb,
           nb := BitVec.ofNat 64 (Config.freeNat n .nb), ksel := Config.freeKernel n,
           pos := Config.freeNat n .pos, rem := BitVec.ofNat 64 (Config.freeNat n .rem) }

/-- The operator buffers and `SEL` after a COMBINE that has built operators (R160) and after an error (R184): unspecified.
Nothing else writes them (R25). -/
def scrubOperators (n : Nat) (e : Engine) : Engine :=
  { e with op0 := freeOperator n 0, op1 := freeOperator n 1, sel := decide (Config.freeNat n .sel = 1) }

/-! ### Errors and completion -/

/-- The four errors (R180). -/
inductive EngineError where
  | illegalCommand | kernelUnavailable | tablesNotBuilt | busFault
  deriving DecidableEq, Repr

/-- The code of an error (R180). -/
def errorCode : EngineError → BitVec 4
  | .illegalCommand => 1
  | .kernelUnavailable => 2
  | .tablesNotBuilt => 3
  | .busFault => 4

/-- TAKING AN ERROR, `raise E(info)` (R183): the code and the information are recorded, `ERR` is set, `BUSY` and `DONE`
are cleared, the engine is in `ERROR`. `RES`, the working registers and the operator buffers are then unspecified (R184).
Nothing else changes: there is no handler and no vector. -/
def raiseError (err : EngineError) (info : DWord) (s : State) : State :=
  { s with
    eng := { scrubOperators s.draws (scrub s.draws s.eng) with
      res := Config.freeWord s.draws .res, ctrl := .error, done := false, ecode := errorCode err, einfo := info },
    draws := s.draws + 1 }

/-- `EINFO` of a `BusFault` (R180): the address, zero-extended to 64 bits; an address of `2^64` or more does not fit
and leaves the value open (assumption 5). -/
def faultInfo (n a : Nat) : DWord :=
  if a < 2 ^ 64 then BitVec.ofNat 64 a else BitVec.ofNat 64 (Config.freeNat n .info)

/-- Completion without a result (R80; TBLINIT writes no `RES`, R17). The working registers are unspecified again. -/
def completeNoResult (s : State) : State :=
  { s with eng := { scrub s.draws s.eng with ctrl := .idle, done := true }, draws := s.draws + 1 }

/-- Completion with a result in visible form (R17, R80). The operator buffers and `SEL` are not written (R25, R152). -/
def complete (r : Word) (s : State) : State :=
  { s with eng := { scrub s.draws s.eng with res := r, ctrl := .idle, done := true }, draws := s.draws + 1 }

/-- Completion of a COMBINE that has built operators (R146 step 5, R160). -/
def completeCombine (r : Word) (s : State) : State := complete r (mapEng (scrubOperators s.draws) s)

/-- The reset event (R205, R206, R208): every engine and the shared table memory take their reset values, `TVALID` is 0;
data memory, the parameters and the outside world are not touched. It is the only way out of `ERROR` (R185). -/
def resetAll (s : State) : State :=
  { s with eng := Engine.reset, before := s.before.map (fun _ => Engine.reset),
           after := s.after.map (fun _ => Engine.reset), table := blankTable s.cfg, tvalid := false }

/-! ### Reads of a running DIGEST command -/

/-- Whether free values are in play for the reads of a command (R61, R212). -/
def contested (j : DigestJob) : Bool := j.tainted || !j.stale.isEmpty

/-- The byte a read returns (R54): the byte at the address; where the platform wrote it while the command runs, one of
the values before or after such a write, which one being open (R61). -/
def byteSeen (s : State) (j : DigestJob) (a : Nat) : Byte :=
  match j.stale.filter (fun c => decide (c.1 = a)) with
  | [] => memRead s.mem a
  | olds => (memRead s.mem a :: olds.map Prod.snd).getD
      (Config.freeNat s.draws (.byteChoice a) % (olds.length + 1)) memDefault

/-- `MemRead(a, 1)` (R53, R55): the byte, or the address that is not admitted. -/
def memRead1 (s : State) (j : DigestJob) (a : Nat) : Except Nat Byte :=
  if admitted s.cfg a then .ok (byteSeen s j a) else .error a

/-- The word the platform's data port assembles from the bytes at `a .. a+3` (R55). -/
def assemble (be : Bool) (b0 b1 b2 b3 : Byte) : Word :=
  if be then b0.setWidth 32 <<< 24 ||| b1.setWidth 32 <<< 16 ||| b2.setWidth 32 <<< 8 ||| b3.setWidth 32
  else b0.setWidth 32 ||| b1.setWidth 32 <<< 8 ||| b2.setWidth 32 <<< 16 ||| b3.setWidth 32 <<< 24

/-- `MemRead(a, 4)` (R53, R55): the word, or the lowest address of the four that is not admitted. -/
def memRead4 (s : State) (j : DigestJob) (a : Nat) : Except Nat Word := do
  let b0 ← memRead1 s j a
  let b1 ← memRead1 s j (a + 1)
  let b2 ← memRead1 s j (a + 2)
  let b3 ← memRead1 s j (a + 3)
  pure (assemble s.cfg.platBe b0 b1 b2 b3)

/-- `norm` (R56): byte-swap when `CFG_BE = 1`. -/
def normWord (c : Config) (w : Word) : Word := if c.cfgBe then bswap32 w else w

/-- A normalised word of the range, `norm(MemRead(a, 4))` (R126). -/
def fetchWord (s : State) (j : DigestJob) (a : Nat) : Except Nat Word := do
  let w ← memRead4 s j a
  pure (normWord s.cfg w)

/-- `T[r][i]` as a table memory holds it (R23). -/
def tableEntry (t : List (List Word)) (r : Nat) (i : Byte) : Word := (t.getD r []).getD i.toNat 0

/-- `T[r][i]` as a running command reads it: the entry, or any value when a TBLINIT ran at the same time (R212). -/
def tableSeen (s : State) (j : DigestJob) (r : Nat) (i : Byte) : Word :=
  if j.tainted then Config.freeWord s.draws (.entry r i.toNat) else tableEntry s.table r i

/-- `Prefetch(a)` (R62): a hint with no effect on any state, whatever the address. -/
def prefetchHint (_ : Nat) (s : State) : State := s

/-! ### A write of the platform -/

/-- Note on an engine that the platform overwrites the byte at `a`, which held `old`: it matters to a running DIGEST
command whose range holds `a` (R61). -/
def noteStore (a : Nat) (old : Byte) (e : Engine) : Engine :=
  match e.ctrl with
  | .busy (.digest j) =>
    if j.first ≤ a ∧ a < j.stop then { e with ctrl := .busy (.digest { j with stale := (a, old) :: j.stale }) } else e
  | _ => e

/-- Whether an engine is running a DIGEST command whose range holds `a`. -/
def rangeHolds (a : Nat) (e : Engine) : Bool :=
  match e.ctrl with
  | .busy (.digest j) => decide (j.first ≤ a) && decide (a < j.stop)
  | _ => false

/-- A write of the platform to data memory (R50, R54), marked racy when a running command's range holds the address
(R61). -/
def platformStore (a : Nat) (b : Byte) (s : State) : State :=
  let note := noteStore a (memRead s.mem a)
  { s with mem := memWrite s.mem a b, eng := note s.eng, before := s.before.map note, after := s.after.map note,
           racy := s.racy || (allEngines s).any (rangeHolds a) }

end Sys2Proof.Machine
end

