-- ==== Sys2Proof/Machine/Flags.lean ====
section
/-! DEFINITION. The status flags and the read-only registers made of them (R22, R27, R28). -/

namespace Sys2Proof.Machine

/-- A flag at bit `k` of a 32-bit register. -/
def flagAt (k : Nat) (b : Bool) : Word := (BitVec.ofBool b).setWidth 32 <<< k

/-- `STATUS` of the addressed engine (R27): `BUSY` 0, `DONE` 1, `ERR` 2, `TVALID` 3, `ECODE` 7:4, zeros above. `TVALID`
is the shared flag (R36). -/
def statusWord (s : State) : Word :=
  flagAt 0 s.eng.isBusy ||| flagAt 1 s.eng.done ||| flagAt 2 (decide (s.eng.ctrl = .error)) ||| flagAt 3 s.tvalid |||
    s.eng.ecode.setWidth 32 <<< 4

/-- `CONFIG` (R28): `LEVEL` 2:0, `BE` 3, zeros, `PFA` 31:8 saturated to 24 bits. -/
def configWord (c : Config) : Word :=
  BitVec.ofNat 32 (levelCode c.level) ||| flagAt 3 c.cfgBe |||
    BitVec.ofNat 32 (min c.prefetchAhead (2 ^ 24 - 1)) <<< 8

/-- `STATUS.DONE <- 0`, the first effect of an `Issue` in `IDLE` (R80). -/
def clearDone (s : State) : State := mapEng (fun e => { e with done := false }) s

/-- `STATUS.BUSY <- 1 ; STATE <- BUSY` (R80) with what the engine is now doing. -/
def setBusy (job : Job) (s : State) : State := mapEng (fun e => { e with ctrl := .busy job }) s

end Sys2Proof.Machine
end

