-- ==== Sys2Proof/Machine/Operands.lean ====
section
/-! DEFINITION. The operand registers: host access to the register file (R15, R30, R31, R32) and the latching of
operands at acceptance (R76, R81). -/

namespace Sys2Proof.Machine

/-- Truncation of a value to an `AW`-bit address (R15, R31). -/
def truncAddr (c : Config) (v : DWord) : DWord := BitVec.ofNat 64 (v.toNat % 2 ^ c.aw)

/-- `HostWrite(reg, v)` to a register that is not `CMD` (R31): an operand register takes the value truncated to its
width, in every `STATE` (R32, R185); a write to a read-only register has no effect (R15, R27, R28, R29). -/
def hostWrite (r : HostReg) (v : DWord) (s : State) : State :=
  match r with
  | .opa => mapEng (fun e => { e with opa := v.setWidth 32 }) s
  | .opb => mapEng (fun e => { e with opb := v.setWidth 32 }) s
  | .ptr => mapEng (fun e => { e with ptr := truncAddr s.cfg v }) s
  | .len => mapEng (fun e => { e with len := v }) s
  | .res | .cmd | .status | .config | .einfo => s

/-- The value a `HostRead` returns, zero-extended to the 64-bit slot (R30, R31): 0 for `CMD` (R26), an unspecified value
for `RES` while the engine is busy (R32). -/
def hostReadValue (r : HostReg) (s : State) : DWord :=
  match r with
  | .opa => s.eng.opa.setWidth 64
  | .opb => s.eng.opb.setWidth 64
  | .ptr => s.eng.ptr
  | .len => s.eng.len
  | .res => if s.eng.isBusy then (Config.freeWord s.draws .res).setWidth 64 else s.eng.res.setWidth 64
  | .cmd => 0
  | .status => (statusWord s).setWidth 64
  | .config => (configWord s.cfg).setWidth 64
  | .einfo => s.eng.einfo

/-- `HostRead(reg)` (R31): the value goes to the host; the engine does not change. -/
def hostRead (r : HostReg) (s : State) : State :=
  { s with rdata := hostReadValue r s, draws := s.draws + 1 }

/-- The register at a register number (R30). -/
def regOfIndex : Nat → Option HostReg
  | 0 => some .opa
  | 1 => some .opb
  | 2 => some .ptr
  | 3 => some .len
  | 4 => some .res
  | 5 => some .cmd
  | 6 => some .status
  | 7 => some .config
  | 8 => some .einfo
  | _ => none

/-- Latching for a DIGEST command (R81): `ACC <- ~x[0]`, `POS <- x[2]`, `REM <- x[3]`, `KSEL <-` the kernel. The command
starts `tainted` when it is table-driven and another engine is running TBLINIT (R212). -/
def latchDigest (k : Kernel) (s : State) : State :=
  let clash := usesTable k && (otherEngines s).any Engine.isBuilding
  let first := s.eng.ptr.toNat
  setBusy (.digest { first := first, stop := first + s.eng.len.toNat, stale := [], tainted := clash })
    { mapEng (fun e => { e with acc := ~~~e.opa, pos := first, rem := e.len, ksel := k }) s with
      racy := s.racy || clash }

/-- Latching for COMBINE (R81): `VA <- x[0]`, `VB <- x[1]`, `NB <- x[3]`. -/
def latchCombine (s : State) : State :=
  setBusy (.combine false) (mapEng (fun e => { e with va := e.opa, vb := e.opb, nb := e.len }) s)

/-- Mark a table-driven command that is running while a TBLINIT starts on another engine (R212). -/
def taintReader (e : Engine) : Engine :=
  match e.ctrl with
  | .busy (.digest j) => if usesTable e.ksel then { e with ctrl := .busy (.digest { j with tainted := true }) } else e
  | _ => e

/-- TBLINIT latches nothing (R81); row 0 is the next row to build (R95). Table use on another engine at the same time
breaks R212: the run is marked racy and the readers' entries become open. -/
def latchTblinit (s : State) : State :=
  setBusy (.tblinit 0)
    { s with before := s.before.map taintReader, after := s.after.map taintReader,
             racy := s.racy || (otherEngines s).any (fun e => e.isReadingTable || e.isBuilding) }

end Sys2Proof.Machine
end

