-- ==== Sys2Proof/Machine/KernelSteps.lean ====
section
/-! DEFINITION. One step of each digest kernel: the five byte steps (R107 to R113) and the block steps (R128 to R131). -/

namespace Sys2Proof.Machine

/-- `step_BIT` (R107): the byte enters the low eight bits, then eight bit steps. -/
def stepBit (c : Word) (b : Byte) : Word := bitstep^[8] (c ^^^ b.setWidth 32)

/-- `step_HALF` (R108): two lookups in `H`, low nibble first, each index taken before the shift. -/
def stepHalf (c : Word) (b : Byte) : Word :=
  let c1 := halfTable ((c ^^^ b.setWidth 32).extractLsb' 0 4) ^^^ (c >>> 4)
  halfTable ((c1 ^^^ (b >>> 4).setWidth 32).extractLsb' 0 4) ^^^ (c1 >>> 4)

/-- `step_TL1` (R109). -/
def stepTl1 (c : Word) (b : Byte) : Word := (c >>> 8) ^^^ t0Shift (byteOf 0 (c ^^^ b.setWidth 32))

/-- `step_TL2` (R110). -/
def stepTl2 (c : Word) (b : Byte) : Word := (c >>> 8) ^^^ t0Sum (byteOf 0 (c ^^^ b.setWidth 32))

/-- `step_B1` (R113), with `t r i` standing for `T[r][i]`: one lookup in row 0. -/
def stepB1 (t : Nat → Byte → Word) (c : Word) (b : Byte) : Word :=
  (c >>> 8) ^^^ t 0 (byteOf 0 (c ^^^ b.setWidth 32))

/-- The block step of slicing-by-4 on its normalised word (R128). -/
def blockS4 (t : Nat → Byte → Word) (c w0 : Word) : Word :=
  let v := w0 ^^^ c
  t 3 (byteOf 0 v) ^^^ t 2 (byteOf 1 v) ^^^ t 1 (byteOf 2 v) ^^^ t 0 (byteOf 3 v)

/-- The block step of slicing-by-8 on its two normalised words (R129). -/
def blockS8 (t : Nat → Byte → Word) (c w0 w1 : Word) : Word :=
  let v0 := w0 ^^^ c
  t 7 (byteOf 0 v0) ^^^ t 6 (byteOf 1 v0) ^^^ t 5 (byteOf 2 v0) ^^^ t 4 (byteOf 3 v0) ^^^
  t 3 (byteOf 0 w1) ^^^ t 2 (byteOf 1 w1) ^^^ t 1 (byteOf 2 w1) ^^^ t 0 (byteOf 3 w1)

/-- The block step of slicing-by-16 on its four normalised words (R130). -/
def blockS16 (t : Nat → Byte → Word) (c w0 w1 w2 w3 : Word) : Word :=
  let v0 := w0 ^^^ c
  t 15 (byteOf 0 v0) ^^^ t 14 (byteOf 1 v0) ^^^ t 13 (byteOf 2 v0) ^^^ t 12 (byteOf 3 v0) ^^^
  t 11 (byteOf 0 w1) ^^^ t 10 (byteOf 1 w1) ^^^ t 9 (byteOf 2 w1) ^^^ t 8 (byteOf 3 w1) ^^^
  t 7 (byteOf 0 w2) ^^^ t 6 (byteOf 1 w2) ^^^ t 5 (byteOf 2 w2) ^^^ t 4 (byteOf 3 w2) ^^^
  t 3 (byteOf 0 w3) ^^^ t 2 (byteOf 1 w3) ^^^ t 1 (byteOf 2 w3) ^^^ t 0 (byteOf 3 w3)

/-- DIGEST.S4 takes a block at `POS` (R128, R133): the accumulator after it, or the address that is not admitted. -/
def takeS4 (s : State) (j : DigestJob) : Except Nat Word := do
  let w0 ← fetchWord s j s.eng.pos
  pure (blockS4 (tableSeen s j) s.eng.acc w0)

/-- DIGEST.S8 takes a block at `POS` (R129, R133). -/
def takeS8 (s : State) (j : DigestJob) : Except Nat Word := do
  let w0 ← fetchWord s j s.eng.pos
  let w1 ← fetchWord s j (s.eng.pos + 4)
  pure (blockS8 (tableSeen s j) s.eng.acc w0 w1)

/-- DIGEST.S16 takes a block at `POS` (R130, R133). -/
def takeS16 (s : State) (j : DigestJob) : Except Nat Word := do
  let w0 ← fetchWord s j s.eng.pos
  let w1 ← fetchWord s j (s.eng.pos + 4)
  let w2 ← fetchWord s j (s.eng.pos + 8)
  let w3 ← fetchWord s j (s.eng.pos + 12)
  pure (blockS16 (tableSeen s j) s.eng.acc w0 w1 w2 w3)

/-- DIGEST.S16P takes a block at `POS` (R131): at the start of every group of `PREFETCH_BLOCK` bytes it gives the hint
for `POS + PREFETCH_AHEAD` (R62), then does what DIGEST.S16 does. -/
def takeS16p (s : State) (j : DigestJob) : Except Nat Word :=
  let s1 := if (s.eng.pos - j.first) % s.cfg.prefetchBlock = 0 then
    prefetchHint (s.eng.pos + s.cfg.prefetchAhead) s else s
  do
    let w0 ← fetchWord s1 j s1.eng.pos
    let w1 ← fetchWord s1 j (s1.eng.pos + 4)
    let w2 ← fetchWord s1 j (s1.eng.pos + 8)
    let w3 ← fetchWord s1 j (s1.eng.pos + 12)
    pure (blockS16 (tableSeen s1 j) s1.eng.acc w0 w1 w2 w3)

/-- The block step of the kernel in `KSEL` (R125). A bytewise kernel takes none (`blockBytes` is 0). -/
def takeBlock (s : State) (j : DigestJob) : Except Nat Word :=
  match s.eng.ksel with
  | .s4 => takeS4 s j
  | .s8 => takeS8 s j
  | .s16 => takeS16 s j
  | .s16p => takeS16p s j
  | .bit | .half | .tl1 | .tl2 | .b1 => .ok s.eng.acc

/-- The byte step of the kernel in `KSEL` on a byte (R105); a slicing kernel's tail step is that of DIGEST.B1 (R125). -/
def foldByte (s : State) (j : DigestJob) (b : Byte) : Word :=
  match s.eng.ksel with
  | .bit => stepBit s.eng.acc b
  | .half => stepHalf s.eng.acc b
  | .tl1 => stepTl1 s.eng.acc b
  | .tl2 => stepTl2 s.eng.acc b
  | .b1 | .s4 | .s8 | .s16 | .s16p => stepB1 (tableSeen s j) s.eng.acc b

/-- The byte step at `POS` (R105): read the byte there and fold it. -/
def takeByte (s : State) (j : DigestJob) : Except Nat Word := do
  let b ← memRead1 s j s.eng.pos
  pure (foldByte s j b)

end Sys2Proof.Machine
end

