-- ==== Sys2Proof/Machine/Tick.lean ====
section
/-! DEFINITION. One step of a busy engine, and a command run to its end (R82, R83). -/

namespace Sys2Proof.Machine

/-- The end of a byte or block step of `n` bytes (R20, R105, R125, R133): the new accumulator and the advance of `POS`
and `REM` together, or `BusFault`. -/
def absorb (n : Nat) (r : Except Nat Word) (j : DigestJob) (s : State) : State :=
  match r with
  | .error a => raiseError .busFault (faultInfo s.draws a) s
  | .ok c =>
    { s with eng := { s.eng with acc := c, pos := s.eng.pos + n, rem := s.eng.rem - BitVec.ofNat 64 n },
             draws := if contested j then s.draws + 1 else s.draws }

/-- One step of a DIGEST command (R105, R125): a block step while at least `N` bytes remain, else a byte step while any
remains, else completion with `~ACC`. -/
def tickDigest (j : DigestJob) (s : State) : State :=
  if s.eng.rem = 0 then complete (~~~s.eng.acc) s
  else if 0 < blockBytes s.eng.ksel ∧ blockBytes s.eng.ksel ≤ s.eng.rem.toNat then
    absorb (blockBytes s.eng.ksel) (takeBlock s j) j s
  else absorb 1 (takeByte s j) j s

/-- `next(v)` (R97), with row 0 as table memory holds it. -/
def nextEntry (t0 : List Word) (v : Word) : Word := (v >>> 8) ^^^ t0.getD (byteOf 0 v).toNat 0

/-- The contents TBLINIT gives to row `r`: `row0` for row 0 (R96), else `next` of the row before it (R97). -/
def buildRow (t : List (List Word)) (r : Nat) : List Word :=
  if r = 0 then (List.range 256).map (fun i => row0 (BitVec.ofNat 8 i))
  else (t.getD (r - 1) []).map (nextEntry (t.getD 0 []))

/-- One step of TBLINIT (R95): the next row, or completion with `TVALID <- 1`. -/
def tickTblinit (r : Nat) (s : State) : State :=
  if r < rowsOf s.cfg.level then
    setBusy (.tblinit (r + 1)) { s with table := s.table.set r (buildRow s.table r) }
  else completeNoResult { s with tvalid := true }

/-- Steps 1 to 3 of COMBINE (R146, R149, R150): after them `OP[1] = M2`, `OP[0] = M4`, `SEL = 0`. -/
def buildOperators (e : Engine) : Engine :=
  let m2 := gf2Square gf2Base
  { e with op0 := gf2Square m2, op1 := m2, sel := false }

/-- One iteration of the loop of COMBINE (R146 step 4, R151): square the low operator into the high one, apply the high
one to `VA` if the low bit of `NB` is set, shift `NB`, swap. -/
def combineIteration (e : Engine) : Engine :=
  let high := gf2Square (if e.sel then e.op1 else e.op0)
  { e with
    op0 := if e.sel then high else e.op0
    op1 := if e.sel then e.op1 else high
    va := if e.nb.getLsbD 0 then gf2Times high e.va else e.va
    nb := e.nb >>> 1
    sel := !e.sel }

/-- One step of COMBINE (R146): the degenerate test, which completes without touching `OP` or `SEL` (R152), and steps 1
to 3, or a loop iteration, or step 5. -/
def tickCombine (built : Bool) (s : State) : State :=
  if built then
    if s.eng.nb = 0 then completeCombine (s.eng.va ^^^ s.eng.vb) s else mapEng combineIteration s
  else if s.eng.nb = 0 then complete s.eng.va s
  else setBusy (.combine true) (mapEng buildOperators s)

/-- One step of the addressed engine. An engine that is not busy takes none (R207). -/
def tick (s : State) : State :=
  match s.eng.ctrl with
  | .busy (.digest j) => tickDigest j s
  | .busy (.tblinit r) => tickTblinit r s
  | .busy (.combine b) => tickCombine b s
  | .idle | .error => s

/-- `n` steps of the addressed engine, or fewer if it is no longer busy. -/
def ticks : Nat → State → State
  | 0, s => s
  | n + 1, s => if s.eng.isBusy then ticks n (tick s) else s

/-- A bound on the steps the running command still takes: the trip counts of R82. -/
def workLeft (s : State) : Nat :=
  match s.eng.ctrl with
  | .busy (.digest _) => s.eng.rem.toNat + 1
  | .busy (.tblinit r) => rowsOf s.cfg.level - r + 1
  | .busy (.combine _) => 66
  | .idle | .error => 0

/-- The running command, to its completion or its error, with nothing in between (R83). -/
def finish (s : State) : State := ticks (workLeft s) s

/-- When nothing is to come from outside, a busy engine takes its next step (R214); with no busy engine the block waits
(R189, R207). -/
def drain (s : State) : State :=
  match (allEngines s).findIdx? Engine.isBusy with
  | none => s
  | some k =>
    match focus k s with
    | some t => tick t
    | none => s

end Sys2Proof.Machine
end

