-- ==== Sys2Proof/Machine/Accept.lean ====
section
/-! DEFINITION. Acceptance of a command (R80, R84), shared by all of them. -/

namespace Sys2Proof.Machine

/-- An `Issue` acts only in `IDLE`; while busy and in `ERROR` nothing happens (R80, R32, R185). -/
def whenIdle (f : State → State) (s : State) : State := if s.eng.ctrl = .idle then f s else s

/-- Acceptance of a DIGEST command with kernel `k` (R80, R84): `DONE <- 0`; check 2 (rows); check 3 (tables built);
latch; `BUSY`. `w` is the command word, recorded with an error (R180). -/
def acceptDigest (k : Kernel) (w : Word) (s : State) : State :=
  let s1 := clearDone s
  if rowsOf s1.cfg.level < rowsNeeded k then raiseError .kernelUnavailable (w.setWidth 64) s1
  else if 0 < rowsNeeded k ∧ s1.tvalid = false then raiseError .tablesNotBuilt (w.setWidth 64) s1
  else latchDigest k s1

/-- Acceptance of TBLINIT (R80, R95): it needs no rows, so no check can fail. -/
def acceptTblinit (s : State) : State := latchTblinit (clearDone s)

/-- Acceptance of COMBINE (R80, R146): it needs no rows, so no check can fail. -/
def acceptCombine (s : State) : State := latchCombine (clearDone s)

/-- A command word that is no command (R79, R84 check 1). -/
def refuseWord (w : Word) (s : State) : State :=
  raiseError .illegalCommand (w.setWidth 64) (clearDone s)

/-- A whole command as one transition (R83): acceptance in `IDLE`, then its run to completion or error. -/
def issueWhole (accept : State → State) (s : State) : Host.Outcome State Fault Refusal :=
  .next (whenIdle (fun t => finish (accept t)) s)

end Sys2Proof.Machine
end

