-- ==== Sys2Proof/Machine/CombineOperator.lean ====
section
/-! DEFINITION. COMBINE (43_combine.md). -/

namespace Sys2Proof.Machine

/-- Acceptance of COMBINE (R146). -/
def beginCombine (s : State) : State := acceptCombine s

/-- COMBINE (R146). -/
def execCombine (s : State) : Host.Outcome State Fault Refusal := issueWhole beginCombine s

end Sys2Proof.Machine
end

