-- ==== Sys2Proof/Machine/DigestBytewise.lean ====
section
/-! DEFINITION. The five bytewise digest commands (41_digest_bytewise.md): each runs the loop of R105 with its own byte step. -/

namespace Sys2Proof.Machine

/-- Acceptance of DIGEST.BIT (R107). -/
def beginDigestBit (s : State) : State := acceptDigest .bit (encode .digestBit) s

/-- DIGEST.BIT (R107). -/
def execDigestBit (s : State) : Host.Outcome State Fault Refusal := issueWhole beginDigestBit s

/-- Acceptance of DIGEST.HALF (R108). -/
def beginDigestHalf (s : State) : State := acceptDigest .half (encode .digestHalf) s

/-- DIGEST.HALF (R108). -/
def execDigestHalf (s : State) : Host.Outcome State Fault Refusal := issueWhole beginDigestHalf s

/-- Acceptance of DIGEST.TL1 (R109). -/
def beginDigestTl1 (s : State) : State := acceptDigest .tl1 (encode .digestTl1) s

/-- DIGEST.TL1 (R109). -/
def execDigestTl1 (s : State) : Host.Outcome State Fault Refusal := issueWhole beginDigestTl1 s

/-- Acceptance of DIGEST.TL2 (R110). -/
def beginDigestTl2 (s : State) : State := acceptDigest .tl2 (encode .digestTl2) s

/-- DIGEST.TL2 (R110). -/
def execDigestTl2 (s : State) : Host.Outcome State Fault Refusal := issueWhole beginDigestTl2 s

/-- Acceptance of DIGEST.B1 (R113). -/
def beginDigestB1 (s : State) : State := acceptDigest .b1 (encode .digestB1) s

/-- DIGEST.B1 (R113). -/
def execDigestB1 (s : State) : Host.Outcome State Fault Refusal := issueWhole beginDigestB1 s

end Sys2Proof.Machine
end

