-- ==== Sys2Proof/Machine/DigestSlicing.lean ====
section
/-! DEFINITION. The slicing digest commands and the fast dispatcher (42_digest_slicing.md): each runs the loops of R125 with its own block step; DIGEST.FAST runs the kernel it resolves to (R132). -/

namespace Sys2Proof.Machine

/-- Acceptance of DIGEST.S4 (R128). -/
def beginDigestS4 (s : State) : State := acceptDigest .s4 (encode .digestS4) s

/-- DIGEST.S4 (R128). -/
def execDigestS4 (s : State) : Host.Outcome State Fault Refusal := issueWhole beginDigestS4 s

/-- Acceptance of DIGEST.S8 (R129). -/
def beginDigestS8 (s : State) : State := acceptDigest .s8 (encode .digestS8) s

/-- DIGEST.S8 (R129). -/
def execDigestS8 (s : State) : Host.Outcome State Fault Refusal := issueWhole beginDigestS8 s

/-- Acceptance of DIGEST.S16 (R130). -/
def beginDigestS16 (s : State) : State := acceptDigest .s16 (encode .digestS16) s

/-- DIGEST.S16 (R130). -/
def execDigestS16 (s : State) : Host.Outcome State Fault Refusal := issueWhole beginDigestS16 s

/-- Acceptance of DIGEST.S16P (R131). -/
def beginDigestS16p (s : State) : State := acceptDigest .s16p (encode .digestS16p) s

/-- DIGEST.S16P (R131). -/
def execDigestS16p (s : State) : Host.Outcome State Fault Refusal := issueWhole beginDigestS16p s

/-- Acceptance of DIGEST.FAST (R132). -/
def beginDigestFast (s : State) : State := acceptDigest (resolveFast s.cfg.level) (encode .digestFast) s

/-- DIGEST.FAST (R132). -/
def execDigestFast (s : State) : Host.Outcome State Fault Refusal := issueWhole beginDigestFast s

end Sys2Proof.Machine
end

