-- ==== Sys2Proof/Machine/TableBuilder.lean ====
section
/-! DEFINITION. TBLINIT (40_tables.md). -/

namespace Sys2Proof.Machine

/-- Acceptance of TBLINIT (R95). -/
def beginTblinit (s : State) : State := acceptTblinit s

/-- TBLINIT (R95). -/
def execTblinit (s : State) : Host.Outcome State Fault Refusal := issueWhole beginTblinit s

end Sys2Proof.Machine
end

