-- ==== Sys2Proof/Machine/Dispatch.lean ====
section
/-! DEFINITION. One arm per command. -/

namespace Sys2Proof.Machine

-- The meaning of a command: what its `Issue` does, as one transition (R80, R83).
def exec (i : Instr) (s : State) : Host.Outcome State Fault Refusal :=
  match i with
  | .tblinit => Sys2Proof.Machine.execTblinit s
  | .digestBit => Sys2Proof.Machine.execDigestBit s
  | .digestHalf => Sys2Proof.Machine.execDigestHalf s
  | .digestTl1 => Sys2Proof.Machine.execDigestTl1 s
  | .digestTl2 => Sys2Proof.Machine.execDigestTl2 s
  | .digestB1 => Sys2Proof.Machine.execDigestB1 s
  | .digestS4 => Sys2Proof.Machine.execDigestS4 s
  | .digestS8 => Sys2Proof.Machine.execDigestS8 s
  | .digestS16 => Sys2Proof.Machine.execDigestS16 s
  | .digestS16p => Sys2Proof.Machine.execDigestS16p s
  | .digestFast => Sys2Proof.Machine.execDigestFast s
  | .combine => Sys2Proof.Machine.execCombine s

end Sys2Proof.Machine
end

