-- ==== Sys2Proof/Machine/HostPort.lean ====
section
/-! DEFINITION. What an action of the host, of the platform or of the engine does (R31, R80, R83, R205). -/

namespace Sys2Proof.Machine

/-- Acceptance of a command, at the finer granularity of R83: the engine is left busy, and `tick` runs it. -/
def beginCommand : Instr → State → State
  | .tblinit, s => beginTblinit s
  | .digestBit, s => beginDigestBit s
  | .digestHalf, s => beginDigestHalf s
  | .digestTl1, s => beginDigestTl1 s
  | .digestTl2, s => beginDigestTl2 s
  | .digestB1, s => beginDigestB1 s
  | .digestS4, s => beginDigestS4 s
  | .digestS8, s => beginDigestS8 s
  | .digestS16, s => beginDigestS16 s
  | .digestS16p, s => beginDigestS16p s
  | .digestFast, s => beginDigestFast s
  | .combine, s => beginCombine s

/-- `Issue(w)` with the command taken whole (R80, R83). -/
def issueWord (w : Word) (s : State) : Host.Outcome State Fault Refusal :=
  match decode w with
  | .ok i => exec i s
  | .error (.illegalCommand w') => .next (whenIdle (refuseWord w') s)

/-- `Issue(w)` up to acceptance (R80, R83). -/
def startWord (w : Word) (s : State) : State :=
  match decode w with
  | .ok i => whenIdle (beginCommand i) s
  | .error (.illegalCommand w') => whenIdle (refuseWord w') s

/-- One action on the addressed engine or the block. A write of `CMD` is `Issue` of its low 32 bits (R26, R31). -/
def perform (a : Action) (s : State) : Host.Outcome State Fault Refusal :=
  match a with
  | .write .cmd v => issueWord (v.setWidth 32) s
  | .write r v => .next (hostWrite r v s)
  | .start w => .next (startWord w s)
  | .read r => .next (hostRead r s)
  | .tick => .next (tick s)
  | .store addr b => if addr < 2 ^ s.cfg.aw then .next (platformStore addr b s) else .fault .noSuchAddress
  | .reset => .next (resetAll s)

/-- The event at the head of `pending`, on the engine it addresses. -/
def performEvent (e : Event) (s : State) : Host.Outcome State Fault Refusal :=
  match focus e.inst s with
  | some t => perform e.act t
  | none => .fault .noSuchInstance

end Sys2Proof.Machine
end

