-- ==== Sys2Proof/Machine/Step.lean ====
section
/-! DEFINITION. One step of the machine: the next event from outside, or, when none is pending, the next step of a busy
engine. -/

namespace Sys2Proof.Machine

/-- One step. -/
def step (s : State) : Host.Outcome State Fault Refusal :=
  match s.pending with
  | [] => .next (drain s)
  | e :: es => performEvent e { s with pending := es }

/-- `s` with the `Issue` of a command word as its next event, on the engine it addresses (assumption 6). -/
def State.withFetchWord (s : State) (nbits w : Nat) : State :=
  { s with pending := ⟨s.before.length, .write .cmd ((tableWord nbits w).setWidth 64)⟩ :: s.pending }

end Sys2Proof.Machine
end

