-- ==== Sys2Proof/Machine/HostSequences.lean ====
section
/-! DEFINITION. The host's macros and pseudo-commands (R85, R86; 45_split_merge.md): sequences of host actions, not
hardware. -/

namespace Sys2Proof.Machine

/-- Actions in order, on the addressed engine. -/
def performAll : List Action → State → Host.Outcome State Fault Refusal
  | [], s => .next s
  | a :: as, s =>
    match perform a s with
    | .next t => performAll as t
    | .fault r => .fault r
    | .refused r => .refused r

/-- `W k, v` (95_test_vectors.md section 4): a host write to the register numbered `k` in R30; there is none past 8. -/
def writeNumber (k : Nat) (v : DWord) : List Action := (regOfIndex k).toList.map (fun r => .write r v)

/-- A line of R85: the operand writes, the `Issue`, the check of `ERR = 0 and DONE = 1`, the read of `RES`. -/
def hostLine (as : List Action) (s : State) : Option (Word × State) :=
  match performAll as s with
  | .next t => if t.eng.done = true ∧ t.eng.ctrl = .idle then some (t.eng.res, t) else none
  | .fault _ => none
  | .refused _ => none

/-- `DIGEST.<K> rd, ptr, len, seed` (R85). -/
def digestLine (i : Instr) (ptr len : DWord) (seed : Word) (s : State) : Option (Word × State) :=
  hostLine (writeNumber 2 ptr ++ writeNumber 3 len ++ writeNumber 0 (seed.setWidth 64) ++
    writeNumber 5 ((encode i).setWidth 64)) s

/-- `COMBINE rd, crcA, crcB, lenB` (R85). -/
def combineLine (crcA crcB : Word) (lenB : DWord) (s : State) : Option (Word × State) :=
  hostLine (writeNumber 0 (crcA.setWidth 64) ++ writeNumber 1 (crcB.setWidth 64) ++ writeNumber 3 lenB ++
    writeNumber 5 ((encode .combine).setWidth 64)) s

/-- `DIGEST.CHAIN` from a seed (R166): the result of each range is the seed of the next. -/
def chainLines (i : Instr) : List (DWord × DWord) → Word → State → Option (Word × State)
  | [], seed, s => some (seed, s)
  | (p, n) :: rs, seed, s =>
    match digestLine i p n seed s with
    | some (r, t) => chainLines i rs r t
    | none => none

/-- The flat partition of R169 into ranges (offset from `ptr`, length). -/
def partitionRanges (len workers : Nat) : List (Nat × Nat) :=
  let bs := (len + workers - 1) / workers
  let m := (len + bs - 1) / bs
  if len = 0 then [] else (List.range m).map (fun j => (j * bs, min bs (len - j * bs)))

/-- The partial digests of R170, one after another on one engine, each with seed 0, with the length of its range. -/
def partLines (i : Instr) (ptr : Nat) : List (Nat × Nat) → State → Option (List (Word × DWord) × State)
  | [], s => some ([], s)
  | (off, n) :: rs, s =>
    match digestLine i (BitVec.ofNat 64 (ptr + off)) (BitVec.ofNat 64 n) 0 s with
    | some (r, t) =>
      match partLines i ptr rs t with
      | some (ps, u) => some ((r, BitVec.ofNat 64 n) :: ps, u)
      | none => none
    | none => none

/-- The head-forward fold of R171: the left operand is everything before the range, the length is the range's. -/
def foldHead (acc : Word) : List (Word × DWord) → State → Option (Word × State)
  | [], s => some (acc, s)
  | (p, n) :: ps, s =>
    match combineLine acc p n s with
    | some (r, t) => foldHead r ps t
    | none => none

/-- The tail-forward fold of R171: it answers the digest of the ranges given and the number of bytes they cover. -/
def foldTail : List (Word × DWord) → State → Option (Word × DWord × State)
  | [], s => some (0, 0, s)
  | [(p, n)], s => some (p, n, s)
  | (p, n) :: q :: ps, s =>
    match foldTail (q :: ps) s with
    | some (acc, m, t) =>
      match combineLine p acc m t with
      | some (r, u) => some (r, n + m, u)
      | none => none
    | none => none

/-- `PDIGEST` on one engine with the tail-forward fold (R168 to R171). `workers = 0` is refused (R169): no result. -/
def pdigestLines (i : Instr) (ptr len workers : Nat) (s : State) : Option (Word × State) :=
  if workers = 0 then none else
  match partLines i ptr (partitionRanges len workers) s with
  | some (ps, t) =>
    match foldTail ps t with
    | some (r, _, u) => some (r, u)
    | none => none
  | none => none

/-- `PDIGEST` on one engine with the head-forward fold (R168 to R171). -/
def pdigestHeadLines (i : Instr) (ptr len workers : Nat) (s : State) : Option (Word × State) :=
  if workers = 0 then none else
  match partLines i ptr (partitionRanges len workers) s with
  | some ([], t) => some (0, t)
  | some ((p, _) :: ps, t) => foldHead p ps t
  | none => none

end Sys2Proof.Machine
end

