-- ==== Sys2Proof/Safety.lean ====
section
/-! DEFINITION. The terms in which claims are made: what a built table holds, the invariant of the machine, when a command
executes normally, and the byte range of a digest. -/

namespace Sys2Proof.Machine

/-! ### Tables -/

/-- The meaning of an entry (R98): the contribution of a byte after `r` further zero bytes. -/
def rowValue (r : Nat) (i : Byte) : Word := zbyte^[r] (row0 i)

/-- Row `r` of a built table (R98). -/
def builtRow (r : Nat) : List Word := (List.range 256).map (fun i => rowValue r (BitVec.ofNat 8 i))

/-- The tables of a configuration after TBLINIT (R6, R98). -/
def builtTable (c : Config) : List (List Word) := (List.range (rowsOf c.level)).map builtRow

/-- Table memory has the rows that exist (R6), each of 256 entries (R23). -/
def TableShape (c : Config) (t : List (List Word)) : Prop :=
  t.length = rowsOf c.level ∧ ∀ row ∈ t, row.length = 256

/-! ### The invariant -/

/-- What holds of a running command: the latched range is where `POS` and `REM` say (R20), a table-driven command has its
rows and built tables (R84), the rows a TBLINIT has passed are built (R95), the bytes noted as overwritten lie in the
range (R61). -/
def JobInv (s : State) (e : Engine) : Prop :=
  match e.ctrl with
  | .busy (.digest j) =>
    j.first ≤ e.pos ∧ e.pos + e.rem.toNat = j.stop ∧ rowsNeeded e.ksel ≤ rowsOf s.cfg.level ∧
      (0 < rowsNeeded e.ksel → s.tvalid = true) ∧ ∀ c ∈ j.stale, j.first ≤ c.1 ∧ c.1 < j.stop
  | .busy (.tblinit r) => r ≤ rowsOf s.cfg.level ∧ ∀ k < r, s.table.getD k [] = builtRow k
  | .busy (.combine _) | .idle | .error => True

/-- What holds of one engine: `PTR` has `AW` bits (R15); `DONE` only in `IDLE`, so that at most one of `BUSY`, `DONE`,
`ERR` is 1 (R27); `ECODE` is 0 exactly outside `ERROR` and never above 4 (R27, R180); `EINFO` is 0 outside `ERROR` (R29);
an operator has 32 rows (R25). -/
def EngineInv (s : State) (e : Engine) : Prop :=
  e.ptr.toNat < 2 ^ s.cfg.aw ∧ (e.done = true → e.ctrl = .idle) ∧ (e.ecode = 0 ↔ e.ctrl ≠ .error) ∧
    e.ecode.toNat ≤ 4 ∧ (e.ctrl ≠ .error → e.einfo = 0) ∧ e.op0.length = 32 ∧ e.op1.length = 32 ∧ JobInv s e

/-- The invariant of the machine: a legal configuration (R4), `NENG` engines (R36), data memory in canonical form and
inside the address space (R50), tables of the right shape, built once `TVALID` is 1 (R98, R102), and every engine in
order. -/
def MachineInv (s : State) : Prop :=
  s.cfg.wf = true ∧ (allEngines s).length = s.cfg.neng ∧ Memory.wf s.mem = true ∧
    (∀ c ∈ s.mem, c.1 < 2 ^ s.cfg.aw) ∧ TableShape s.cfg s.table ∧
    (s.tvalid = true → s.table = builtTable s.cfg) ∧ ∀ e ∈ allEngines s, EngineInv s e

/-- A run so far without a hazard of R61 or R212 and with no engine in error. -/
def SafeRun (s : State) : Prop := s.racy = false ∧ ∀ e ∈ allEngines s, e.ctrl ≠ .error

/-! ### When a command executes normally -/

/-- The `n` bytes of data memory from address `a` (R42). -/
def rangeBytes (m : List Host.Cell) (a n : Nat) : List Byte := (List.range n).map (fun k => memRead m (a + k))

/-- The byte range of a digest command on the addressed engine (R42). -/
def operandBytes (s : State) : List Byte := rangeBytes s.mem s.eng.ptr.toNat s.eng.len.toNat

/-- Every byte of the range is admitted (R53). -/
def RangeAdmitted (s : State) : Prop := ∀ k < s.eng.len.toNat, admitted s.cfg (s.eng.ptr.toNat + k) = true

/-- The issue checks pass for a kernel (R84): its rows exist, and if it needs any the tables have been built. -/
def ChecksPass (k : Kernel) (s : State) : Prop :=
  rowsNeeded k ≤ rowsOf s.cfg.level ∧ (0 < rowsNeeded k → s.tvalid = true)

/-- No other engine is running TBLINIT (R212). -/
def NoBuilder (s : State) : Prop := ∀ e ∈ otherEngines s, e.isBuilding = false

/-- When a digest with kernel `k` executes normally: the engine is idle, the checks of R84 pass, and a table-driven
kernel has built tables that no other engine is rebuilding (R211, R212). -/
def KernelReady (k : Kernel) (s : State) : Prop :=
  s.eng.ctrl = .idle ∧ ChecksPass k s ∧ (0 < rowsNeeded k → s.table = builtTable s.cfg ∧ NoBuilder s)

/-- The kernel a DIGEST command runs (R77, R132); the other commands run none. -/
def kernelOf (l : TableLevel) : Instr → Option Kernel
  | .digestBit => some .bit
  | .digestHalf => some .half
  | .digestTl1 => some .tl1
  | .digestTl2 => some .tl2
  | .digestB1 => some .b1
  | .digestS4 => some .s4
  | .digestS8 => some .s8
  | .digestS16 => some .s16
  | .digestS16p => some .s16p
  | .digestFast => some (resolveFast l)
  | .tblinit | .combine => none

/-- The commands that exist at every table level (R78). -/
def tablelessCommands : List Instr := [.tblinit, .digestBit, .digestHalf, .digestTl1, .digestTl2, .digestFast, .combine]

/-- The commands that exist at a table level (R78, its table). -/
def availableCommands : TableLevel → List Instr
  | .none => tablelessCommands
  | .byte => tablelessCommands ++ [.digestB1]
  | .slice4 => tablelessCommands ++ [.digestB1, .digestS4]
  | .slice8 => tablelessCommands ++ [.digestB1, .digestS4, .digestS8]
  | .slice16 => tablelessCommands ++ [.digestB1, .digestS4, .digestS8, .digestS16, .digestS16p]

/-- The first `g` groups of four bytes reversed, the rest in place (R134). -/
def reverseGroups : Nat → List Byte → List Byte
  | g + 1, b0 :: b1 :: b2 :: b3 :: d => b3 :: b2 :: b1 :: b0 :: reverseGroups g d
  | _, d => d

end Sys2Proof.Machine
end

