-- ==== Sys2Proof/Certificates/Slice0/Obligations.lean ====
section
/-! DEFINITION. The statements for the provers, each from the spec's numbered rules. -/

open Sys2Proof Sys2Proof.Machine

/-! ### Encoding, decoding, issue -/

/-- R77: the twelve words of the opcode map, written out, decode to their commands. -/
def Obligations.OpcodeWordsDecode : Prop :=
  decode 0x00000001#32 = .ok .tblinit ∧ decode 0x00000010#32 = .ok .digestBit ∧
  decode 0x00000011#32 = .ok .digestHalf ∧ decode 0x00000012#32 = .ok .digestTl1 ∧
  decode 0x00000013#32 = .ok .digestTl2 ∧ decode 0x00000014#32 = .ok .digestB1 ∧
  decode 0x00000015#32 = .ok .digestS4 ∧ decode 0x00000016#32 = .ok .digestS8 ∧
  decode 0x00000017#32 = .ok .digestS16 ∧ decode 0x00000018#32 = .ok .digestS16p ∧
  decode 0x0000001F#32 = .ok .digestFast ∧ decode 0x00000020#32 = .ok .combine

/-- R77, R79: a word decodes to a command exactly when it is the command's `match` value; any other word is illegal, in
particular every word with a bit of 31:8 set. -/
def Obligations.DecodeInvertsEncode : Prop :=
  (∀ w i, decode w = .ok i ↔ w = encode i) ∧
  (∀ w, (∀ i, w ≠ encode i) → decode w = .error (.illegalCommand w)) ∧
  (∀ w : Word, w.extractLsb' 8 24 ≠ 0 → decode w = .error (.illegalCommand w))

/-- R26, R31, R80: when the next event is a write to `CMD` of a word that decodes to `i`, the step is `exec` of `i` on the
addressed engine, with the event taken off the list. The list of events is the model's own (assumption 6). -/
def Obligations.StepRunsDecodedCommand : Prop :=
  ∀ (s t : State) (k : Nat) (v : DWord) (es : List Event) (i : Instr),
    s.pending = ⟨k, .write .cmd v⟩ :: es → focus k { s with pending := es } = some t →
    decode (v.setWidth 32) = .ok i → step s = exec i t

/-- R79: which words are no commands, and that issuing one to an idle engine puts it in `ERROR` with code 1 and the word in
`EINFO`. -/
def Obligations.IllegalWordRaises : Prop :=
  (∀ w : Word, w.extractLsb' 8 24 ≠ 0 ∨ (w.extractLsb' 0 8).toNat ∉ [0x01, 0x10, 0x11, 0x12, 0x13, 0x14, 0x15, 0x16, 0x17,
    0x18, 0x1F, 0x20] → ∀ i, w ≠ encode i) ∧
  ∀ (s : State) (v : DWord), s.eng.ctrl = .idle → (∀ i, v.setWidth 32 ≠ encode i) →
    ∃ t, perform (.write .cmd v) s = .next t ∧ t.eng.ctrl = .error ∧ t.eng.ecode = 1#4 ∧
      t.eng.einfo = (v.setWidth 32).setWidth 64 ∧ t.eng.done = false ∧ t.table = s.table ∧ t.tvalid = s.tvalid ∧
      t.mem = s.mem ∧ t.before = s.before ∧ t.after = s.after

/-- R80, R32, R185: while the engine is busy or in `ERROR`, no `Issue` of any word changes anything. -/
def Obligations.IssueIgnoredUnlessIdle : Prop :=
  ∀ (s : State), s.eng.ctrl ≠ .idle →
    (∀ i, exec i s = .next s) ∧ (∀ v, perform (.write .cmd v) s = .next s) ∧ (∀ w, perform (.start w) s = .next s)

/-- R84: the issue checks in their order, on an idle engine, for the acceptance of any word. -/
def Obligations.IssueChecksInOrder : Prop :=
  ∀ (s : State) (w : Word), s.eng.ctrl = .idle →
    ((∀ i, w ≠ encode i) → startWord w s = raiseError .illegalCommand (w.setWidth 64) s) ∧
    (∀ i k, w = encode i → kernelOf s.cfg.level i = some k →
      (rowsOf s.cfg.level < rowsNeeded k → startWord w s = raiseError .kernelUnavailable (w.setWidth 64) s) ∧
      (rowsNeeded k ≤ rowsOf s.cfg.level → 0 < rowsNeeded k → s.tvalid = false →
        startWord w s = raiseError .tablesNotBuilt (w.setWidth 64) s) ∧
      (ChecksPass k s → (startWord w s).eng.isBusy = true)) ∧
    (w = encode .tblinit ∨ w = encode .combine → (startWord w s).eng.isBusy = true) ∧
    rowsNeeded (resolveFast s.cfg.level) ≤ rowsOf s.cfg.level

/-- R81: what acceptance copies from the operand registers. -/
def Obligations.AcceptanceLatchesOperands : Prop :=
  ∀ s : State,
    (∀ i k, kernelOf s.cfg.level i = some k → ChecksPass k s →
      (beginCommand i s).eng.acc = ~~~s.eng.opa ∧ (beginCommand i s).eng.pos = s.eng.ptr.toNat ∧
        (beginCommand i s).eng.rem = s.eng.len ∧ (beginCommand i s).eng.ksel = k) ∧
    (beginCommand .combine s).eng.va = s.eng.opa ∧ (beginCommand .combine s).eng.vb = s.eng.opb ∧
    (beginCommand .combine s).eng.nb = s.eng.len ∧
    (beginCommand .tblinit s).eng = { s.eng with done := false, ctrl := .busy (.tblinit 0) }

/-- R84, R78: a whole command that a check refuses ends in the error of that check, with its own word in `EINFO`. -/
def Obligations.RefusedCommandRaises : Prop :=
  ∀ (s : State) (i : Instr) (k : Kernel), s.eng.ctrl = .idle → kernelOf s.cfg.level i = some k →
    (rowsOf s.cfg.level < rowsNeeded k →
      exec i s = .next (raiseError .kernelUnavailable ((encode i).setWidth 64) s)) ∧
    (rowsNeeded k ≤ rowsOf s.cfg.level → 0 < rowsNeeded k → s.tvalid = false →
      exec i s = .next (raiseError .tablesNotBuilt ((encode i).setWidth 64) s))

/-- R6, R77, R78: the number of rows at each table level, the rows each kernel needs, and which commands exist at which
level: on an idle engine one that does not exist ends in `KernelUnavailable`, and one that exists is accepted once the tables
are built. -/
def Obligations.KernelAvailability : Prop :=
  (rowsOf .none = 0 ∧ rowsOf .byte = 1 ∧ rowsOf .slice4 = 4 ∧ rowsOf .slice8 = 8 ∧ rowsOf .slice16 = 16) ∧
  (rowsNeeded .bit = 0 ∧ rowsNeeded .half = 0 ∧ rowsNeeded .tl1 = 0 ∧ rowsNeeded .tl2 = 0 ∧ rowsNeeded .b1 = 1 ∧
    rowsNeeded .s4 = 4 ∧ rowsNeeded .s8 = 8 ∧ rowsNeeded .s16 = 16 ∧ rowsNeeded .s16p = 16) ∧
  ∀ (s : State) (i : Instr), s.eng.ctrl = .idle →
    (i ∉ availableCommands s.cfg.level →
      exec i s = .next (raiseError .kernelUnavailable ((encode i).setWidth 64) s)) ∧
    (i ∈ availableCommands s.cfg.level → s.tvalid = true → (startWord (encode i) s).eng.isBusy = true)

/-- R183: what `raise E(info)` does, and that it saves and changes nothing else of the block; R184: operands, `T` and
`TVALID` keep their values. -/
def Obligations.RaiseEntersErrorState : Prop :=
  ∀ (err : EngineError) (info : DWord) (s : State),
    let t := raiseError err info s
    t.eng.ecode = errorCode err ∧ t.eng.einfo = info ∧ (statusWord t).getLsbD 2 = true ∧
    (statusWord t).getLsbD 0 = false ∧ (statusWord t).getLsbD 1 = false ∧ t.eng.ctrl = .error ∧
    t.eng.opa = s.eng.opa ∧ t.eng.opb = s.eng.opb ∧ t.eng.ptr = s.eng.ptr ∧ t.eng.len = s.eng.len ∧
    t.table = s.table ∧ t.tvalid = s.tvalid ∧ t.mem = s.mem ∧ t.before = s.before ∧ t.after = s.after ∧
    t.cfg = s.cfg ∧ errorCode .illegalCommand = 1#4 ∧ errorCode .kernelUnavailable = 2#4 ∧
    errorCode .tablesNotBuilt = 3#4 ∧ errorCode .busFault = 4#4

/-- R17, R80: what completion with a result does: `RES` is written, `DONE` is set, the engine is idle, and nothing else of
the block changes but the working registers (free values, assumption 3); the operator buffers and `SEL` stay (R25). -/
def Obligations.CompletionWritesResult : Prop :=
  ∀ (r : Word) (s : State),
    let t := complete r s
    t.eng.res = r ∧ t.eng.done = true ∧ t.eng.ctrl = .idle ∧ t.eng.opa = s.eng.opa ∧ t.eng.opb = s.eng.opb ∧
    t.eng.ptr = s.eng.ptr ∧ t.eng.len = s.eng.len ∧ t.eng.ecode = s.eng.ecode ∧ t.eng.einfo = s.eng.einfo ∧
    t.eng.op0 = s.eng.op0 ∧ t.eng.op1 = s.eng.op1 ∧ t.eng.sel = s.eng.sel ∧ t.table = s.table ∧ t.tvalid = s.tvalid ∧
    t.mem = s.mem ∧ t.cfg = s.cfg ∧ t.before = s.before ∧ t.after = s.after ∧ t.pending = s.pending ∧ t.rdata = s.rdata ∧ t.racy = s.racy

/-! ### Reset and the host's view -/

/-- R34, R205: the values the spec gives for reset, in every configuration and on every engine. -/
def Obligations.ResetValues : Prop :=
  ∀ (c : Config) (e : Engine), e ∈ allEngines (State.resetWith c) →
    e.ctrl = .idle ∧ e.done = false ∧ e.ecode = 0 ∧ e.einfo = 0 ∧ (State.resetWith c).tvalid = false ∧
    statusWord (State.resetWith c) = 0 ∧ configWord (State.resetWith c).cfg = configWord c

/-- R205, R206, R208: the reset event, from any state, gives every engine the values the spec states for reset, clears the
shared `TVALID`, and leaves data memory and the parameters alone. -/
def Obligations.ResetEvent : Prop :=
  ∀ (s : State), ∃ t, perform .reset s = .next t ∧ (∀ e ∈ allEngines t, e.ctrl = .idle ∧ e.done = false ∧
    e.ecode = 0 ∧ e.einfo = 0) ∧ t.tvalid = false ∧
    statusWord t = 0 ∧ t.mem = s.mem ∧ t.cfg = s.cfg ∧ (allEngines t).length = (allEngines s).length

/-- R27: the fields of `STATUS`, that a write of it has no effect, that it is 0 after reset, and that at most one of `BUSY`,
`DONE`, `ERR` is 1. -/
def Obligations.StatusFields : Prop :=
  (∀ s : State, (statusWord s).getLsbD 0 = s.eng.isBusy ∧ (statusWord s).getLsbD 1 = s.eng.done ∧
    (statusWord s).getLsbD 2 = decide (s.eng.ctrl = .error) ∧ (statusWord s).getLsbD 3 = s.tvalid ∧
    (statusWord s).extractLsb' 4 4 = s.eng.ecode ∧ (statusWord s).extractLsb' 8 24 = 0 ∧
    (∀ v, perform (.write .status v) s = .next s)) ∧
  (∀ s : State, MachineInv s →
    ¬((statusWord s).getLsbD 0 = true ∧ (statusWord s).getLsbD 1 = true) ∧
    ¬((statusWord s).getLsbD 0 = true ∧ (statusWord s).getLsbD 2 = true) ∧
    ¬((statusWord s).getLsbD 1 = true ∧ (statusWord s).getLsbD 2 = true) ∧
    ((statusWord s).getLsbD 2 = false → (statusWord s).extractLsb' 4 4 = 0)) ∧
  ∀ c : Config, statusWord (State.resetWith c) = 0

/-- R28: the fields of `CONFIG`, that a write of it has no effect, and that no action changes it. -/
def Obligations.ConfigFields : Prop :=
  (∀ c : Config, (configWord c).extractLsb' 0 3 =
      (match c.level with | .none => 0#3 | .byte => 1#3 | .slice4 => 2#3 | .slice8 => 3#3 | .slice16 => 4#3) ∧
    (configWord c).getLsbD 3 = c.cfgBe ∧ (configWord c).extractLsb' 4 4 = 0 ∧
    ((configWord c).extractLsb' 8 24).toNat = min c.prefetchAhead (2 ^ 24 - 1)) ∧
  (∀ (s : State) (v : DWord), perform (.write .config v) s = .next s) ∧
  ∀ (a : Action) (s t : State), perform a s = .next t → configWord t.cfg = configWord s.cfg

/-- R31, R26, R29, R30: host writes set an operand register to the value truncated to its width, in every `STATE`, and
nothing else; writes of the read-only registers do nothing; a read gives the register zero-extended (0 for `CMD`) and
changes nothing of the block (the value goes to `rdata`, the model's own field, assumption 15). The registers are numbered
as R30 says, and there is none past number 8. -/
def Obligations.HostRegisterAccess : Prop :=
  (regOfIndex 0 = some .opa ∧ regOfIndex 1 = some .opb ∧ regOfIndex 2 = some .ptr ∧ regOfIndex 3 = some .len ∧
    regOfIndex 4 = some .res ∧ regOfIndex 5 = some .cmd ∧ regOfIndex 6 = some .status ∧ regOfIndex 7 = some .config ∧
    regOfIndex 8 = some .einfo ∧ (∀ k, 8 < k → regOfIndex k = none) ∧
    ∀ k r v, regOfIndex k = some r → writeNumber k v = [.write r v]) ∧
  ∀ (s : State) (v : DWord),
    perform (.write .opa v) s = .next { s with eng := { s.eng with opa := v.setWidth 32 } } ∧
    perform (.write .opb v) s = .next { s with eng := { s.eng with opb := v.setWidth 32 } } ∧
    perform (.write .len v) s = .next { s with eng := { s.eng with len := v } } ∧
    (∃ p : DWord, p.toNat = v.toNat % 2 ^ s.cfg.aw ∧
      perform (.write .ptr v) s = .next { s with eng := { s.eng with ptr := p } }) ∧
    perform (.write .res v) s = .next s ∧ perform (.write .einfo v) s = .next s ∧
    ∀ r, ∃ t, perform (.read r) s = .next t ∧
      t = { s with rdata := t.rdata, draws := t.draws } ∧
      t.rdata = (match r with
        | .opa => s.eng.opa.setWidth 64
        | .opb => s.eng.opb.setWidth 64
        | .ptr => s.eng.ptr
        | .len => s.eng.len
        | .res => if s.eng.isBusy then t.rdata else s.eng.res.setWidth 64
        | .cmd => 0
        | .status => (statusWord s).setWidth 64
        | .config => (configWord s.cfg).setWidth 64
        | .einfo => s.eng.einfo)

/-- R213: once a command is done on engine `k`, no step but a reset or one that issues a word to that engine changes its
`RES`, its `DONE` or its idle state, whichever engine the step's event addresses and when nothing is pending too. The list
of events is the model's own (assumption 6). -/
def Obligations.ResultStaysUntilNextCommand : Prop :=
  ∀ (s t : State) (k : Nat) (e : Engine), step s = .next t → (allEngines s)[k]? = some e → e.ctrl = .idle →
    e.done = true → (∀ v es, s.pending ≠ ⟨k, .write .cmd v⟩ :: es) → (∀ w es, s.pending ≠ ⟨k, .start w⟩ :: es) →
    (∀ j es, s.pending ≠ ⟨j, .reset⟩ :: es) →
    ∃ e', (allEngines t)[k]? = some e' ∧ e'.res = e.res ∧ e'.done = true ∧ e'.ctrl = .idle

/-- R21, R185, R186, R190: an engine that is in `ERROR` before a step is in `ERROR` after it, with the code and the
information of its first error, unless the step's event is the reset, whichever engine the event addresses and when nothing
is pending too. The list of events is the model's own (assumption 6). -/
def Obligations.ErrorIsSticky : Prop :=
  ∀ (s t : State) (k : Nat) (e : Engine), step s = .next t → (allEngines s)[k]? = some e → e.ctrl = .error →
    (∀ j es, s.pending ≠ ⟨j, .reset⟩ :: es) →
    ∃ e', (allEngines t)[k]? = some e' ∧ e'.ctrl = .error ∧ e'.ecode = e.ecode ∧ e'.einfo = e.einfo

/-! ### The arithmetic -/

/-- R8, R10: the two forms of the bit step agree, it is linear, and the examples of R10. -/
def Obligations.BitstepFormsAndLinearity : Prop :=
  (∀ c : Word, (-(c &&& 1#32) = if c.getLsbD 0 then 0xFFFFFFFF#32 else 0#32) ∧
    bitstep c = (c >>> 1) ^^^ (poly &&& -(c &&& 1#32)) ∧
    bitstep c = if c.getLsbD 0 then (c >>> 1) ^^^ poly else c >>> 1) ∧
  (∀ a b : Word, bitstep (a ^^^ b) = bitstep a ^^^ bitstep b) ∧ bitstep 0 = 0 ∧
  bitstep 0x00000001#32 = 0xEDB88320#32 ∧ bitstep 0x00000002#32 = 0x00000001#32 ∧
  bitstep 0x80000000#32 = 0x40000000#32 ∧ bitstep 0xFFFFFFFF#32 = 0x92477CDF#32

/-- R112: the byte step, the zero-byte step, the split of a byte step into the two, and that `T0` and the zero-byte step are
linear and the latter equals eight bit steps. -/
def Obligations.ByteStepSplits : Prop :=
  (∀ (c : Word) (b : Byte), bytestep c b = (c >>> 8) ^^^ row0 ((c ^^^ b.setWidth 32).extractLsb' 0 8) ∧
    bytestep c b = zbyte c ^^^ row0 b) ∧
  (∀ c : Word, zbyte c = bytestep c 0 ∧ zbyte c = (c >>> 8) ^^^ row0 (c.extractLsb' 0 8) ∧ zbyte c = bitstep^[8] c) ∧
  (∀ a b : Byte, row0 (a ^^^ b) = row0 a ^^^ row0 b) ∧
  ∀ a b : Word, zbyte (a ^^^ b) = zbyte a ^^^ zbyte b

/-- R24: every entry of the half-byte table is four bit steps of its index, and entry `16 * i` of row 0. -/
def Obligations.HalfTableValues : Prop :=
  ∀ i : BitVec 4, halfTable i = bitstep^[4] (i.setWidth 32) ∧ halfTable i = row0 (i ++ 0#4)

/-- R109, R110: the two tableless forms equal `T0` for all 256 bytes. -/
def Obligations.TablelessForms : Prop :=
  ∀ s : Byte, t0Shift s = row0 s ∧ t0Sum s = row0 s

/-- R114 (its first half): the byte steps of the five bytewise kernels are the one byte step. -/
def Obligations.ByteStepsAgree : Prop :=
  ∀ (c : Word) (b : Byte), stepBit c b = bytestep c b ∧ stepHalf c b = bytestep c b ∧
    stepTl1 c b = bytestep c b ∧ stepTl2 c b = bytestep c b ∧
    ∀ t : Nat → Byte → Word, (∀ i, t 0 i = row0 i) → stepB1 t c b = bytestep c b

/-- R99: every row of a built table is linear in its index, has 0 at index 0, and each entry is the exclusive-or of the
entries of the index's set bits. -/
def Obligations.TableRowsAreLinear : Prop :=
  ∀ (c : Config) (r : Nat), r < rowsOf c.level →
    (∀ a b : Byte, tableEntry (builtTable c) r (a ^^^ b) =
      tableEntry (builtTable c) r a ^^^ tableEntry (builtTable c) r b) ∧
    tableEntry (builtTable c) r 0 = 0 ∧
    ∀ i : Byte, tableEntry (builtTable c) r i =
      (List.range 8).foldr (fun j x => (if i.getLsbD j then tableEntry (builtTable c) r (1#8 <<< j) else 0) ^^^ x) 0

/-- R127: a block step of 4, 8 or 16 bytes over built tables equals as many byte steps. -/
def Obligations.BlockStepIsByteSteps : Prop :=
  ∀ (t : Nat → Byte → Word) (c : Word),
    ((∀ r < 4, ∀ i, t r i = rowValue r i) → ∀ b0 b1 b2 b3 : Byte,
      blockS4 t c (assemble false b0 b1 b2 b3) = regAfter c [b0, b1, b2, b3]) ∧
    ((∀ r < 8, ∀ i, t r i = rowValue r i) → ∀ b0 b1 b2 b3 b4 b5 b6 b7 : Byte,
      blockS8 t c (assemble false b0 b1 b2 b3) (assemble false b4 b5 b6 b7) = regAfter c [b0, b1, b2, b3, b4, b5, b6, b7]) ∧
    ((∀ r < 16, ∀ i, t r i = rowValue r i) → ∀ b0 b1 b2 b3 b4 b5 b6 b7 b8 b9 ba bb bc bd be bf : Byte,
      blockS16 t c (assemble false b0 b1 b2 b3) (assemble false b4 b5 b6 b7) (assemble false b8 b9 ba bb) (assemble false bc bd be bf) =
        regAfter c [b0, b1, b2, b3, b4, b5, b6, b7, b8, b9, ba, bb, bc, bd, be, bf])

/-- R115: the digest of a concatenation is the digest of its second part seeded with the digest of its first; carrying the
seed byte by byte gives the digest of the whole. -/
def Obligations.DigestChains : Prop :=
  (∀ (a b : List Byte) (seed : Word), digest b (digest a seed) = digest (a ++ b) seed) ∧
  ∀ (d : List Byte) (seed : Word), d.foldl (fun s b => digest [b] s) seed = digest d seed

/-- R116: the affine law of the accumulator and of the digest. -/
def Obligations.DigestIsAffine : Prop :=
  ∀ (d : List Byte) (r seed : Word),
    regAfter r d = zbyte^[d.length] r ^^^ regAfter 0 d ∧
    digest d seed = ~~~(zbyte^[d.length] (~~~seed) ^^^ regAfter 0 d)

/-! ### The combine operator -/

/-- R149: the rows of the operator of one zero bit, and that it is the bit step. -/
def Obligations.ZeroBitOperator : Prop :=
  gf2Base.length = 32 ∧ gf2Base.getD 0 0 = 0xEDB88320#32 ∧
  (∀ i, 1 ≤ i → i ≤ 31 → gf2Base.getD i 0 = 1#32 <<< (i - 1)) ∧ ∀ v : Word, gf2Times gf2Base v = bitstep v

/-- R148: `gf2_times` on the zero vector and on a unit vector, and that it is linear. -/
def Obligations.OperatorTimesVector : Prop :=
  ∀ m : List Word, m.length = 32 →
    gf2Times m 0 = 0 ∧ (∀ i < 32, gf2Times m (1#32 <<< i) = m.getD i 0) ∧
    (∀ a b : Word, gf2Times m (a ^^^ b) = gf2Times m a ^^^ gf2Times m b) ∧
    ∀ v : Word, gf2Times m v = (List.range 32).foldr (fun i x => (if v.getLsbD i then m.getD i 0 else 0) ^^^ x) 0

/-- R147: each row of the square, and that squaring composes an operator with itself, so that an operator of `m` zero bits
becomes the one of `2m`. -/
def Obligations.SquaringComposes : Prop :=
  ∀ m : List Word, m.length = 32 →
    (gf2Square m).length = 32 ∧
    (∀ i < 32, (gf2Square m).getD i 0 = gf2Times m (m.getD i 0) ∧
      (gf2Square m).getD i 0 = (List.range 32).foldr (fun j x => (if (m.getD i 0).getLsbD j then m.getD j 0 else 0) ^^^ x) 0) ∧
    (∀ v : Word, gf2Times (gf2Square m) v = gf2Times m (gf2Times m v)) ∧
    ∀ n : Nat, (∀ v : Word, gf2Times m v = bitstep^[n] v) → ∀ v : Word, gf2Times (gf2Square m) v = bitstep^[2 * n] v

/-- R155: combining the digest of `A` with the seed-0 digest of `B` gives the digest of `A ++ B`. -/
def Obligations.CombineContract : Prop :=
  ∀ (a b : List Byte) (seed : Word), b.length < 2 ^ 64 →
    combine (digest a seed) (digest b 0) (BitVec.ofNat 64 b.length) = digest (a ++ b) seed

/-- R156: `combine` is linear in its two CRCs; for a length above 0 (R152 governs length 0) it answers `b` for `a = 0` and
the zero-byte step applied `n` times for `b = 0`. -/
def Obligations.CombineIsLinear : Prop :=
  ∀ (a a' b b' : Word) (n : DWord),
    combine (a ^^^ a') (b ^^^ b') n = combine a b n ^^^ combine a' b' n ∧
    (n ≠ 0 → combine 0 b n = b ∧ combine a 0 n = zbyte^[n.toNat] a)

/-- R145, R146, R154: COMBINE on an idle engine completes with `combine(OPA, OPB, LEN)`, and changes nothing else but the
working registers and, where `LEN` is above 0, the operator buffers and `SEL` (R152, R160). -/
def Obligations.CombineCompletes : Prop :=
  ∀ s : State, s.eng.ctrl = .idle →
    exec .combine s = .next (if s.eng.len = 0 then complete (combine s.eng.opa s.eng.opb s.eng.len) s
      else completeCombine (combine s.eng.opa s.eng.opb s.eng.len) s)

/-- R152: with `LEN = 0` COMBINE answers `OPA`, whatever `OPB` holds, and does not write `OP` or `SEL`. -/
def Obligations.CombineDegenerate : Prop :=
  ∀ s : State, s.eng.ctrl = .idle → s.eng.len = 0 →
    (∃ t, exec .combine s = .next t ∧ t.eng.res = s.eng.opa ∧ t.eng.done = true ∧ t.eng.ctrl = .idle ∧
      t.eng.op0 = s.eng.op0 ∧ t.eng.op1 = s.eng.op1 ∧ t.eng.sel = s.eng.sel) ∧
    ∀ n, (ticks n (beginCommand .combine s)).eng.op0 = s.eng.op0 ∧ (ticks n (beginCommand .combine s)).eng.op1 = s.eng.op1 ∧
      (ticks n (beginCommand .combine s)).eng.sel = s.eng.sel

/-! ### TBLINIT -/

/-- R95 to R98, R101: TBLINIT on an idle engine completes; every entry of every existing row has its value, `TVALID` is 1,
and it writes no `RES`. -/
def Obligations.TblinitBuildsTables : Prop :=
  ∀ s : State, s.eng.ctrl = .idle → TableShape s.cfg s.table →
    ∃ t, exec .tblinit s = .next t ∧ t.table = builtTable s.cfg ∧ t.tvalid = true ∧ t.eng.ctrl = .idle ∧
      t.eng.done = true ∧ t.eng.res = s.eng.res ∧
      (∀ i : Byte, 0 < rowsOf s.cfg.level → tableEntry t.table 0 i = bitstep^[8] (i.setWidth 32)) ∧
      (∀ (r : Nat) (i : Byte), r + 1 < rowsOf s.cfg.level →
        tableEntry t.table (r + 1) i = (tableEntry t.table r i >>> 8) ^^^
          tableEntry t.table 0 ((tableEntry t.table r i).extractLsb' 0 8)) ∧
      ∀ (r : Nat) (i : Byte), r < rowsOf s.cfg.level → tableEntry t.table r i = zbyte^[r] (row0 i)

/-- R64, R102: once `TVALID` is 1, no step but a reset changes the table memory or `TVALID`. That this holds of every step of
a re-run TBLINIT as well, so that no entry shows another value on the way, is the model's choice (assumption 19): the spec
does not specify it. -/
def Obligations.BuiltTablesNeverChange : Prop :=
  ∀ s t : State, MachineInv s → s.tvalid = true → step s = .next t →
    (t.table = s.table ∧ t.tvalid = true) ∨ ∃ (k : Nat) (es : List Event), s.pending = ⟨k, .reset⟩ :: es

/-! ### The digest commands -/

/-- R105, R107 to R110, R113, R118: each bytewise command executes normally on an idle engine whose checks pass and whose
range is admitted: it completes with the digest of the range from the seed, and changes nothing else. The byte-order
flags do not matter (R57). -/
def Obligations.BytewiseDigestsComplete : Prop :=
  ∀ (s : State) (i : Instr) (k : Kernel),
    (i, k) ∈ [(Instr.digestBit, Kernel.bit), (.digestHalf, .half), (.digestTl1, .tl1), (.digestTl2, .tl2), (.digestB1, .b1)] →
    KernelReady k s → RangeAdmitted s →
    exec i s = .next (complete (digest (operandBytes s) s.eng.opa) s)

/-- R125 to R131: each slicing command, with the byte-order flag right, completes with the same digest. -/
def Obligations.SlicingDigestsComplete : Prop :=
  ∀ (s : State) (i : Instr) (k : Kernel),
    (i, k) ∈ [(Instr.digestS4, Kernel.s4), (.digestS8, .s8), (.digestS16, .s16), (.digestS16p, .s16p)] →
    KernelReady k s → RangeAdmitted s → s.cfg.cfgBe = s.cfg.platBe →
    exec i s = .next (complete (digest (operandBytes s) s.eng.opa) s)

/-- R132: DIGEST.FAST completes with the same digest at every table level, once the tables it needs are built. -/
def Obligations.FastDigestCompletes : Prop :=
  ∀ s : State, KernelReady (resolveFast s.cfg.level) s → RangeAdmitted s →
    (blockBytes (resolveFast s.cfg.level) = 0 ∨ s.cfg.cfgBe = s.cfg.platBe) →
    exec .digestFast s = .next (complete (digest (operandBytes s) s.eng.opa) s)

/-- R132: DIGEST.FAST behaves as the command of the kernel its table level resolves to, but for the word recorded when its
tables are not built. -/
def Obligations.FastIsItsKernel : Prop :=
  ∀ (s : State) (i : Instr),
    (s.cfg.level, i) ∈ [(TableLevel.slice16, Instr.digestS16), (.slice8, .digestS8), (.slice4, .digestS4),
      (.byte, .digestB1), (.none, .digestHalf)] →
    (s.cfg.level = .none ∨ s.tvalid = true → exec .digestFast s = exec i s) ∧
    (s.eng.ctrl = .idle → s.cfg.level ≠ .none → s.tvalid = false →
      exec .digestFast s = .next (raiseError .tablesNotBuilt 0x1F#64 s))

/-- R134: with the byte-order flag wrong, a slicing command completes without error with the digest of the range whose
block-stepped groups of four bytes are reversed, tail bytes in place. -/
def Obligations.WrongByteOrderDigest : Prop :=
  ∀ (s : State) (i : Instr) (k : Kernel),
    (i, k) ∈ [(Instr.digestS4, Kernel.s4), (.digestS8, .s8), (.digestS16, .s16), (.digestS16p, .s16p)] →
    KernelReady k s → RangeAdmitted s → s.cfg.cfgBe ≠ s.cfg.platBe →
    exec i s = .next (complete (digest
      (reverseGroups (s.eng.len.toNat / blockBytes k * blockBytes k / 4) (operandBytes s)) s.eng.opa) s)

/-- R106, R67: with `LEN = 0` every DIGEST command whose issue checks pass answers its seed, whatever the range would be and
whatever data memory holds. -/
def Obligations.EmptyRangeReturnsSeed : Prop :=
  ∀ (s : State) (i : Instr) (k : Kernel), kernelOf s.cfg.level i = some k → s.eng.ctrl = .idle → ChecksPass k s →
    s.eng.len = 0 →
    ∃ t, exec i s = .next t ∧ t.eng.res = s.eng.opa ∧ t.eng.done = true ∧ t.eng.ctrl = .idle ∧
      t.eng.ecode = s.eng.ecode ∧ t.table = s.table ∧ t.mem = s.mem ∧
      (∀ m, exec i { s with mem := m } = .next { t with mem := m }) ∧ digest [] 0 = 0

/-- R53, R117, R133, R182: when byte `n` of the range is the first that is not admitted, every DIGEST command ends in
`BusFault` at that byte's address, whatever its kernel. -/
def Obligations.FirstUnadmittedByteFaults : Prop :=
  ∀ (s : State) (i : Instr) (k : Kernel) (n : Nat), kernelOf s.cfg.level i = some k → s.eng.ctrl = .idle →
    ChecksPass k s → n < s.eng.len.toNat → admitted s.cfg (s.eng.ptr.toNat + n) = false →
    (∀ m < n, admitted s.cfg (s.eng.ptr.toNat + m) = true) →
    ∃ t, exec i s = .next t ∧ t.eng.ctrl = .error ∧ t.eng.ecode = 4#4 ∧ t.eng.done = false ∧
      (s.eng.ptr.toNat + n < 2 ^ 64 → t.eng.einfo = BitVec.ofNat 64 (s.eng.ptr.toNat + n)) ∧
      t.table = s.table ∧ t.tvalid = s.tvalid ∧ t.mem = s.mem

/-- R131: DIGEST.S16P and DIGEST.S16 do the same in every state; where a check refuses them they raise the same error,
each with its own word. -/
def Obligations.PrefetchHasNoEffect : Prop :=
  ∀ s : State,
    (s.eng.ctrl ≠ .idle ∨ ChecksPass .s16 s → exec .digestS16p s = exec .digestS16 s) ∧
    (s.eng.ctrl = .idle → ¬ChecksPass .s16 s → ∃ err,
      exec .digestS16p s = .next (raiseError err 0x18#64 s) ∧ exec .digestS16 s = .next (raiseError err 0x17#64 s))

/-- R20: at every point of a running DIGEST command that executes normally, `POS` and `REM` add up to the end of the
range, and the bytes folded into `ACC` are exactly those before `POS`. -/
def Obligations.StreamPosition : Prop :=
  ∀ (s : State) (i : Instr) (k : Kernel) (n : Nat), kernelOf s.cfg.level i = some k → KernelReady k s →
    RangeAdmitted s → (blockBytes k = 0 ∨ s.cfg.cfgBe = s.cfg.platBe) →
    (ticks n (beginCommand i s)).eng.isBusy = true →
    let e := (ticks n (beginCommand i s)).eng
    s.eng.ptr.toNat ≤ e.pos ∧ e.pos - s.eng.ptr.toNat + e.rem.toNat = s.eng.len.toNat ∧
      e.acc = regAfter (~~~s.eng.opa) (rangeBytes s.mem s.eng.ptr.toNat (e.pos - s.eng.ptr.toNat))

/-- R52: what a command does depends on data memory only through the bytes of the range; COMBINE and TBLINIT do not depend
on it at all. -/
def Obligations.CommandsReadOnlyTheRange : Prop :=
  ∀ (s : State) (i : Instr) (m : List Host.Cell),
    (i = .combine ∨ i = .tblinit ∨
      ∀ n < s.eng.len.toNat, memRead m (s.eng.ptr.toNat + n) = memRead s.mem (s.eng.ptr.toNat + n)) →
    ∃ t, exec i s = .next t ∧ exec i { s with mem := m } = .next { t with mem := m }

/-! ### Frames, granularity, the whole machine -/

/-- R16, R51, R102, R190: what no command changes: the operand registers, data memory, the parameters, what is to come from
outside; only TBLINIT writes the tables or touches another engine (it marks a running reader, R212, assumption 9); only an
error writes `ECODE` and `EINFO`; TBLINIT keeps `RES`; only COMBINE with `LEN` above 0 or an error touches `OP` and `SEL`
(R25). -/
def Obligations.CommandFrame : Prop :=
  ∀ (i : Instr) (s t : State), exec i s = .next t →
    t.eng.opa = s.eng.opa ∧ t.eng.opb = s.eng.opb ∧ t.eng.ptr = s.eng.ptr ∧ t.eng.len = s.eng.len ∧
    t.cfg = s.cfg ∧ t.mem = s.mem ∧ (∀ a, memRead t.mem a = memRead s.mem a) ∧ t.pending = s.pending ∧
    t.rdata = s.rdata ∧
    (t.eng.ctrl ≠ .error → t.eng.ecode = s.eng.ecode ∧ t.eng.einfo = s.eng.einfo) ∧
    (i ≠ .tblinit → t.table = s.table ∧ t.tvalid = s.tvalid ∧ t.before = s.before ∧ t.after = s.after) ∧
    (i = .tblinit → t.eng.res = s.eng.res ∧ (t.before = s.before ∧ t.after = s.after ∨
      t.before = s.before.map taintReader ∧ t.after = s.after.map taintReader)) ∧
    (t.eng.ctrl ≠ .error → i ≠ .combine ∨ s.eng.len = 0 →
      t.eng.op0 = s.eng.op0 ∧ t.eng.op1 = s.eng.op1 ∧ t.eng.sel = s.eng.sel)

/-- R16, R36, R51, R102, R190: the frame at the granularity of R83 (assumption 7). Acceptance of any word leaves the operand
registers, data memory, the parameters, the tables and `TVALID` as they are, leaves `RES`, `ECODE` and `EINFO` unless it ends
in an error, and leaves the other engines but for the mark a TBLINIT puts on their running readers (assumption 9). One step
of an engine leaves its operand registers, data memory, the parameters and every other engine as they are, and writes the
tables only while it runs TBLINIT. A step with nothing pending changes at most one engine. -/
def Obligations.FineStepFrame : Prop :=
  (∀ (w : Word) (s : State),
    let t := startWord w s
    perform (.start w) s = .next t ∧ t.eng.opa = s.eng.opa ∧ t.eng.opb = s.eng.opb ∧ t.eng.ptr = s.eng.ptr ∧ t.eng.len = s.eng.len ∧ t.cfg = s.cfg ∧
    t.mem = s.mem ∧ t.pending = s.pending ∧ t.rdata = s.rdata ∧ t.table = s.table ∧ t.tvalid = s.tvalid ∧
    (t.eng.ctrl ≠ .error → t.eng.res = s.eng.res ∧ t.eng.ecode = s.eng.ecode ∧ t.eng.einfo = s.eng.einfo) ∧
    (t.before = s.before ∧ t.after = s.after ∨
      w = encode .tblinit ∧ t.before = s.before.map taintReader ∧ t.after = s.after.map taintReader)) ∧
  (∀ s : State,
    let t := tick s
    perform .tick s = .next t ∧ t.eng.opa = s.eng.opa ∧ t.eng.opb = s.eng.opb ∧ t.eng.ptr = s.eng.ptr ∧ t.eng.len = s.eng.len ∧ t.cfg = s.cfg ∧
    t.mem = s.mem ∧ t.pending = s.pending ∧ t.rdata = s.rdata ∧ t.racy = s.racy ∧ t.before = s.before ∧
    t.after = s.after ∧ (s.eng.isBuilding = false → t.table = s.table ∧ t.tvalid = s.tvalid) ∧
    (t.eng.ctrl ≠ .error → t.eng.ecode = s.eng.ecode ∧ t.eng.einfo = s.eng.einfo)) ∧
  ∀ s t : State, s.pending = [] → step s = .next t →
    t.mem = s.mem ∧ t.cfg = s.cfg ∧ t.pending = [] ∧ t.rdata = s.rdata ∧ t.racy = s.racy ∧
    ∃ k : Nat, (∀ j : Nat, j ≠ k → (allEngines t)[j]? = (allEngines s)[j]?) ∧
      ∀ e e' : Engine, (allEngines s)[k]? = some e → (allEngines t)[k]? = some e' →
        e'.opa = e.opa ∧ e'.opb = e.opb ∧ e'.ptr = e.ptr ∧ e'.len = e.len

/-- R214: every running command is over after at most the steps its trip counts fix. -/
def Obligations.RunningCommandEnds : Prop :=
  ∀ s : State, (ticks (workLeft s) s).eng.isBusy = false ∧
    ∀ n, workLeft s ≤ n → ticks n s = ticks (workLeft s) s

/-- R83, and the two granularities of assumptions 6 and 7: a command accepted and then run step by step, with nothing else
happening, comes to the state that the command taken as one transition answers. -/
def Obligations.FineStepsRefineWholeCommand : Prop :=
  ∀ (s : State) (w : Word), (∀ e ∈ otherEngines s, e.isBusy = false) → s.eng.isBusy = false →
    ∃ n, Host.Core.run Sys2Proof.core (n + 1) { s with pending := [⟨s.before.length, .start w⟩] } =
      step { s with pending := [⟨s.before.length, .write .cmd (w.setWidth 64)⟩] }

/-- R16, R32, R215: a host write to an operand register while a command runs has its effect on the register and none on
the command. -/
def Obligations.OperandWriteDoesNotDisturb : Prop :=
  ∀ (s : State) (r : HostReg) (v : DWord) (n : Nat), ticks n (hostWrite r v s) = hostWrite r v (ticks n s)

/-- R61: a platform write inside the range of a running DIGEST command marks the run racy (the model's mark, assumption 9);
a later read of that byte returns the value before or the value after; every other byte reads as before. -/
def Obligations.RacingStore : Prop :=
  ∀ (s : State) (j : DigestJob) (a : Nat) (b : Byte), s.eng.ctrl = .busy (.digest j) → j.stale = [] →
    j.first ≤ a → a < j.stop → a < 2 ^ s.cfg.aw → Memory.wf s.mem = true →
    ∃ t j', perform (.store a b) s = .next t ∧ t.eng.ctrl = .busy (.digest j') ∧ t.racy = true ∧
      (byteSeen t j' a = memRead s.mem a ∨ byteSeen t j' a = b) ∧
      ∀ x, x ≠ a → byteSeen t j' x = memRead s.mem x

/-- R54: a platform write outside every running range changes one byte of data memory and nothing of the block. -/
def Obligations.PlatformStore : Prop :=
  ∀ (s : State) (a : Nat) (b : Byte), a < 2 ^ s.cfg.aw → Memory.wf s.mem = true →
    (∀ e ∈ allEngines s, rangeHolds a e = false) →
    ∃ m, perform (.store a b) s = .next { s with mem := m } ∧ Memory.wf m = true ∧
      ∀ x, memRead m x = if a = x then b else memRead s.mem x

/-- R212: TBLINIT issued while another engine runs a table-driven command, and a table-driven command issued while another
engine runs TBLINIT, mark the run racy, the command taken whole or only accepted; and no step takes the mark away. The mark
is the model's own bookkeeping (assumption 9). -/
def Obligations.TableRaceIsMarked : Prop :=
  (∀ (s : State) (i : Instr), s.eng.ctrl = .idle →
    (i = .tblinit ∧ (∃ e ∈ otherEngines s, e.isReadingTable = true) ∨
      (∃ k, kernelOf s.cfg.level i = some k ∧ 0 < rowsNeeded k ∧ ChecksPass k s) ∧
        (∃ e ∈ otherEngines s, e.isBuilding = true)) →
    (∃ t, exec i s = .next t ∧ t.racy = true) ∧ (startWord (encode i) s).racy = true) ∧
  ∀ s t : State, step s = .next t → s.racy = true → t.racy = true

/-- The invariant holds after reset, in every legal configuration and in the suggested one (assumption 1), with the model's
values for what reset leaves unspecified (assumption 2). -/
def Obligations.ResetMeetsInvariant : Prop :=
  (∀ c : Config, c.wf = true → MachineInv (State.resetWith c)) ∧ MachineInv State.reset

/-- Every step keeps the invariant, from every state that meets it. -/
def Obligations.StepKeepsInvariant : Prop :=
  ∀ s t : State, MachineInv s → step s = .next t → MachineInv t

/-- R4, R6, R28, R36: no step changes the parameters or the number of engines. -/
def Obligations.ParametersAreFixed : Prop :=
  ∀ s t : State, step s = .next t → t.cfg = s.cfg ∧ (allEngines t).length = (allEngines s).length

/-- No command is ever refused or stopped, and neither is a step with nothing pending. That a step takes its event from a
list is the model's choice (assumption 6); so is the stop `noSuchInstance` on an event for an engine past the `NENG` of R36
(assumption 8), and the stop `noSuchAddress` on a platform store past the address space of R50 (assumption 17): the spec
gives neither. -/
def Obligations.StepStopsOnlyOnMissingTargets : Prop :=
  ∀ s : State, (allEngines s).length = s.cfg.neng →
    (s.pending = [] → ∃ t, step s = .next t) ∧
    ∀ e es, s.pending = e :: es →
      (e.wf s.cfg = true → ∃ t, step s = .next t) ∧
      (s.cfg.neng ≤ e.inst → step s = .fault .noSuchInstance) ∧
      (∀ a b, e.inst < s.cfg.neng → e.act = .store a b → 2 ^ s.cfg.aw ≤ a → step s = .fault .noSuchAddress)

/-! ### Host sequences -/

/-- R166: a chain of DIGEST lines, each seeded with the result of the one before, gives the digest of the concatenation. The
host's lines as functions on one engine are the model's form of them (assumption 18). -/
def Obligations.ChainedLinesDigestConcatenation : Prop :=
  ∀ (i : Instr) (k : Kernel) (rs : List (DWord × DWord)) (seed : Word) (s : State),
    kernelOf s.cfg.level i = some k → KernelReady k s → (blockBytes k = 0 ∨ s.cfg.cfgBe = s.cfg.platBe) →
    s.cfg.aw ≤ 64 →
    (∀ r ∈ rs, ∀ n < r.2.toNat, admitted s.cfg (r.1.toNat + n) = true) →
    ∃ t, chainLines i rs seed s =
      some (digest (rs.flatMap (fun r => rangeBytes s.mem r.1.toNat r.2.toNat)) seed, t)

/-- R172: the parallel driver, run on one engine, gives the digest of the whole range with seed 0 for every worker count of
at least 1, with either fold. The driver as a function on one engine is the model's form of it (assumption 18). -/
def Obligations.ParallelDigestEqualsPlain : Prop :=
  ∀ (i : Instr) (k : Kernel) (ptr len workers : Nat) (s : State),
    kernelOf s.cfg.level i = some k → KernelReady k s → (blockBytes k = 0 ∨ s.cfg.cfgBe = s.cfg.platBe) →
    s.cfg.aw ≤ 64 → len < 2 ^ 64 → 1 ≤ workers → (∀ n < len, admitted s.cfg (ptr + n) = true) →
    (∃ t, pdigestLines i ptr len workers s = some (digest (rangeBytes s.mem ptr len) 0, t)) ∧
    ∃ t, pdigestHeadLines i ptr len workers s = some (digest (rangeBytes s.mem ptr len) 0, t)
end

