-- ==== Sys2Proof/Laws/Bits.lean ====
section
/-! SUPPORT. Bits of the status registers, bytes of assembled words, and the reads of a command that runs without a
hazard. -/

namespace Sys2Proof.Machine

/-- The bits of a flag placed at bit `k`. -/
theorem flagAt_getLsbD (k i : Nat) (b : Bool) (hk : k < 32) : (flagAt k b).getLsbD i = (decide (i = k) && b) := by
  simp only [flagAt, BitVec.getLsbD_shiftLeft, BitVec.getLsbD_setWidth, BitVec.getLsbD_ofBool]
  by_cases h : i = k
  · subst h; simp [hk]
  · by_cases h2 : i < k
    · simp [h, h2]
    · have : i - k ≠ 0 := by omega
      simp [h, this]

/-- A byte placed at byte `k` of a word, bit by bit. -/
theorem getLsbD_byteAt (b : Byte) (k i : Nat) (hk : k < 4) :
    (b.setWidth 32 <<< (8 * k) : Word).getLsbD i = (decide (8 * k ≤ i) && b.getLsbD (i - 8 * k)) := by
  simp only [BitVec.getLsbD_shiftLeft, BitVec.getLsbD_setWidth]
  by_cases h : i < 8 * k
  · simp [h]
  · by_cases h2 : i - 8 * k < 8
    · have h3 : i < 32 := by omega
      have h4 : i - 8 * k < 32 := by omega
      have h5 : 8 * k ≤ i := by omega
      simp [h, h3, h4, h5]
    · rw [BitVec.getLsbD_of_ge b _ (by omega)]
      simp

/-- The bytes of a word put together from four bytes, lowest first. -/
theorem byteOf_ofBytes (b0 b1 b2 b3 : Byte) :
    byteOf 0 (b0.setWidth 32 ||| b1.setWidth 32 <<< 8 ||| b2.setWidth 32 <<< 16 ||| b3.setWidth 32 <<< 24) = b0 ∧
    byteOf 1 (b0.setWidth 32 ||| b1.setWidth 32 <<< 8 ||| b2.setWidth 32 <<< 16 ||| b3.setWidth 32 <<< 24) = b1 ∧
    byteOf 2 (b0.setWidth 32 ||| b1.setWidth 32 <<< 8 ||| b2.setWidth 32 <<< 16 ||| b3.setWidth 32 <<< 24) = b2 ∧
    byteOf 3 (b0.setWidth 32 ||| b1.setWidth 32 <<< 8 ||| b2.setWidth 32 <<< 16 ||| b3.setWidth 32 <<< 24) = b3 := by
  have e (k i : Nat) (hi : i < 8) :
      (b0.setWidth 32 ||| b1.setWidth 32 <<< 8 ||| b2.setWidth 32 <<< 16 ||| b3.setWidth 32 <<< 24 : Word).getLsbD (8 * k + i) =
        ((((decide (k = 0) && b0.getLsbD i) || (decide (k = 1) && b1.getLsbD i)) || (decide (k = 2) && b2.getLsbD i)) ||
          (decide (k = 3) && b3.getLsbD i)) := by
    have h0 := getLsbD_byteAt b0 0 (8 * k + i) (by omega)
    have h1 := getLsbD_byteAt b1 1 (8 * k + i) (by omega)
    have h2 := getLsbD_byteAt b2 2 (8 * k + i) (by omega)
    have h3 := getLsbD_byteAt b3 3 (8 * k + i) (by omega)
    have sel (b : Byte) (m : Nat) : (decide (8 * m ≤ 8 * k + i) && b.getLsbD (8 * k + i - 8 * m)) =
        (decide (k = m) && b.getLsbD i) := by
      by_cases hm : k = m
      · subst hm
        have : 8 * k + i - 8 * k = i := by omega
        simp [this]
      · by_cases hlt : k < m
        · have : ¬ 8 * m ≤ 8 * k + i := by omega
          simp [hm, this]
        · rw [BitVec.getLsbD_of_ge b _ (by omega)]
          simp [hm]
    rw [sel] at h0 h1 h2 h3
    simp only [Nat.mul_zero, BitVec.shiftLeft_zero] at h0
    norm_num only at h1 h2 h3
    simp only [BitVec.getLsbD_or, h0, h1, h2, h3]
  refine ⟨?_, ?_, ?_, ?_⟩ <;>
  · ext i hi
    rw [byteOf, BitVec.getElem_extractLsb', e _ _ hi, ← BitVec.getLsbD_eq_getElem hi]
    simp only [Nat.reduceEqDiff, OfNat.ofNat_ne_zero, OfNat.zero_ne_ofNat, one_ne_zero, zero_ne_one, decide_true,
      decide_false, Bool.true_and, Bool.false_and, Bool.or_false, Bool.false_or]

theorem byteOf_assemble_le (b0 b1 b2 b3 : Byte) :
    byteOf 0 (assemble false b0 b1 b2 b3) = b0 ∧ byteOf 1 (assemble false b0 b1 b2 b3) = b1 ∧
    byteOf 2 (assemble false b0 b1 b2 b3) = b2 ∧ byteOf 3 (assemble false b0 b1 b2 b3) = b3 :=
  byteOf_ofBytes b0 b1 b2 b3

/-- A big-endian port assembles the bytes in the other order (R55). -/
theorem assemble_be (b0 b1 b2 b3 : Byte) : assemble true b0 b1 b2 b3 = assemble false b3 b2 b1 b0 := by
  show b0.setWidth 32 <<< 24 ||| b1.setWidth 32 <<< 16 ||| b2.setWidth 32 <<< 8 ||| b3.setWidth 32 =
    b3.setWidth 32 ||| b2.setWidth 32 <<< 8 ||| b1.setWidth 32 <<< 16 ||| b0.setWidth 32 <<< 24
  generalize (b0.setWidth 32 <<< 24 : Word) = x0
  generalize (b1.setWidth 32 <<< 16 : Word) = x1
  generalize (b2.setWidth 32 <<< 8 : Word) = x2
  generalize (b3.setWidth 32 : Word) = x3
  rw [BitVec.or_comm, BitVec.or_comm (x0 ||| x1) x2, BitVec.or_comm x0 x1, ← BitVec.or_assoc, ← BitVec.or_assoc]

/-- `bswap32` reverses the bytes (R41). -/
theorem bswap32_assemble (b0 b1 b2 b3 : Byte) : bswap32 (assemble false b0 b1 b2 b3) = assemble false b3 b2 b1 b0 := by
  obtain ⟨h0, h1, h2, h3⟩ := byteOf_assemble_le b0 b1 b2 b3
  rw [bswap32, h0, h1, h2, h3]
  rfl

/-- A normalised word of the range (R56): its bytes in address order when the byte-order flag is right, reversed when it
is wrong. -/
theorem normWord_assemble (c : Config) (b0 b1 b2 b3 : Byte) :
    normWord c (assemble c.platBe b0 b1 b2 b3) =
      if c.cfgBe = c.platBe then assemble false b0 b1 b2 b3 else assemble false b3 b2 b1 b0 := by
  unfold normWord
  cases c.cfgBe <;> cases c.platBe <;> simp [assemble_be, bswap32_assemble]

/-- A one-byte read of a command without contested bytes (R53, R54). -/
theorem memRead1_clean {s : State} {j : DigestJob} (h : j.stale = []) (a : Nat) :
    memRead1 s j a = if admitted s.cfg a then .ok (memRead s.mem a) else .error a := by
  simp [memRead1, byteSeen, h]

/-- A normalised word of a range whose four bytes are admitted and uncontested. -/
theorem fetchWord_clean {s : State} {j : DigestJob} (h : j.stale = []) {a : Nat}
    (ha : ∀ k < 4, admitted s.cfg (a + k) = true) :
    fetchWord s j a = .ok (if s.cfg.cfgBe = s.cfg.platBe
      then assemble false (memRead s.mem a) (memRead s.mem (a + 1)) (memRead s.mem (a + 2)) (memRead s.mem (a + 3))
      else assemble false (memRead s.mem (a + 3)) (memRead s.mem (a + 2)) (memRead s.mem (a + 1)) (memRead s.mem a)) := by
  have h0 := ha 0 (by omega)
  have h1 := ha 1 (by omega)
  have h2 := ha 2 (by omega)
  have h3 := ha 3 (by omega)
  rw [Nat.add_zero] at h0
  simp only [fetchWord, memRead4, memRead1_clean h, h0, h1, h2, h3, if_true, bind, Except.bind, pure, Except.pure,
    normWord_assemble]

/-- A word read faults at the lowest of its four addresses that is not admitted (R53). -/
theorem fetchWord_fault {s : State} {j : DigestJob} {a n : Nat} (hn : n < 4) (hbad : admitted s.cfg (a + n) = false)
    (hok : ∀ k < n, admitted s.cfg (a + k) = true) : fetchWord s j a = .error (a + n) := by
  have h0 := hok 0
  have h1 := hok 1
  have h2 := hok 2
  rw [Nat.add_zero] at h0
  rcases (by omega : n = 0 ∨ n = 1 ∨ n = 2 ∨ n = 3) with rfl | rfl | rfl | rfl
  · rw [Nat.add_zero] at hbad
    simp [fetchWord, memRead4, memRead1, hbad, bind, Except.bind]
  · simp [fetchWord, memRead4, memRead1, hbad, h0, bind, Except.bind]
  · simp [fetchWord, memRead4, memRead1, hbad, h0, h1, bind, Except.bind]
  · simp [fetchWord, memRead4, memRead1, hbad, h0, h1, h2, bind, Except.bind]

/-- Table reads of a command that no TBLINIT races with are the entries (R64). -/
theorem tableSeen_clean {s : State} {j : DigestJob} (h : j.tainted = false) (r : Nat) (i : Byte) :
    tableSeen s j r i = tableEntry s.table r i := by
  simp [tableSeen, h]

end Sys2Proof.Machine
end

