-- ==== Sys2Proof/Laws/Memory.lean ====
section
/-! SUPPORT. Data memory: a read after a write, and the canonical form. -/

namespace Sys2Proof.Machine

theorem memRead_memCons (a : Nat) (b : Byte) (m : List Host.Cell) (x : Nat) :
    memRead (memCons a b m) x = if a = x then (if b = memDefault then memRead m x else b) else memRead m x := by
  unfold memCons
  split <;> simp_all [memRead]

/-- An address below every listed address is not listed. -/
theorem memRead_below {m : List Host.Cell} {lo a : Nat} (h : memWfFrom lo m = true) (ha : a < lo) :
    memRead m a = memDefault := by
  induction m generalizing lo with
  | nil => rfl
  | cons c m ih =>
    obtain ⟨k, v⟩ := c
    simp only [memWfFrom, Bool.and_eq_true, decide_eq_true_eq] at h
    obtain ⟨⟨h1, -⟩, h3⟩ := h
    simp only [memRead]
    rw [if_neg (by omega)]
    exact ih h3 (by omega)

theorem memWfFrom_mono {m : List Host.Cell} {lo lo' : Nat} (h : memWfFrom lo m = true) (hl : lo' ≤ lo) :
    memWfFrom lo' m = true := by
  cases m with
  | nil => rfl
  | cons c m =>
    obtain ⟨k, v⟩ := c
    simp only [memWfFrom, Bool.and_eq_true, decide_eq_true_eq] at h ⊢
    exact ⟨⟨by omega, h.1.2⟩, h.2⟩

theorem memCons_wf {a lo : Nat} {b : Byte} {m : List Host.Cell} (h : memWfFrom (a + 1) m = true) (ha : lo ≤ a) :
    memWfFrom lo (memCons a b m) = true := by
  unfold memCons
  split
  · exact memWfFrom_mono h (by omega)
  · simp_all [memWfFrom]

theorem memWrite_wfFrom {m : List Host.Cell} {lo a : Nat} {b : Byte} (h : memWfFrom lo m = true) (ha : lo ≤ a) :
    memWfFrom lo (memWrite m a b) = true := by
  induction m generalizing lo with
  | nil => exact memCons_wf rfl ha
  | cons c m ih =>
    obtain ⟨k, v⟩ := c
    simp only [memWfFrom, Bool.and_eq_true, decide_eq_true_eq] at h
    obtain ⟨⟨h1, h2⟩, h3⟩ := h
    simp only [memWrite]
    split
    · exact memCons_wf (by simp [memWfFrom, h2, h3]; omega) ha
    · split
      · exact memCons_wf (by subst_vars; exact h3) ha
      · simp only [memWfFrom, Bool.and_eq_true, decide_eq_true_eq]
        exact ⟨⟨h1, h2⟩, ih h3 (by omega)⟩

/-- Every write keeps the canonical form. -/
theorem memWrite_wf {m : List Host.Cell} (h : Memory.wf m = true) (a : Nat) (b : Byte) :
    Memory.wf (memWrite m a b) = true := memWrite_wfFrom h (Nat.zero_le a)

/-- The memory of the reset state is in canonical form. -/
theorem reset_memory_wf : Memory.wf State.reset.mem = true := rfl

/-- The byte written is read back, and every other byte is as before. -/
theorem memRead_memWrite {m : List Host.Cell} (h : Memory.wf m = true) (a : Nat) (b : Byte) (x : Nat) :
    memRead (memWrite m a b) x = if a = x then b else memRead m x := by
  have key : ∀ (m : List Host.Cell) (lo : Nat), memWfFrom lo m = true →
      memRead (memWrite m a b) x = if a = x then b else memRead m x := by
    intro m
    induction m with
    | nil =>
      intro lo _
      simp only [memWrite, memRead_memCons, memRead]
      split <;> simp_all
    | cons c m ih =>
      intro lo h
      obtain ⟨k, v⟩ := c
      simp only [memWfFrom, Bool.and_eq_true, decide_eq_true_eq] at h
      obtain ⟨⟨-, -⟩, h3⟩ := h
      simp only [memWrite]
      split
      · rename_i hak
        rw [memRead_memCons]
        split
        · subst_vars
          split
          · rename_i hb
            have : memRead ((k, v) :: m) x = memDefault := by
              simp only [memRead]
              rw [if_neg (by omega)]
              exact memRead_below h3 (by omega)
            rw [this, hb]
          · rfl
        · rfl
      · split
        · subst_vars
          rw [memRead_memCons]
          split
          · subst_vars
            split
            · rename_i hb
              rw [memRead_below h3 (by omega), hb]
            · rfl
          · simp_all [memRead]
        · simp only [memRead]
          split
          · subst_vars
            rw [if_neg (by omega)]
          · exact ih (k + 1) h3
  exact key m 0 h

/-- A write lists no address but its own and those listed before. -/
theorem memWrite_mem {m : List Host.Cell} {a : Nat} {b : Byte} {c : Host.Cell} (h : c ∈ memWrite m a b) :
    c = (a, b) ∨ c ∈ m := by
  induction m with
  | nil =>
    simp only [memWrite, memCons] at h
    split at h <;> simp_all
  | cons d m ih =>
    obtain ⟨k, v⟩ := d
    simp only [memWrite, memCons] at h
    split at h
    · split at h <;> simp_all
    · split at h
      · split at h
        · exact .inr (List.mem_cons_of_mem _ h)
        · rcases List.mem_cons.1 h with h | h
          · exact .inl h
          · exact .inr (List.mem_cons_of_mem _ h)
      · rcases List.mem_cons.1 h with h | h
        · exact .inr (by simp [h])
        · rcases ih h with h | h
          · exact .inl h
          · exact .inr (List.mem_cons_of_mem _ h)

end Sys2Proof.Machine
end

