-- ==== Sys2Proof/Laws/PerInstr.lean ====
section
/-! SUPPORT. Per-instruction laws of the encoding: what holds of every command as syntax. -/

namespace Sys2Proof.Laws.Encoding

/-- The command is well formed, its word has format C (R75), and decoding its word gives it back (R77). -/
def Statement (i : Instr) : Prop :=
  i.wf = true ∧ formatC (encode i) = true ∧ decode (encode i) = .ok i

theorem tblinit : Statement .tblinit := ⟨rfl, by decide, by rfl⟩

theorem digestBit : Statement .digestBit := ⟨rfl, by decide, by rfl⟩

theorem digestHalf : Statement .digestHalf := ⟨rfl, by decide, by rfl⟩

theorem digestTl1 : Statement .digestTl1 := ⟨rfl, by decide, by rfl⟩

theorem digestTl2 : Statement .digestTl2 := ⟨rfl, by decide, by rfl⟩

theorem digestB1 : Statement .digestB1 := ⟨rfl, by decide, by rfl⟩

theorem digestS4 : Statement .digestS4 := ⟨rfl, by decide, by rfl⟩

theorem digestS8 : Statement .digestS8 := ⟨rfl, by decide, by rfl⟩

theorem digestS16 : Statement .digestS16 := ⟨rfl, by decide, by rfl⟩

theorem digestS16p : Statement .digestS16p := ⟨rfl, by decide, by rfl⟩

theorem digestFast : Statement .digestFast := ⟨rfl, by decide, by rfl⟩

theorem combine : Statement .combine := ⟨rfl, by decide, by rfl⟩

end Sys2Proof.Laws.Encoding
end

