-- ==== Sys2Proof/Laws/State.lean ====
section
/-! SUPPORT. One lemma per field per update, so that no later proof unfolds a record update. -/

namespace Sys2Proof.Machine

variable (s : State)

/-! ### `mapEng` -/

@[simp] theorem mapEng_cfg (f : Engine → Engine) : (mapEng f s).cfg = s.cfg := rfl
@[simp] theorem mapEng_eng (f : Engine → Engine) : (mapEng f s).eng = f s.eng := rfl
@[simp] theorem mapEng_before (f : Engine → Engine) : (mapEng f s).before = s.before := rfl
@[simp] theorem mapEng_after (f : Engine → Engine) : (mapEng f s).after = s.after := rfl
@[simp] theorem mapEng_table (f : Engine → Engine) : (mapEng f s).table = s.table := rfl
@[simp] theorem mapEng_tvalid (f : Engine → Engine) : (mapEng f s).tvalid = s.tvalid := rfl
@[simp] theorem mapEng_mem (f : Engine → Engine) : (mapEng f s).mem = s.mem := rfl
@[simp] theorem mapEng_pending (f : Engine → Engine) : (mapEng f s).pending = s.pending := rfl
@[simp] theorem mapEng_rdata (f : Engine → Engine) : (mapEng f s).rdata = s.rdata := rfl
@[simp] theorem mapEng_draws (f : Engine → Engine) : (mapEng f s).draws = s.draws := rfl
@[simp] theorem mapEng_racy (f : Engine → Engine) : (mapEng f s).racy = s.racy := rfl

/-! ### `clearDone` -/

@[simp] theorem clearDone_cfg : (clearDone s).cfg = s.cfg := rfl
@[simp] theorem clearDone_eng : (clearDone s).eng = { s.eng with done := false } := rfl
@[simp] theorem clearDone_before : (clearDone s).before = s.before := rfl
@[simp] theorem clearDone_after : (clearDone s).after = s.after := rfl
@[simp] theorem clearDone_table : (clearDone s).table = s.table := rfl
@[simp] theorem clearDone_tvalid : (clearDone s).tvalid = s.tvalid := rfl
@[simp] theorem clearDone_mem : (clearDone s).mem = s.mem := rfl
@[simp] theorem clearDone_pending : (clearDone s).pending = s.pending := rfl
@[simp] theorem clearDone_rdata : (clearDone s).rdata = s.rdata := rfl
@[simp] theorem clearDone_draws : (clearDone s).draws = s.draws := rfl
@[simp] theorem clearDone_racy : (clearDone s).racy = s.racy := rfl

/-! ### `setBusy` -/

@[simp] theorem setBusy_cfg (job : Job) : (setBusy job s).cfg = s.cfg := rfl
@[simp] theorem setBusy_eng (job : Job) : (setBusy job s).eng = { s.eng with ctrl := .busy job } := rfl
@[simp] theorem setBusy_before (job : Job) : (setBusy job s).before = s.before := rfl
@[simp] theorem setBusy_after (job : Job) : (setBusy job s).after = s.after := rfl
@[simp] theorem setBusy_table (job : Job) : (setBusy job s).table = s.table := rfl
@[simp] theorem setBusy_tvalid (job : Job) : (setBusy job s).tvalid = s.tvalid := rfl
@[simp] theorem setBusy_mem (job : Job) : (setBusy job s).mem = s.mem := rfl
@[simp] theorem setBusy_pending (job : Job) : (setBusy job s).pending = s.pending := rfl
@[simp] theorem setBusy_rdata (job : Job) : (setBusy job s).rdata = s.rdata := rfl
@[simp] theorem setBusy_draws (job : Job) : (setBusy job s).draws = s.draws := rfl
@[simp] theorem setBusy_racy (job : Job) : (setBusy job s).racy = s.racy := rfl

/-! ### `raiseError` -/

@[simp] theorem raiseError_cfg (err : EngineError) (info : DWord) : (raiseError err info s).cfg = s.cfg := rfl
@[simp] theorem raiseError_before (err : EngineError) (info : DWord) : (raiseError err info s).before = s.before := rfl
@[simp] theorem raiseError_after (err : EngineError) (info : DWord) : (raiseError err info s).after = s.after := rfl
@[simp] theorem raiseError_table (err : EngineError) (info : DWord) : (raiseError err info s).table = s.table := rfl
@[simp] theorem raiseError_tvalid (err : EngineError) (info : DWord) : (raiseError err info s).tvalid = s.tvalid := rfl
@[simp] theorem raiseError_mem (err : EngineError) (info : DWord) : (raiseError err info s).mem = s.mem := rfl
@[simp] theorem raiseError_pending (err : EngineError) (info : DWord) : (raiseError err info s).pending = s.pending := rfl
@[simp] theorem raiseError_rdata (err : EngineError) (info : DWord) : (raiseError err info s).rdata = s.rdata := rfl
@[simp] theorem raiseError_draws (err : EngineError) (info : DWord) : (raiseError err info s).draws = s.draws + 1 := rfl
@[simp] theorem raiseError_racy (err : EngineError) (info : DWord) : (raiseError err info s).racy = s.racy := rfl

/-! ### `complete` -/

@[simp] theorem complete_cfg (r : Word) : (complete r s).cfg = s.cfg := rfl
@[simp] theorem complete_before (r : Word) : (complete r s).before = s.before := rfl
@[simp] theorem complete_after (r : Word) : (complete r s).after = s.after := rfl
@[simp] theorem complete_table (r : Word) : (complete r s).table = s.table := rfl
@[simp] theorem complete_tvalid (r : Word) : (complete r s).tvalid = s.tvalid := rfl
@[simp] theorem complete_mem (r : Word) : (complete r s).mem = s.mem := rfl
@[simp] theorem complete_pending (r : Word) : (complete r s).pending = s.pending := rfl
@[simp] theorem complete_rdata (r : Word) : (complete r s).rdata = s.rdata := rfl
@[simp] theorem complete_draws (r : Word) : (complete r s).draws = s.draws + 1 := rfl
@[simp] theorem complete_racy (r : Word) : (complete r s).racy = s.racy := rfl

/-! ### `completeNoResult` -/

@[simp] theorem completeNoResult_cfg : (completeNoResult s).cfg = s.cfg := rfl
@[simp] theorem completeNoResult_before : (completeNoResult s).before = s.before := rfl
@[simp] theorem completeNoResult_after : (completeNoResult s).after = s.after := rfl
@[simp] theorem completeNoResult_table : (completeNoResult s).table = s.table := rfl
@[simp] theorem completeNoResult_tvalid : (completeNoResult s).tvalid = s.tvalid := rfl
@[simp] theorem completeNoResult_mem : (completeNoResult s).mem = s.mem := rfl
@[simp] theorem completeNoResult_pending : (completeNoResult s).pending = s.pending := rfl
@[simp] theorem completeNoResult_rdata : (completeNoResult s).rdata = s.rdata := rfl
@[simp] theorem completeNoResult_draws : (completeNoResult s).draws = s.draws + 1 := rfl
@[simp] theorem completeNoResult_racy : (completeNoResult s).racy = s.racy := rfl

/-! ### `hostRead` -/

@[simp] theorem hostRead_cfg (r : HostReg) : (hostRead r s).cfg = s.cfg := rfl
@[simp] theorem hostRead_eng (r : HostReg) : (hostRead r s).eng = s.eng := rfl
@[simp] theorem hostRead_before (r : HostReg) : (hostRead r s).before = s.before := rfl
@[simp] theorem hostRead_after (r : HostReg) : (hostRead r s).after = s.after := rfl
@[simp] theorem hostRead_table (r : HostReg) : (hostRead r s).table = s.table := rfl
@[simp] theorem hostRead_tvalid (r : HostReg) : (hostRead r s).tvalid = s.tvalid := rfl
@[simp] theorem hostRead_mem (r : HostReg) : (hostRead r s).mem = s.mem := rfl
@[simp] theorem hostRead_pending (r : HostReg) : (hostRead r s).pending = s.pending := rfl
@[simp] theorem hostRead_rdata (r : HostReg) : (hostRead r s).rdata = hostReadValue r s := rfl
@[simp] theorem hostRead_draws (r : HostReg) : (hostRead r s).draws = s.draws + 1 := rfl
@[simp] theorem hostRead_racy (r : HostReg) : (hostRead r s).racy = s.racy := rfl

/-! ### `resetAll` -/

@[simp] theorem resetAll_cfg : (resetAll s).cfg = s.cfg := rfl
@[simp] theorem resetAll_eng : (resetAll s).eng = Engine.reset := rfl
@[simp] theorem resetAll_before : (resetAll s).before = s.before.map (fun _ => Engine.reset) := rfl
@[simp] theorem resetAll_after : (resetAll s).after = s.after.map (fun _ => Engine.reset) := rfl
@[simp] theorem resetAll_table : (resetAll s).table = blankTable s.cfg := rfl
@[simp] theorem resetAll_tvalid : (resetAll s).tvalid = false := rfl
@[simp] theorem resetAll_mem : (resetAll s).mem = s.mem := rfl
@[simp] theorem resetAll_pending : (resetAll s).pending = s.pending := rfl
@[simp] theorem resetAll_rdata : (resetAll s).rdata = s.rdata := rfl
@[simp] theorem resetAll_draws : (resetAll s).draws = s.draws := rfl
@[simp] theorem resetAll_racy : (resetAll s).racy = s.racy := rfl

/-! ### The engine after `raiseError` -/

@[simp] theorem raiseError_eng_opa (err : EngineError) (info : DWord) : (raiseError err info s).eng.opa = s.eng.opa := rfl
@[simp] theorem raiseError_eng_opb (err : EngineError) (info : DWord) : (raiseError err info s).eng.opb = s.eng.opb := rfl
@[simp] theorem raiseError_eng_ptr (err : EngineError) (info : DWord) : (raiseError err info s).eng.ptr = s.eng.ptr := rfl
@[simp] theorem raiseError_eng_len (err : EngineError) (info : DWord) : (raiseError err info s).eng.len = s.eng.len := rfl
@[simp] theorem raiseError_eng_res (err : EngineError) (info : DWord) : (raiseError err info s).eng.res = Config.freeWord s.draws .res := rfl
@[simp] theorem raiseError_eng_ctrl (err : EngineError) (info : DWord) : (raiseError err info s).eng.ctrl = .error := rfl
@[simp] theorem raiseError_eng_done (err : EngineError) (info : DWord) : (raiseError err info s).eng.done = false := rfl
@[simp] theorem raiseError_eng_ecode (err : EngineError) (info : DWord) : (raiseError err info s).eng.ecode = errorCode err := rfl
@[simp] theorem raiseError_eng_einfo (err : EngineError) (info : DWord) : (raiseError err info s).eng.einfo = info := rfl
@[simp] theorem raiseError_eng_op0_length (err : EngineError) (info : DWord) : (raiseError err info s).eng.op0.length = 32 := by
  simp [raiseError, scrubOperators, freeOperator]
@[simp] theorem raiseError_eng_op1_length (err : EngineError) (info : DWord) : (raiseError err info s).eng.op1.length = 32 := by
  simp [raiseError, scrubOperators, freeOperator]

/-! ### The engine after `complete` -/

@[simp] theorem complete_eng_opa (r : Word) : (complete r s).eng.opa = s.eng.opa := rfl
@[simp] theorem complete_eng_opb (r : Word) : (complete r s).eng.opb = s.eng.opb := rfl
@[simp] theorem complete_eng_ptr (r : Word) : (complete r s).eng.ptr = s.eng.ptr := rfl
@[simp] theorem complete_eng_len (r : Word) : (complete r s).eng.len = s.eng.len := rfl
@[simp] theorem complete_eng_res (r : Word) : (complete r s).eng.res = r := rfl
@[simp] theorem complete_eng_ctrl (r : Word) : (complete r s).eng.ctrl = .idle := rfl
@[simp] theorem complete_eng_done (r : Word) : (complete r s).eng.done = true := rfl
@[simp] theorem complete_eng_ecode (r : Word) : (complete r s).eng.ecode = s.eng.ecode := rfl
@[simp] theorem complete_eng_einfo (r : Word) : (complete r s).eng.einfo = s.eng.einfo := rfl
@[simp] theorem complete_eng_op0 (r : Word) : (complete r s).eng.op0 = s.eng.op0 := rfl
@[simp] theorem complete_eng_op1 (r : Word) : (complete r s).eng.op1 = s.eng.op1 := rfl
@[simp] theorem complete_eng_sel (r : Word) : (complete r s).eng.sel = s.eng.sel := rfl

/-! ### The engine after `completeNoResult` -/

@[simp] theorem completeNoResult_eng_opa : (completeNoResult s).eng.opa = s.eng.opa := rfl
@[simp] theorem completeNoResult_eng_opb : (completeNoResult s).eng.opb = s.eng.opb := rfl
@[simp] theorem completeNoResult_eng_ptr : (completeNoResult s).eng.ptr = s.eng.ptr := rfl
@[simp] theorem completeNoResult_eng_len : (completeNoResult s).eng.len = s.eng.len := rfl
@[simp] theorem completeNoResult_eng_res : (completeNoResult s).eng.res = s.eng.res := rfl
@[simp] theorem completeNoResult_eng_ctrl : (completeNoResult s).eng.ctrl = .idle := rfl
@[simp] theorem completeNoResult_eng_done : (completeNoResult s).eng.done = true := rfl
@[simp] theorem completeNoResult_eng_ecode : (completeNoResult s).eng.ecode = s.eng.ecode := rfl
@[simp] theorem completeNoResult_eng_einfo : (completeNoResult s).eng.einfo = s.eng.einfo := rfl
@[simp] theorem completeNoResult_eng_op0 : (completeNoResult s).eng.op0 = s.eng.op0 := rfl
@[simp] theorem completeNoResult_eng_op1 : (completeNoResult s).eng.op1 = s.eng.op1 := rfl
@[simp] theorem completeNoResult_eng_sel : (completeNoResult s).eng.sel = s.eng.sel := rfl

/-! ### `completeCombine` -/

@[simp] theorem completeCombine_cfg (r : Word) : (completeCombine r s).cfg = s.cfg := rfl
@[simp] theorem completeCombine_before (r : Word) : (completeCombine r s).before = s.before := rfl
@[simp] theorem completeCombine_after (r : Word) : (completeCombine r s).after = s.after := rfl
@[simp] theorem completeCombine_table (r : Word) : (completeCombine r s).table = s.table := rfl
@[simp] theorem completeCombine_tvalid (r : Word) : (completeCombine r s).tvalid = s.tvalid := rfl
@[simp] theorem completeCombine_mem (r : Word) : (completeCombine r s).mem = s.mem := rfl
@[simp] theorem completeCombine_pending (r : Word) : (completeCombine r s).pending = s.pending := rfl
@[simp] theorem completeCombine_rdata (r : Word) : (completeCombine r s).rdata = s.rdata := rfl
@[simp] theorem completeCombine_racy (r : Word) : (completeCombine r s).racy = s.racy := rfl
@[simp] theorem completeCombine_draws (r : Word) : (completeCombine r s).draws = s.draws + 1 := rfl
@[simp] theorem completeCombine_eng_opa (r : Word) : (completeCombine r s).eng.opa = s.eng.opa := rfl
@[simp] theorem completeCombine_eng_opb (r : Word) : (completeCombine r s).eng.opb = s.eng.opb := rfl
@[simp] theorem completeCombine_eng_ptr (r : Word) : (completeCombine r s).eng.ptr = s.eng.ptr := rfl
@[simp] theorem completeCombine_eng_len (r : Word) : (completeCombine r s).eng.len = s.eng.len := rfl
@[simp] theorem completeCombine_eng_ecode (r : Word) : (completeCombine r s).eng.ecode = s.eng.ecode := rfl
@[simp] theorem completeCombine_eng_einfo (r : Word) : (completeCombine r s).eng.einfo = s.eng.einfo := rfl
@[simp] theorem completeCombine_eng_res (r : Word) : (completeCombine r s).eng.res = r := rfl
@[simp] theorem completeCombine_eng_ctrl (r : Word) : (completeCombine r s).eng.ctrl = .idle := rfl
@[simp] theorem completeCombine_eng_done (r : Word) : (completeCombine r s).eng.done = true := rfl
@[simp] theorem completeCombine_eng_op0_length (r : Word) : (completeCombine r s).eng.op0.length = 32 := by
  simp [completeCombine, scrubOperators, freeOperator]
@[simp] theorem completeCombine_eng_op1_length (r : Word) : (completeCombine r s).eng.op1.length = 32 := by
  simp [completeCombine, scrubOperators, freeOperator]

/-! ### `scrub` keeps every register that is not a working register -/

variable (n : Nat) (e : Engine)

@[simp] theorem scrub_opa : (scrub n e).opa = e.opa := rfl
@[simp] theorem scrub_opb : (scrub n e).opb = e.opb := rfl
@[simp] theorem scrub_ptr : (scrub n e).ptr = e.ptr := rfl
@[simp] theorem scrub_len : (scrub n e).len = e.len := rfl
@[simp] theorem scrub_res : (scrub n e).res = e.res := rfl
@[simp] theorem scrub_ctrl : (scrub n e).ctrl = e.ctrl := rfl
@[simp] theorem scrub_done : (scrub n e).done = e.done := rfl
@[simp] theorem scrub_ecode : (scrub n e).ecode = e.ecode := rfl
@[simp] theorem scrub_einfo : (scrub n e).einfo = e.einfo := rfl
@[simp] theorem scrub_op0 : (scrub n e).op0 = e.op0 := rfl
@[simp] theorem scrub_op1 : (scrub n e).op1 = e.op1 := rfl
@[simp] theorem scrub_sel : (scrub n e).sel = e.sel := rfl
@[simp] theorem scrubOperators_opa : (scrubOperators n e).opa = e.opa := rfl
@[simp] theorem scrubOperators_opb : (scrubOperators n e).opb = e.opb := rfl
@[simp] theorem scrubOperators_ptr : (scrubOperators n e).ptr = e.ptr := rfl
@[simp] theorem scrubOperators_len : (scrubOperators n e).len = e.len := rfl
@[simp] theorem scrubOperators_res : (scrubOperators n e).res = e.res := rfl
@[simp] theorem scrubOperators_ctrl : (scrubOperators n e).ctrl = e.ctrl := rfl
@[simp] theorem scrubOperators_done : (scrubOperators n e).done = e.done := rfl
@[simp] theorem scrubOperators_ecode : (scrubOperators n e).ecode = e.ecode := rfl
@[simp] theorem scrubOperators_einfo : (scrubOperators n e).einfo = e.einfo := rfl
@[simp] theorem scrubOperators_acc : (scrubOperators n e).acc = e.acc := rfl
@[simp] theorem scrubOperators_va : (scrubOperators n e).va = e.va := rfl
@[simp] theorem scrubOperators_vb : (scrubOperators n e).vb = e.vb := rfl
@[simp] theorem scrubOperators_nb : (scrubOperators n e).nb = e.nb := rfl
@[simp] theorem scrubOperators_ksel : (scrubOperators n e).ksel = e.ksel := rfl
@[simp] theorem scrubOperators_pos : (scrubOperators n e).pos = e.pos := rfl
@[simp] theorem scrubOperators_rem : (scrubOperators n e).rem = e.rem := rfl

/-- Scrubbing forgets the working registers: it gives the same engine whatever they held. -/
theorem scrub_congr {e e' : Engine} (n : Nat)
    (h : e.opa = e'.opa ∧ e.opb = e'.opb ∧ e.ptr = e'.ptr ∧ e.len = e'.len ∧ e.res = e'.res ∧ e.ctrl = e'.ctrl ∧
      e.done = e'.done ∧ e.ecode = e'.ecode ∧ e.einfo = e'.einfo ∧ e.op0 = e'.op0 ∧ e.op1 = e'.op1 ∧ e.sel = e'.sel) :
    scrub n e = scrub n e' := by
  obtain ⟨h1, h2, h3, h4, h5, h6, h7, h8, h9, h10, h11, h12⟩ := h
  simp only [scrub, h1, h2, h3, h4, h5, h6, h7, h8, h9, h10, h11, h12]

/-- An error, a completion and what follows them do not depend on a `DONE` cleared before. -/
theorem raiseError_clearDone (err : EngineError) (info : DWord) :
    raiseError err info (clearDone s) = raiseError err info s := rfl

/-- A reset engine is idle. -/
theorem resetAll_eng_ctrl : (resetAll s).eng.ctrl = .idle := rfl

end Sys2Proof.Machine
end

