-- ==== Sys2Proof/Laws/Run.lean ====
section
/-! SUPPORT. What each shared operation can do, said once: the commands over `issueWhole`, the inversion of a tick, runs
of ticks, the focus on an engine, the inversion of a step. -/

namespace Sys2Proof.Machine

open Host (Outcome)

/-! ### Commands -/

/-- Every command is acceptance in `IDLE` and then a run to its end. -/
theorem exec_eq (i : Instr) (s : State) : exec i s = issueWhole (beginCommand i) s := by
  cases i <;> rfl

theorem whenIdle_of_idle {s : State} (f : State → State) (h : s.eng.ctrl = .idle) : whenIdle f s = f s := if_pos h

theorem whenIdle_of_not_idle {s : State} (f : State → State) (h : s.eng.ctrl ≠ .idle) : whenIdle f s = s := if_neg h

/-- A DIGEST command is accepted with the kernel it runs. -/
theorem beginCommand_digest {i : Instr} {s : State} {k : Kernel} (h : kernelOf s.cfg.level i = some k) :
    beginCommand i s = acceptDigest k (encode i) s := by
  cases i <;> cases h <;> rfl

/-- What acceptance of a DIGEST command can do. -/
theorem acceptDigest_cases (k : Kernel) (w : Word) (s : State) :
    (rowsOf s.cfg.level < rowsNeeded k ∧ acceptDigest k w s = raiseError .kernelUnavailable (w.setWidth 64) s) ∨
    (rowsNeeded k ≤ rowsOf s.cfg.level ∧ 0 < rowsNeeded k ∧ s.tvalid = false ∧
      acceptDigest k w s = raiseError .tablesNotBuilt (w.setWidth 64) s) ∨
    (ChecksPass k s ∧ acceptDigest k w s = latchDigest k (clearDone s)) := by
  unfold acceptDigest ChecksPass
  by_cases h1 : rowsOf s.cfg.level < rowsNeeded k
  · exact .inl ⟨h1, if_pos h1⟩
  · right
    by_cases h2 : 0 < rowsNeeded k ∧ s.tvalid = false
    · exact .inl ⟨by omega, h2.1, h2.2, by simp [h1, h2, raiseError_clearDone]⟩
    · refine .inr ⟨⟨by omega, fun h => ?_⟩, by simp [h1, h2]⟩
      cases ht : s.tvalid
      · exact absurd ⟨h, ht⟩ h2
      · rfl

/-! ### One tick -/

/-- What the end of a byte or block step can do. -/
theorem absorb_cases (n : Nat) (r : Except Nat Word) (j : DigestJob) (s : State) :
    (∃ a, r = .error a ∧ absorb n r j s = raiseError .busFault (faultInfo s.draws a) s) ∨
    (∃ c, r = .ok c ∧ absorb n r j s =
      { s with eng := { s.eng with acc := c, pos := s.eng.pos + n, rem := s.eng.rem - BitVec.ofNat 64 n },
               draws := if contested j then s.draws + 1 else s.draws }) := by
  cases r with
  | error a => exact .inl ⟨a, rfl, rfl⟩
  | ok c => exact .inr ⟨c, rfl, rfl⟩

/-- What one step of a DIGEST command can do: complete, fault, or absorb `n` of the bytes that remain. -/
theorem tickDigest_cases (j : DigestJob) (s : State) :
    (s.eng.rem = 0 ∧ tickDigest j s = complete (~~~s.eng.acc) s) ∨
    (∃ n r, s.eng.rem ≠ 0 ∧ 0 < n ∧ n ≤ s.eng.rem.toNat ∧ n ≤ 16 ∧ tickDigest j s = absorb n r j s ∧
      ((n = blockBytes s.eng.ksel ∧ r = takeBlock s j) ∨ (n = 1 ∧ r = takeByte s j))) := by
  unfold tickDigest
  by_cases h0 : s.eng.rem = 0
  · exact .inl ⟨h0, if_pos h0⟩
  · right
    rw [if_neg h0]
    have hpos : 0 < s.eng.rem.toNat := by
      rcases Nat.eq_zero_or_pos s.eng.rem.toNat with h | h
      · exact absurd (BitVec.eq_of_toNat_eq (by simpa using h)) h0
      · exact h
    have h16 : blockBytes s.eng.ksel ≤ 16 := by cases s.eng.ksel <;> decide
    by_cases hb : 0 < blockBytes s.eng.ksel ∧ blockBytes s.eng.ksel ≤ s.eng.rem.toNat
    · exact ⟨_, _, h0, hb.1, hb.2, h16, if_pos hb, .inl ⟨rfl, rfl⟩⟩
    · exact ⟨1, _, h0, Nat.one_pos, hpos, by omega, if_neg hb, .inr ⟨rfl, rfl⟩⟩

/-- What one step of TBLINIT can do. -/
theorem tickTblinit_cases (r : Nat) (s : State) :
    (r < rowsOf s.cfg.level ∧
      tickTblinit r s = setBusy (.tblinit (r + 1)) { s with table := s.table.set r (buildRow s.table r) }) ∨
    (rowsOf s.cfg.level ≤ r ∧ tickTblinit r s = completeNoResult { s with tvalid := true }) := by
  unfold tickTblinit
  by_cases h : r < rowsOf s.cfg.level
  · exact .inl ⟨h, if_pos h⟩
  · exact .inr ⟨by omega, if_neg h⟩

/-- What one step of COMBINE can do. -/
theorem tickCombine_cases (b : Bool) (s : State) :
    (b = false ∧ s.eng.nb = 0 ∧ tickCombine b s = complete s.eng.va s) ∨
    (b = false ∧ s.eng.nb ≠ 0 ∧ tickCombine b s = setBusy (.combine true) (mapEng buildOperators s)) ∨
    (b = true ∧ s.eng.nb = 0 ∧ tickCombine b s = completeCombine (s.eng.va ^^^ s.eng.vb) s) ∨
    (b = true ∧ s.eng.nb ≠ 0 ∧ tickCombine b s = mapEng combineIteration s) := by
  unfold tickCombine
  cases b <;> by_cases h : s.eng.nb = 0#64 <;> simp [h]

@[simp] theorem tick_idle {s : State} (h : s.eng.ctrl = .idle) : tick s = s := by simp [tick, h]

@[simp] theorem tick_error {s : State} (h : s.eng.ctrl = .error) : tick s = s := by simp [tick, h]

theorem tick_digest {s : State} {j : DigestJob} (h : s.eng.ctrl = .busy (.digest j)) : tick s = tickDigest j s := by
  simp [tick, h]

theorem tick_tblinit {s : State} {r : Nat} (h : s.eng.ctrl = .busy (.tblinit r)) : tick s = tickTblinit r s := by
  simp [tick, h]

theorem tick_combine {s : State} {b : Bool} (h : s.eng.ctrl = .busy (.combine b)) : tick s = tickCombine b s := by
  simp [tick, h]

/-- An engine that is not busy takes no step. -/
theorem tick_of_not_busy {s : State} (h : s.eng.isBusy = false) : tick s = s := by
  unfold Engine.isBusy at h
  cases hc : s.eng.ctrl with
  | idle => exact tick_idle hc
  | error => exact tick_error hc
  | busy job => simp [hc] at h

/-! ### Runs of ticks -/

@[simp] theorem ticks_zero (s : State) : ticks 0 s = s := rfl

theorem ticks_of_not_busy {s : State} (h : s.eng.isBusy = false) (n : Nat) : ticks n s = s := by
  cases n with
  | zero => rfl
  | succ n => simp [ticks, h]

/-- A run of ticks is one tick and then the rest, busy or not. -/
theorem ticks_succ (n : Nat) (s : State) : ticks (n + 1) s = ticks n (tick s) := by
  cases h : s.eng.isBusy with
  | true => simp [ticks, h]
  | false => rw [tick_of_not_busy h, ticks_of_not_busy h, ticks_of_not_busy h]

theorem ticks_add (m n : Nat) (s : State) : ticks (m + n) s = ticks n (ticks m s) := by
  induction m generalizing s with
  | zero => simp
  | succ m ih => rw [Nat.succ_add, ticks_succ, ih, ticks_succ]

/-- What a property that every tick keeps says of a run of ticks. -/
theorem ticks_induction {P : State → Prop} (hstep : ∀ s, P s → P (tick s)) (n : Nat) {s : State} (h : P s) :
    P (ticks n s) := by
  induction n generalizing s with
  | zero => exact h
  | succ n ih => rw [ticks_succ]; exact ih (hstep s h)

/-- What a relation to the start that every tick keeps says of a command taken whole. -/
theorem exec_induction {P : State → Prop} {i : Instr} {s : State} (hstep : ∀ u, P u → P (tick u))
    (hbegin : P (beginCommand i s)) (hs : P s) : ∃ t, exec i s = .next t ∧ P t := by
  rw [exec_eq]
  refine ⟨_, rfl, ?_⟩
  unfold whenIdle
  split
  · exact ticks_induction hstep _ hbegin
  · exact hs

/-! ### Engines -/

theorem mem_allEngines_self (s : State) : s.eng ∈ allEngines s := by simp [allEngines]

theorem mem_allEngines_of_other {s : State} {e : Engine} (h : e ∈ otherEngines s) : e ∈ allEngines s := by
  simp only [otherEngines, allEngines, List.mem_append, List.mem_cons] at h ⊢
  tauto

/-- What addressing an engine can do: nothing but move the focus. -/
theorem focus_cases {k : Nat} {s t : State} (h : focus k s = some t) :
    k < (allEngines s).length ∧ allEngines t = allEngines s ∧ t.before.length = k ∧
      t = { s with before := t.before, eng := t.eng, after := t.after } := by
  unfold focus at h
  split at h
  · cases h
  · rename_i e es hd
    cases h
    have hk : k < (allEngines s).length := by
      by_contra hn
      rw [List.drop_eq_nil_of_le (by omega)] at hd
      cases hd
    refine ⟨hk, ?_, ?_, rfl⟩
    · show (allEngines s).take k ++ e :: es = allEngines s
      rw [← hd, List.take_append_drop]
    · simp only [List.length_take]
      omega

/-- Every engine of the block can be addressed. -/
theorem focus_isSome {k : Nat} {s : State} (h : k < (allEngines s).length) : ∃ t, focus k s = some t := by
  unfold focus
  split
  · rename_i hd
    have := List.drop_eq_nil_iff.1 hd
    omega
  · exact ⟨_, rfl⟩

/-- Addressing the engine that is addressed changes nothing. -/
theorem focus_self (s : State) : focus s.before.length s = some s := by
  simp [focus, allEngines]

/-! ### Actions and steps -/

/-- What an action can do when it answers a next state. -/
theorem perform_cases {a : Action} {s t : State} (h : perform a s = .next t) :
    (∃ v i, a = .write .cmd v ∧ decode (v.setWidth 32) = .ok i ∧ exec i s = .next t) ∨
    (∃ v w, a = .write .cmd v ∧ decode (v.setWidth 32) = .error (.illegalCommand w) ∧ t = whenIdle (refuseWord w) s) ∨
    (∃ r v, a = .write r v ∧ r ≠ .cmd ∧ t = hostWrite r v s) ∨
    (∃ w, a = .start w ∧ t = startWord w s) ∨
    (∃ r, a = .read r ∧ t = hostRead r s) ∨
    (a = .tick ∧ t = tick s) ∨
    (∃ x b, a = .store x b ∧ x < 2 ^ s.cfg.aw ∧ t = platformStore x b s) ∨
    (a = .reset ∧ t = resetAll s) := by
  cases a with
  | write r v =>
    by_cases hr : r = .cmd
    · subst hr
      simp only [perform, issueWord] at h
      cases hd : decode (v.setWidth 32) with
      | ok i => rw [hd] at h; exact .inl ⟨v, i, rfl, hd, h⟩
      | error e =>
        obtain ⟨w⟩ := e
        rw [hd] at h
        cases h
        exact .inr (.inl ⟨v, w, rfl, hd, rfl⟩)
    · refine .inr (.inr (.inl ⟨r, v, rfl, hr, ?_⟩))
      cases r <;> first | exact absurd rfl hr | (cases h; rfl)
  | start w => cases h; exact .inr (.inr (.inr (.inl ⟨w, rfl, rfl⟩)))
  | read r => cases h; exact .inr (.inr (.inr (.inr (.inl ⟨r, rfl, rfl⟩))))
  | tick => cases h; exact .inr (.inr (.inr (.inr (.inr (.inl ⟨rfl, rfl⟩)))))
  | store x b =>
    simp only [perform] at h
    split at h
    · cases h; exact .inr (.inr (.inr (.inr (.inr (.inr (.inl ⟨x, b, rfl, ‹_›, rfl⟩))))))
    · cases h
  | reset => cases h; exact .inr (.inr (.inr (.inr (.inr (.inr (.inr ⟨rfl, rfl⟩))))))

/-- What a step can do when it answers a next state. -/
theorem step_cases {s t : State} (h : step s = .next t) :
    (s.pending = [] ∧ t = drain s) ∨
    (∃ e es u, s.pending = e :: es ∧ focus e.inst { s with pending := es } = some u ∧ perform e.act u = .next t) := by
  unfold step performEvent at h
  split at h
  · cases h; exact .inl ⟨‹_›, rfl⟩
  · rename_i e es hp
    split at h
    · exact .inr ⟨e, es, _, hp, ‹_›, h⟩
    · cases h

/-- What the block does when nothing is pending: wait, or take the next step of a busy engine. -/
theorem drain_cases (s : State) :
    ((∀ e ∈ allEngines s, e.isBusy = false) ∧ drain s = s) ∨
    (∃ k u, focus k s = some u ∧ u.eng.isBusy = true ∧ drain s = tick u) := by
  unfold drain
  split
  · rename_i h
    refine .inl ⟨fun e he => ?_, rfl⟩
    have := List.findIdx?_eq_none_iff.1 h e he
    simpa using this
  · rename_i k hk
    obtain ⟨hlt, hb, -⟩ := List.findIdx?_eq_some_iff_getElem.1 hk
    obtain ⟨u, hu⟩ := focus_isSome hlt
    rw [hu]
    refine .inr ⟨k, u, hu, ?_, rfl⟩
    obtain ⟨-, hall, hlen, -⟩ := focus_cases hu
    have : (allEngines s)[k] = u.eng := by
      have h2 : (allEngines u)[k]'(by rw [hall]; exact hlt) = u.eng := by
        simp [allEngines, ← hlen]
      simpa [hall] using h2
    rw [← this]; exact hb

end Sys2Proof.Machine
end

