-- ==== Sys2Proof/Tests/Slice0.lean ====
section
/-! SUPPORT. Tests of the model against the spec's tables and vectors, the smoke tests of the checks, and for every statement
with hypotheses a witness that meets them. -/

namespace Sys2Proof.Tests

open Sys2Proof.Machine

/-! ### Well-formedness: each check refuses a bad term -/

theorem test_wf_suggested : Config.suggested.wf = true := by decide
theorem test_wf_aw_zero : ({ Config.suggested with aw := 0 } : Config).wf = false := by decide
theorem test_wf_aw_65 : ({ Config.suggested with aw := 65 } : Config).wf = false := by decide
theorem test_wf_no_engine : ({ Config.suggested with neng := 0 } : Config).wf = false := by decide
theorem test_wf_prefetch_block_24 : ({ Config.suggested with prefetchBlock := 24 } : Config).wf = false := by decide
theorem test_wf_prefetch_block_0 : ({ Config.suggested with prefetchBlock := 0 } : Config).wf = false := by decide
theorem test_wf_format_high_bit : formatC 0x00000115#32 = false := by decide
theorem test_wf_format_class_3 : formatC 0x00000030#32 = false := by decide
theorem test_wf_store_outside : Action.wf { Config.suggested with aw := 16 } (.store 0x10000 0) = false := by decide
theorem test_wf_store_last : Action.wf { Config.suggested with aw := 16 } (.store 0xFFFF 0) = true := by decide
theorem test_wf_no_such_engine : Event.wf Config.suggested ⟨1, .tick⟩ = false := by decide

/-! ### Decoding: words written out bit by bit from R75 to R77 (CLASS in bits 7:4, FN in bits 3:0) -/

/-- CLASS 0 system, FN 1: TBLINIT. -/
theorem test_decode_system : decode (0#24 ++ 0b0000#4 ++ 0b0001#4) = .ok .tblinit := by decide
/-- CLASS 1 digest, FN 0 and 4: DIGEST.BIT and DIGEST.B1. -/
theorem test_decode_bytewise : decode (0#24 ++ 0b0001#4 ++ 0b0000#4) = .ok .digestBit ∧
    decode (0#24 ++ 0b0001#4 ++ 0b0100#4) = .ok .digestB1 := by decide
/-- CLASS 1 digest, FN 7, 8 and 15: DIGEST.S16, DIGEST.S16P and DIGEST.FAST. -/
theorem test_decode_slicing : decode (0#24 ++ 0b0001#4 ++ 0b0111#4) = .ok .digestS16 ∧
    decode (0#24 ++ 0b0001#4 ++ 0b1000#4) = .ok .digestS16p ∧
    decode (0#24 ++ 0b0001#4 ++ 0b1111#4) = .ok .digestFast := by decide
/-- CLASS 2 combine, FN 0: COMBINE. -/
theorem test_decode_combine : decode (0#24 ++ 0b0010#4 ++ 0b0000#4) = .ok .combine := by decide
/-- The other rows, in the table's own numbering of bits. -/
theorem test_decode_rows : decodeTableWord 32 0x11 = some .digestHalf ∧ decodeTableWord 32 0x12 = some .digestTl1 ∧
    decodeTableWord 32 0x13 = some .digestTl2 ∧ decodeTableWord 32 0x15 = some .digestS4 ∧
    decodeTableWord 32 0x16 = some .digestS8 := by decide
/-- 95_test_vectors.md 2.10: words that are no commands. -/
theorem test_decode_illegal : decode 0x00000000#32 = .error (.illegalCommand 0x00000000#32) ∧
    decode 0x00000019#32 = .error (.illegalCommand 0x00000019#32) ∧
    decode 0x00000021#32 = .error (.illegalCommand 0x00000021#32) ∧
    decode 0x00000115#32 = .error (.illegalCommand 0x00000115#32) ∧
    decode 0x80000010#32 = .error (.illegalCommand 0x80000010#32) := by decide
/-- No two rows of the opcode map overlap: no word matches both. -/
theorem test_rows_distinct : opcodeRows.Pairwise (fun a b => a.pattern ≠ b.pattern) := by decide

/-! ### Small states -/

/-- A configuration with a table level. -/
def lvl (l : TableLevel) : Config := { Config.suggested with level := l }

/-- A block whose tables are built. -/
def ready (c : Config) : State := { State.resetWith c with table := builtTable c, tvalid := true }

/-- A block with bytes in data memory from address 1 and operands set. -/
def load (s : State) (bytes : List Byte) (ptr len : DWord) (seed : Word) : State :=
  { s with mem := bytes.zipIdx.map (fun b => (b.2 + 1, b.1)), eng := { s.eng with ptr := ptr, len := len, opa := seed } }

/-- "Linux" (95_test_vectors.md S1). -/
def linux : List Byte := [0x4C, 0x69, 0x6E, 0x75, 0x78]

/-- "0123456789ABCDEF" (95_test_vectors.md 2.1). -/
def digits : List Byte :=
  [0x30, 0x31, 0x32, 0x33, 0x34, 0x35, 0x36, 0x37, 0x38, 0x39, 0x41, 0x42, 0x43, 0x44, 0x45, 0x46]

/-- `RES` after an outcome, or 0 when the command did not complete. -/
def resOf : Host.Outcome State Fault Refusal → Word
  | .next s => if s.eng.done then s.eng.res else 0
  | .fault _ | .refused _ => 0

/-- `STATUS` and `EINFO` after an outcome. -/
def statusOf : Host.Outcome State Fault Refusal → Option (Word × DWord)
  | .next s => some (statusWord s, s.eng.einfo)
  | .fault _ | .refused _ => none

/-- An entry of table memory after an outcome. -/
def entryOf (r : Nat) (i : Byte) : Host.Outcome State Fault Refusal → Word
  | .next s => tableEntry s.table r i
  | .fault _ | .refused _ => 0

set_option maxRecDepth 100000

/-! ### Commands on the spec's vectors -/

/-- S1 with DIGEST.BIT. -/
theorem test_bit_linux : resOf (exec .digestBit (load State.reset linux 1 5 0)) = 0x53D0684B := by decide
/-- 2.1, one byte 00 with a seed, on DIGEST.BIT. -/
theorem test_bit_zero_byte : resOf (exec .digestBit (load State.reset [] 1 1 0x12345678)) = 0x8CCE22D5 := by decide
/-- S1 with DIGEST.HALF. -/
theorem test_half_linux : resOf (exec .digestHalf (load State.reset linux 1 5 0)) = 0x53D0684B := by decide
/-- S1 with DIGEST.TL1. -/
theorem test_tl1_linux : resOf (exec .digestTl1 (load State.reset linux 1 5 0)) = 0x53D0684B := by decide
/-- S1 with DIGEST.TL2. -/
theorem test_tl2_linux : resOf (exec .digestTl2 (load State.reset linux 1 5 0)) = 0x53D0684B := by decide
/-- S1 with DIGEST.B1. -/
theorem test_b1_linux : resOf (exec .digestB1 (load (ready (lvl .byte)) linux 1 5 0)) = 0x53D0684B := by decide
/-- 2.1, the prefix of 9 bytes with a seed, on DIGEST.S4. -/
theorem test_s4_prefix9 : resOf (exec .digestS4 (load (ready (lvl .slice4)) digits 1 9 0x12345678)) = 0xFDFA68E7 := by decide
/-- 2.1, the prefix of 9 bytes, on DIGEST.S8. -/
theorem test_s8_prefix9 : resOf (exec .digestS8 (load (ready (lvl .slice8)) digits 1 9 0)) = 0x37FAD1BA := by decide
/-- 2.1, the prefix of 16 bytes, on DIGEST.S16. -/
theorem test_s16_prefix16 : resOf (exec .digestS16 (load (ready (lvl .slice16)) digits 1 16 0)) = 0x983C37B5 := by decide
/-- 2.5, the same on DIGEST.S16P. -/
theorem test_s16p_prefix16 :
    resOf (exec .digestS16p (load (ready (lvl .slice16)) digits 1 16 0x12345678)) = 0xFE0BF31D := by decide
/-- P7, DIGEST.FAST with the byte-order flag wrong. -/
theorem test_fast_wrong_order :
    resOf (exec .digestFast (load (ready { lvl .slice16 with cfgBe := true }) digits 1 16 0)) = 0xB48DA801 := by decide
/-- 2.10, DIGEST.FAST at `TABLE_LEVEL = NONE` needs no table. -/
theorem test_fast_no_tables :
    statusOf (exec .digestFast (load (State.resetWith (lvl .none)) linux 1 5 0)) = some (0x02, 0) := by decide
/-- 2.8, the contract on "01234" and "56789". -/
theorem test_combine_contract :
    resOf (exec .combine { State.reset with eng := { Engine.reset with opa := 0xDDA47024, opb := 0x131DA070, len := 5 } }) =
      0xA684C7C6 := by decide
/-- 2.8, a length with one bit set high up. -/
theorem test_combine_high_bit :
    resOf (exec .combine { State.reset with eng := { Engine.reset with opa := 1, len := 0x100 } }) = 0xCE3371CB := by decide
/-- R152: with `LEN = 0`, `RES = OPA` and the operator buffers are not written. -/
theorem test_combine_zero_keeps_operators : ∃ t, exec .combine
      { State.reset with eng := { Engine.reset with opa := 7, opb := 9, op0 := gf2Base, sel := true } } = .next t ∧
    t.eng.res = 7 ∧ t.eng.op0 = gf2Base ∧ t.eng.sel = true := ⟨_, rfl, rfl, rfl, rfl⟩
/-- R103, entries of the first and the last row; 2.10, `STATUS` after TBLINIT. -/
theorem test_tblinit_entries : entryOf 0 1 (exec .tblinit State.reset) = 0x77073096 ∧
    entryOf 7 1 (exec .tblinit State.reset) = 0xCCAA009E := by decide
theorem test_tblinit_status : statusOf (exec .tblinit State.reset) = some (0x0A, 0) := by decide

/-! ### Errors, the decoder in place, the fine steps -/

/-- 2.10: check 2 comes before check 3; P6: the first address not admitted; the end of a 16-bit address space. -/
theorem test_errors :
    statusOf (exec .digestS8 (State.resetWith (lvl .slice4))) = some (0x24, 0x16) ∧
    statusOf (exec .digestFast (State.resetWith (lvl .slice8))) = some (0x34, 0x1F) ∧
    statusOf (exec .digestS4 (load (ready { lvl .slice4 with readable := [⟨0x1000, 8⟩] }) [] 0x1002 8 0)) = some (0x4C, 0x1008) ∧
    statusOf (exec .digestBit (load (State.resetWith { lvl .none with aw := 16 }) [] 0xFFFE 4 0)) = some (0x44, 0x10000) := by
  decide
/-- The first event after reset runs the command. -/
theorem test_step_from_reset : statusOf (step (State.reset.withFetchWord 32 0x01)) = some (0x0A, 0) ∧
    statusOf (step (State.reset.withFetchWord 32 0x10)) = some (0x02, 0) ∧
    statusOf (step (State.reset.withFetchWord 32 0x17)) = some (0x34, 0x17) ∧
    statusOf (step (State.reset.withFetchWord 32 0x19)) = some (0x14, 0x19) := by decide
/-- 2.10: a host write while a command runs sets the register and not the command (R32, R81). -/
theorem test_write_while_busy :
    resOf (.next (ticks 6 (hostWrite .opa 7 (beginDigestBit (load State.reset linux 1 5 0))))) = 0x53D0684B := by decide
/-- Section 3: `PDIGEST` with three workers. -/
theorem test_pdigest :
    (pdigestLines .digestB1 1 10 3 (load (ready (lvl .byte)) digits 0 0 0)).map Prod.fst = some 0xA684C7C6 := by decide
/-- Section 3: the same with the head-forward fold. -/
theorem test_pdigest_head :
    (pdigestHeadLines .digestB1 1 10 3 (load (ready (lvl .byte)) digits 0 0 0)).map Prod.fst = some 0xA684C7C6 := by decide
theorem test_pdigest_no_workers : pdigestLines .digestB1 1 10 0 State.reset = none := by decide

/-! ### Witnesses: encoding, decoding, issue -/

theorem not_command_zero : ∀ i, 0x00000000#32 ≠ encode i := by intro i; cases i <;> decide
theorem not_command_0x19 : ∀ i, 0x00000019#32 ≠ encode i := by intro i; cases i <;> decide
theorem not_command_high : ∀ i, 0x80000010#32 ≠ encode i := by intro i; cases i <;> decide

theorem witness_DecodeInvertsEncode : (∀ i, 0x00000019#32 ≠ encode i) ∧ (0x80000010#32).extractLsb' 8 24 ≠ 0 :=
  ⟨not_command_0x19, by decide⟩

theorem witness_StepRunsDecodedCommand :
    (State.reset.withFetchWord 32 0x20).pending = ⟨0, .write .cmd 0x20#64⟩ :: [] ∧
    focus 0 State.reset = some State.reset ∧ decode ((0x20#64).setWidth 32) = .ok .combine := ⟨rfl, rfl, by rfl⟩

theorem witness_IllegalWordRaises : State.reset.eng.ctrl = .idle ∧ (∀ i, (0x19#64).setWidth 32 ≠ encode i) ∧
    (0x80000010#32).extractLsb' 8 24 ≠ 0 ∧ ((0x00000021#32).extractLsb' 0 8).toNat ∉ [0x01, 0x10, 0x11, 0x12, 0x13, 0x14,
      0x15, 0x16, 0x17, 0x18, 0x1F, 0x20] :=
  ⟨rfl, not_command_0x19, by decide, by decide⟩

/-- An engine in `ERROR`, and one that is busy. -/
def failed : State := raiseError .illegalCommand 0x19 State.reset
def running : State := beginDigestBit (load State.reset linux 1 5 0)

theorem witness_IssueIgnoredUnlessIdle : failed.eng.ctrl ≠ .idle ∧ running.eng.ctrl ≠ .idle := by decide

theorem witness_IssueChecksInOrder : State.reset.eng.ctrl = .idle ∧ (∀ i, 0x00000000#32 ≠ encode i) ∧
    kernelOf .slice4 .digestS8 = some .s8 ∧ rowsOf .slice4 < rowsNeeded .s8 ∧
    rowsNeeded .s4 ≤ rowsOf .slice4 ∧ 0 < rowsNeeded .s4 ∧ (State.resetWith (lvl .slice4)).tvalid = false ∧
    ChecksPass .s4 (ready (lvl .slice4)) ∧ ChecksPass .bit State.reset :=
  ⟨rfl, not_command_zero, rfl, by decide, by decide, by decide, rfl, ⟨by decide, fun _ => rfl⟩,
    ⟨by decide, fun h => absurd h (by decide)⟩⟩

theorem witness_AcceptanceLatchesOperands : kernelOf (ready (lvl .slice16)).cfg.level .digestFast = some .s16 ∧
    ChecksPass .s16 (ready (lvl .slice16)) := ⟨rfl, ⟨by decide, fun _ => rfl⟩⟩

theorem witness_RefusedCommandRaises : (State.resetWith (lvl .none)).eng.ctrl = .idle ∧
    kernelOf (State.resetWith (lvl .none)).cfg.level .digestB1 = some .b1 ∧
    rowsOf (State.resetWith (lvl .none)).cfg.level < rowsNeeded .b1 ∧
    rowsNeeded .s16 ≤ rowsOf State.reset.cfg.level ∧ 0 < rowsNeeded .s16 ∧ State.reset.tvalid = false :=
  ⟨rfl, rfl, by decide, by decide, by decide, rfl⟩

/-- The commands R78's table refuses and admits at `SLICE_4`, its own boundary. -/
theorem witness_KernelAvailability : (ready (lvl .slice4)).eng.ctrl = .idle ∧
    Instr.digestS8 ∉ availableCommands (ready (lvl .slice4)).cfg.level ∧
    Instr.digestS4 ∈ availableCommands (ready (lvl .slice4)).cfg.level ∧ (ready (lvl .slice4)).tvalid = true := by decide

/-! ### Witnesses: reset and the host's view -/

theorem witness_ResetValues : Engine.reset ∈ allEngines (State.resetWith { Config.suggested with neng := 2 }) := by decide

theorem witness_ConfigFields : perform (.write .config 0xFF) State.reset = .next State.reset := rfl

/-- Two engines: one done with result 5, beside it one in `ERROR`. -/
def doneAndFailed : State := { complete 5 State.reset with after := [failed.eng] }

theorem witness_ResultStaysUntilNextCommand :
    (∃ t, step doneAndFailed = .next t) ∧
    (∃ t, step { doneAndFailed with pending := [⟨1, .write .cmd 0x01⟩] } = .next t) ∧
    (allEngines doneAndFailed)[0]? = some (complete 5 State.reset).eng ∧ (complete 5 State.reset).eng.ctrl = .idle ∧
    (complete 5 State.reset).eng.done = true ∧
    (∀ v es, ([⟨1, .write .cmd 0x01⟩] : List Event) ≠ ⟨0, .write .cmd v⟩ :: es) ∧
    (∀ w es, ([⟨1, .write .cmd 0x01⟩] : List Event) ≠ ⟨0, .start w⟩ :: es) ∧
    ∀ j es, ([⟨1, .write .cmd 0x01⟩] : List Event) ≠ ⟨j, .reset⟩ :: es :=
  ⟨⟨_, rfl⟩, ⟨_, rfl⟩, rfl, rfl, rfl, by simp, by simp, by simp⟩

theorem witness_ErrorIsSticky :
    (∃ t, step doneAndFailed = .next t) ∧ (∃ t, step { doneAndFailed with pending := [⟨0, .write .cmd 0x01⟩] } = .next t) ∧
    (allEngines doneAndFailed)[1]? = some failed.eng ∧ failed.eng.ctrl = .error ∧
    ∀ j es, ([⟨0, .write .cmd 0x01⟩] : List Event) ≠ ⟨j, .reset⟩ :: es :=
  ⟨⟨_, rfl⟩, ⟨_, rfl⟩, rfl, rfl, by simp⟩

theorem witness_HostRegisterAccess : 8 < 9 ∧ regOfIndex 0 = some .opa ∧ regOfIndex 8 = some .einfo := by decide

/-- A ready block meets the invariant. -/
theorem ready_inv (c : Config) (h : c.wf = true) : MachineInv (ready c) := by
  have hn : 1 ≤ c.neng := by
    simp only [Config.wf, Bool.and_eq_true, decide_eq_true_eq] at h
    exact h.1.1.2
  refine ⟨h, ?_, rfl, by intro x hx; exact absurd hx (by simp [ready, State.resetWith]), ⟨by simp [ready, builtTable,
    State.resetWith], ?_⟩, fun _ => rfl, ?_⟩
  · simp [allEngines, ready, State.resetWith]
    omega
  · intro row hrow
    simp only [ready, builtTable, List.mem_map] at hrow
    obtain ⟨r, -, rfl⟩ := hrow
    simp [builtRow]
  · intro e he
    have : e = Engine.reset := by
      simp only [allEngines, ready, State.resetWith, List.nil_append, List.mem_cons] at he
      rcases he with rfl | he
      · rfl
      · exact List.eq_of_mem_replicate he
    subst this
    simp [EngineInv, JobInv, Engine.reset]

theorem witness_StatusFields : MachineInv (ready (lvl .slice4)) ∧ (statusWord (ready (lvl .slice4))).getLsbD 2 = false :=
  ⟨ready_inv _ (by decide), by decide⟩

/-! ### Witnesses: arithmetic -/

theorem witness_ByteStepsAgree : ∀ i, (fun _ => row0 : Nat → Byte → Word) 0 i = row0 i := fun _ => rfl

theorem witness_TableRowsAreLinear : 0 < rowsOf (lvl .byte).level ∧ 15 < rowsOf (lvl .slice16).level := by decide

theorem witness_BlockStepIsByteSteps :
    (∀ r < 4, ∀ i, rowValue r i = rowValue r i) ∧ (∀ r < 8, ∀ i, rowValue r i = rowValue r i) ∧
      (∀ r < 16, ∀ i, rowValue r i = rowValue r i) :=
  ⟨fun _ _ _ => rfl, fun _ _ _ => rfl, fun _ _ _ => rfl⟩

theorem witness_ZeroBitOperator : (1 ≤ 1 ∧ 1 ≤ 31) ∧ (1 ≤ 31 ∧ 31 ≤ 31) := by decide

theorem witness_OperatorTimesVector : gf2Base.length = 32 ∧ 0 < 32 ∧ 31 < 32 := by decide

/-- The operator that keeps every vector is the one of no bits. -/
theorem identity_operator (n k : Nat) (v : Word) (j : Nat) (hj : j < 32) :
    (gf2Times ((List.range' k n).map (fun i => 1#32 <<< i)) v).getLsbD j =
      (decide (k ≤ j ∧ j < k + n) && v.getLsbD (j - k)) := by
  induction n generalizing k v with
  | zero => simp [gf2Times]
  | succ n ih =>
    rw [List.range'_succ, List.map_cons, gf2Times, BitVec.getLsbD_xor, ih (k + 1) (v >>> 1)]
    have hone : (if v.getLsbD 0 then 1#32 <<< k else 0).getLsbD j = (decide (j = k) && v.getLsbD 0) := by
      split <;> rename_i h
      · rw [BitVec.getLsbD_shiftLeft, BitVec.getLsbD_one, h]
        by_cases hjk : j = k
        · simp [hjk]; omega
        · by_cases hlt : j < k
          · simp [hjk, hlt]
          · have : ¬ j - k = 0 := by omega
            simp [hjk, this]
      · simp only [Bool.not_eq_true] at h
        rw [h]; simp
    rw [hone, BitVec.getLsbD_ushiftRight]
    by_cases hjk : j = k
    · subst hjk
      simp
    · by_cases hlt : j < k
      · have h1 : ¬ (k + 1 ≤ j) := by omega
        have h2 : ¬ (k ≤ j) := by omega
        simp [hjk, h1, h2]
      · have h1 : 1 + (j - (k + 1)) = j - k := by omega
        have h2 : (k + 1 ≤ j ∧ j < k + 1 + n) ↔ (k ≤ j ∧ j < k + (n + 1)) := by omega
        rw [h1, show decide (k + 1 ≤ j ∧ j < k + 1 + n) = decide (k ≤ j ∧ j < k + (n + 1)) from decide_eq_decide.2 h2]
        simp [hjk]

theorem witness_SquaringComposes :
    ((List.range' 0 32).map (fun i => 1#32 <<< i)).length = 32 ∧
    ∀ v : Word, gf2Times ((List.range' 0 32).map (fun i => 1#32 <<< i)) v = bitstep^[0] v := by
  refine ⟨rfl, fun v => ?_⟩
  show _ = v
  apply BitVec.eq_of_getLsbD_eq
  intro j hj
  rw [identity_operator 32 0 v j hj]
  simp [hj]

theorem witness_CombineContract : ([0x35, 0x36] : List Byte).length < 2 ^ 64 := by decide

theorem witness_CombineIsLinear : (1 : DWord) ≠ 0 ∧ (0xFFFFFFFFFFFFFFFF : DWord) ≠ 0 := by decide

/-! ### Witnesses: commands -/

theorem witness_CombineCompletes : State.reset.eng.ctrl = .idle := rfl

theorem witness_CombineDegenerate : State.reset.eng.ctrl = .idle ∧ State.reset.eng.len = 0 := ⟨rfl, rfl⟩

theorem blank_shape (c : Config) : TableShape c (blankTable c) := by
  refine ⟨by simp [blankTable], fun row h => ?_⟩
  rw [List.eq_of_mem_replicate h]
  rfl

theorem witness_TblinitBuildsTables : State.reset.eng.ctrl = .idle ∧ TableShape State.reset.cfg State.reset.table ∧
    0 < rowsOf State.reset.cfg.level ∧ 14 + 1 < rowsOf State.reset.cfg.level ∧ 15 < rowsOf State.reset.cfg.level :=
  ⟨rfl, blank_shape _, by decide, by decide, by decide⟩

theorem witness_BuiltTablesNeverChange : MachineInv (ready (lvl .byte)) ∧ (ready (lvl .byte)).tvalid = true ∧
    step (ready (lvl .byte)) = .next (ready (lvl .byte)) := ⟨ready_inv _ (by decide), rfl, rfl⟩

/-- A ready block with operands set runs every kernel whose rows exist. -/
theorem ready_kernel (l : TableLevel) (k : Kernel) (h : rowsNeeded k ≤ rowsOf l) (b : List Byte) (p n : DWord) (v : Word) :
    KernelReady k (load (ready (lvl l)) b p n v) :=
  ⟨rfl, ⟨h, fun _ => rfl⟩, fun _ => ⟨rfl, fun e he => absurd he (by simp [otherEngines, load, ready, State.resetWith, lvl,
    Config.suggested])⟩⟩

/-- The range may end at the last address of all. -/
theorem range_at_top (l : TableLevel) (b : List Byte) : RangeAdmitted (load (ready (lvl l)) b 0xFFFFFFFFFFFFFFFB 5 0) := by
  have h : ∀ k < 5, admitted (lvl l) (0xFFFFFFFFFFFFFFFB + k) = true := by cases l <;> decide
  exact fun k hk => h k hk

theorem witness_BytewiseDigestsComplete :
    KernelReady .bit (load (ready (lvl .none)) linux 0xFFFFFFFFFFFFFFFB 5 0) ∧
    KernelReady .half (load (ready (lvl .none)) linux 0xFFFFFFFFFFFFFFFB 5 0) ∧
    KernelReady .tl1 (load (ready (lvl .none)) linux 0xFFFFFFFFFFFFFFFB 5 0) ∧
    KernelReady .tl2 (load (ready (lvl .none)) linux 0xFFFFFFFFFFFFFFFB 5 0) ∧
    RangeAdmitted (load (ready (lvl .none)) linux 0xFFFFFFFFFFFFFFFB 5 0) ∧
    KernelReady .b1 (load (ready (lvl .byte)) linux 0xFFFFFFFFFFFFFFFB 5 0) ∧
    RangeAdmitted (load (ready (lvl .byte)) linux 0xFFFFFFFFFFFFFFFB 5 0) :=
  ⟨ready_kernel _ _ (by decide) _ _ _ _, ready_kernel _ _ (by decide) _ _ _ _, ready_kernel _ _ (by decide) _ _ _ _,
    ready_kernel _ _ (by decide) _ _ _ _, range_at_top _ _, ready_kernel _ _ (by decide) _ _ _ _, range_at_top _ _⟩

theorem witness_SlicingDigestsComplete :
    KernelReady .s4 (load (ready (lvl .slice4)) linux 0xFFFFFFFFFFFFFFFB 5 0) ∧
    RangeAdmitted (load (ready (lvl .slice4)) linux 0xFFFFFFFFFFFFFFFB 5 0) ∧
    KernelReady .s8 (load (ready (lvl .slice8)) linux 0xFFFFFFFFFFFFFFFB 5 0) ∧
    RangeAdmitted (load (ready (lvl .slice8)) linux 0xFFFFFFFFFFFFFFFB 5 0) ∧
    KernelReady .s16 (load (ready (lvl .slice16)) linux 0xFFFFFFFFFFFFFFFB 5 0) ∧
    KernelReady .s16p (load (ready (lvl .slice16)) linux 0xFFFFFFFFFFFFFFFB 5 0) ∧
    RangeAdmitted (load (ready (lvl .slice16)) linux 0xFFFFFFFFFFFFFFFB 5 0) ∧
    Config.suggested.cfgBe = Config.suggested.platBe :=
  ⟨ready_kernel _ _ (by decide) _ _ _ _, range_at_top _ _, ready_kernel _ _ (by decide) _ _ _ _, range_at_top _ _,
    ready_kernel _ _ (by decide) _ _ _ _, ready_kernel _ _ (by decide) _ _ _ _, range_at_top _ _, rfl⟩

theorem witness_FastDigestCompletes :
    KernelReady (resolveFast .none) (load (ready (lvl .none)) linux 0xFFFFFFFFFFFFFFFB 5 0) ∧
    RangeAdmitted (load (ready (lvl .none)) linux 0xFFFFFFFFFFFFFFFB 5 0) ∧ blockBytes (resolveFast .none) = 0 ∧
    KernelReady (resolveFast .slice16) (load (ready (lvl .slice16)) linux 0xFFFFFFFFFFFFFFFB 5 0) ∧
    RangeAdmitted (load (ready (lvl .slice16)) linux 0xFFFFFFFFFFFFFFFB 5 0) ∧ (lvl .slice16).cfgBe = (lvl .slice16).platBe :=
  ⟨ready_kernel _ _ (by decide) _ _ _ _, range_at_top _ _, rfl, ready_kernel _ _ (by decide) _ _ _ _, range_at_top _ _, rfl⟩

theorem witness_FastIsItsKernel : (State.resetWith (lvl .none)).cfg.level = .none ∧ (ready (lvl .byte)).tvalid = true ∧
    (State.resetWith (lvl .slice4)).eng.ctrl = .idle ∧ (State.resetWith (lvl .slice4)).cfg.level ≠ .none ∧
    (State.resetWith (lvl .slice4)).tvalid = false := ⟨rfl, rfl, rfl, by decide, rfl⟩

theorem witness_WrongByteOrderDigest :
    KernelReady .s4 (load (ready { lvl .slice4 with cfgBe := true }) digits 1 4 0) ∧
    RangeAdmitted (load (ready { lvl .slice4 with cfgBe := true }) digits 1 4 0) ∧
    ({ lvl .slice4 with cfgBe := true } : Config).cfgBe ≠ ({ lvl .slice4 with cfgBe := true } : Config).platBe := by
  refine ⟨⟨rfl, ⟨by decide, fun _ => rfl⟩, fun _ => ⟨rfl, fun e he => absurd he (by simp [otherEngines, load, ready,
    State.resetWith, lvl, Config.suggested])⟩⟩, ?_, by decide⟩
  have h : ∀ k < 4, admitted { lvl .slice4 with cfgBe := true } (1 + k) = true := by decide
  exact fun k hk => h k hk

theorem witness_EmptyRangeReturnsSeed : kernelOf State.reset.cfg.level .digestBit = some .bit ∧
    State.reset.eng.ctrl = .idle ∧ ChecksPass .bit State.reset ∧ State.reset.eng.len = 0 :=
  ⟨rfl, rfl, ⟨by decide, fun h => absurd h (by decide)⟩, rfl⟩

/-- Eight readable bytes (95_test_vectors.md P6) and the end of a 16-bit address space (2.10). -/
def window : State := load (ready { lvl .slice4 with readable := [⟨0x1000, 8⟩] }) [] 0x1000 10 0
def topOf16 : State := load (ready { lvl .none with aw := 16 }) [] 0xFFFE 4 0

theorem witness_FirstUnadmittedByteFaults :
    (kernelOf window.cfg.level .digestS4 = some .s4 ∧ window.eng.ctrl = .idle ∧ ChecksPass .s4 window ∧
      8 < window.eng.len.toNat ∧ admitted window.cfg (window.eng.ptr.toNat + 8) = false ∧
      ∀ m < 8, admitted window.cfg (window.eng.ptr.toNat + m) = true) ∧
    (kernelOf topOf16.cfg.level .digestBit = some .bit ∧ topOf16.eng.ctrl = .idle ∧ ChecksPass .bit topOf16 ∧
      2 < topOf16.eng.len.toNat ∧ admitted topOf16.cfg (topOf16.eng.ptr.toNat + 2) = false ∧
      topOf16.eng.ptr.toNat + 2 < 2 ^ 64 ∧ ∀ m < 2, admitted topOf16.cfg (topOf16.eng.ptr.toNat + m) = true) :=
  ⟨⟨rfl, rfl, ⟨by decide, fun _ => rfl⟩, by decide, by decide, by decide⟩,
    ⟨rfl, rfl, ⟨by decide, fun _ => rfl⟩, by decide, by decide, by decide, by decide⟩⟩

theorem witness_PrefetchHasNoEffect : failed.eng.ctrl ≠ .idle ∧ ChecksPass .s16 (ready (lvl .slice16)) ∧
    State.reset.eng.ctrl = .idle ∧ ¬ChecksPass .s16 State.reset :=
  ⟨by decide, ⟨by decide, fun _ => rfl⟩, rfl, fun h => absurd (h.2 (by decide)) (by decide)⟩

theorem witness_StreamPosition :
    kernelOf .none .digestBit = some .bit ∧ KernelReady .bit (load (ready (lvl .none)) linux 0xFFFFFFFFFFFFFFFB 5 0) ∧
    RangeAdmitted (load (ready (lvl .none)) linux 0xFFFFFFFFFFFFFFFB 5 0) ∧ blockBytes .bit = 0 ∧
    (ticks 0 (beginCommand .digestBit (load (ready (lvl .none)) linux 0xFFFFFFFFFFFFFFFB 5 0))).eng.isBusy = true ∧
    (ticks 5 (beginCommand .digestBit (load (ready (lvl .none)) linux 0xFFFFFFFFFFFFFFFB 5 0))).eng.isBusy = true :=
  ⟨rfl, ready_kernel _ _ (by decide) _ _ _ _, range_at_top _ _, rfl, by decide, by decide⟩

theorem witness_CommandsReadOnlyTheRange : (Instr.combine = .combine ∨ Instr.combine = .tblinit) ∧
    ∀ n < (load State.reset linux 1 5 0).eng.len.toNat,
      memRead ((load State.reset linux 1 5 0).mem ++ [(100, 7)]) ((load State.reset linux 1 5 0).eng.ptr.toNat + n) =
        memRead (load State.reset linux 1 5 0).mem ((load State.reset linux 1 5 0).eng.ptr.toNat + n) :=
  ⟨.inl rfl, by decide⟩

/-! ### Witnesses: frames, granularity, the whole machine -/

theorem witness_CommandFrame : ∃ t u v, exec .digestBit State.reset = .next t ∧ t.eng.ctrl ≠ .error ∧
    Instr.digestBit ≠ .combine ∧ exec .tblinit State.reset = .next u ∧ exec .combine State.reset = .next v ∧
    v.eng.ctrl ≠ .error ∧ State.reset.eng.len = 0 :=
  ⟨_, _, _, rfl, by decide, by decide, rfl, rfl, by decide, rfl⟩

theorem witness_FineStepFrame : (startWord 0x10 State.reset).eng.ctrl ≠ .error ∧ running.eng.isBuilding = false ∧
    (tick running).eng.ctrl ≠ .error ∧ running.pending = [] ∧ (∃ t, step running = .next t) ∧
    (allEngines running)[0]? = some running.eng := by
  refine ⟨by decide, by decide, by decide, rfl, ⟨_, rfl⟩, rfl⟩

theorem witness_RunningCommandEnds : workLeft running ≤ 6 ∧ workLeft State.reset ≤ 0 := by decide

theorem witness_FineStepsRefineWholeCommand :
    (∀ e ∈ otherEngines State.reset, e.isBusy = false) ∧ State.reset.eng.isBusy = false := by decide

theorem witness_RacingStore : running.eng.ctrl = .busy (.digest ⟨1, 6, [], false⟩) ∧ 1 ≤ 1 ∧ 5 < 6 ∧
    5 < 2 ^ running.cfg.aw ∧ Memory.wf running.mem = true := by decide

theorem witness_PlatformStore : Memory.wf running.mem = true ∧
    (0 < 2 ^ running.cfg.aw ∧ ∀ e ∈ allEngines running, rangeHolds 0 e = false) ∧
    (6 < 2 ^ running.cfg.aw ∧ ∀ e ∈ allEngines running, rangeHolds 6 e = false) ∧
    (2 ^ 64 - 1 < 2 ^ running.cfg.aw ∧ ∀ e ∈ allEngines running, rangeHolds (2 ^ 64 - 1) e = false) := by decide

/-- Two engines: the other one runs TBLINIT, or a table-driven digest. -/
def builderBeside : State := { ready (lvl .byte) with after := [{ Engine.reset with ctrl := .busy (.tblinit 0) }] }
def readerBeside : State :=
  { ready (lvl .byte) with
    after := [{ Engine.reset with ksel := .b1, rem := 1, ctrl := .busy (.digest ⟨0, 1, [], false⟩) }] }

theorem witness_TableRaceIsMarked :
    (readerBeside.eng.ctrl = .idle ∧ ∃ e ∈ otherEngines readerBeside, e.isReadingTable = true) ∧
    (builderBeside.eng.ctrl = .idle ∧ kernelOf builderBeside.cfg.level .digestB1 = some .b1 ∧ 0 < rowsNeeded .b1 ∧ ChecksPass .b1 builderBeside ∧
      ∃ e ∈ otherEngines builderBeside, e.isBuilding = true) ∧
    (∃ t, step { State.reset with racy := true } = .next t) :=
  ⟨⟨rfl, _, List.mem_singleton.2 rfl, rfl⟩,
    ⟨rfl, rfl, by decide, ⟨by decide, fun _ => rfl⟩, _, List.mem_singleton.2 rfl, rfl⟩, ⟨_, rfl⟩⟩

theorem witness_ResetMeetsInvariant :
    ({ Config.suggested with aw := 1 } : Config).wf = true ∧ Config.suggested.wf = true := by decide

/-- The invariant also holds of a block with an event pending, so that the step that runs it is covered. -/
theorem witness_StepKeepsInvariant : ∃ t, MachineInv ((ready (lvl .slice4)).withFetchWord 32 0x15) ∧
    step ((ready (lvl .slice4)).withFetchWord 32 0x15) = .next t := by
  have h := ready_inv (lvl .slice4) (by decide)
  exact ⟨_, h, rfl⟩

theorem witness_ParametersAreFixed : step State.reset = .next State.reset := rfl

theorem witness_StepStopsOnlyOnMissingTargets :
    (allEngines State.reset).length = State.reset.cfg.neng ∧ State.reset.pending = [] ∧
    Event.wf State.reset.cfg ⟨0, .store (2 ^ 64 - 1) 7⟩ = true ∧ State.reset.cfg.neng ≤ (⟨1, .tick⟩ : Event).inst ∧
    (⟨0, .store (2 ^ 64) 7⟩ : Event).inst < State.reset.cfg.neng ∧ 2 ^ State.reset.cfg.aw ≤ 2 ^ 64 := by
  refine ⟨rfl, rfl, ?_, ?_, ?_, ?_⟩ <;> decide

/-! ### Witnesses: host sequences -/

theorem witness_ChainedLinesDigestConcatenation :
    kernelOf .none .digestBit = some .bit ∧ KernelReady .bit (load (ready (lvl .none)) linux 0 0 0) ∧
    blockBytes .bit = 0 ∧ (lvl .none).aw ≤ 64 ∧
    ∀ r ∈ ([(1, 2), (3, 3), (7, 0)] : List (DWord × DWord)), ∀ n < r.2.toNat,
      admitted (lvl .none) (r.1.toNat + n) = true := by
  refine ⟨rfl, ready_kernel _ _ (by decide) _ _ _ _, rfl, by decide, ?_⟩
  intro r hr
  rcases List.mem_cons.1 hr with rfl | hr
  · show ∀ n < 2, _
    decide
  · rcases List.mem_cons.1 hr with rfl | hr
    · show ∀ n < 3, _
      decide
    · cases List.mem_singleton.1 hr
      exact fun n hn => absurd hn (Nat.not_lt_zero n)

theorem witness_ParallelDigestEqualsPlain :
    kernelOf .none .digestBit = some .bit ∧ KernelReady .bit (load (ready (lvl .none)) linux 0 0 0) ∧
    blockBytes .bit = 0 ∧ (lvl .none).aw ≤ 64 ∧ 5 < 2 ^ 64 ∧ 1 ≤ 3 ∧ (∀ n < 5, admitted (lvl .none) (1 + n) = true) ∧
    ∀ n < 0, admitted (lvl .none) (2 ^ 64 + n) = true :=
  ⟨rfl, ready_kernel _ _ (by decide) _ _ _ _, rfl, by decide, by decide, by decide, by decide, by decide⟩

end Sys2Proof.Tests
end

/-! Proofs of the statements of 00_scope.md: what every step keeps, the invariant, the bit step, which commands exist. -/

namespace Sys2Proof.Machine

/-! ### The bit step -/

/-- The mask of R8: all ones or all zeros by bit 0. -/
theorem neg_and_one (c : Word) : -(c &&& 1#32) = if c.getLsbD 0 then 0xFFFFFFFF#32 else 0#32 := by
  rw [BitVec.and_one_eq_setWidth_ofBool_getLsbD]
  cases c.getLsbD 0 <;> rfl

/-- The branching form of the bit step (R10). -/
theorem bitstep_eq_ite (c : Word) : bitstep c = if c.getLsbD 0 then (c >>> 1) ^^^ poly else c >>> 1 := by
  rw [bitstep, neg_and_one]
  cases c.getLsbD 0
  · simp
  · simp [poly]

theorem bitstep_xor (a b : Word) : bitstep (a ^^^ b) = bitstep a ^^^ bitstep b := by
  have hshift : (a ^^^ b) >>> 1 = a >>> 1 ^^^ b >>> 1 := BitVec.ushiftRight_xor_distrib ..
  simp only [bitstep_eq_ite, BitVec.getLsbD_xor, hshift]
  cases a.getLsbD 0 <;> cases b.getLsbD 0
  · rfl
  · exact BitVec.xor_assoc ..
  · show a >>> 1 ^^^ b >>> 1 ^^^ poly = a >>> 1 ^^^ poly ^^^ b >>> 1
    ac_rfl
  · show a >>> 1 ^^^ b >>> 1 = a >>> 1 ^^^ poly ^^^ (b >>> 1 ^^^ poly)
    calc a >>> 1 ^^^ b >>> 1 = a >>> 1 ^^^ b >>> 1 ^^^ (poly ^^^ poly) := by simp
      _ = a >>> 1 ^^^ poly ^^^ (b >>> 1 ^^^ poly) := by ac_rfl

/-- Settles O19: both forms follow from the mask, linearity from the branching form by the two low bits. -/
theorem bitstepFormsAndLinearity : Obligations.BitstepFormsAndLinearity := by
  unfold Obligations.BitstepFormsAndLinearity
  exact ⟨fun c => ⟨neg_and_one c, rfl, bitstep_eq_ite c⟩, bitstep_xor, by decide, by decide, by decide, by decide,
    by decide⟩

/-! ### Which commands exist -/

theorem decode_encode (i : Instr) : decode (encode i) = .ok i := by
  cases i <;> rfl

/-- R78's table says of every command whether the rows its kernel needs exist (R6, R77). -/
theorem mem_availableCommands_iff (l : TableLevel) (i : Instr) :
    i ∈ availableCommands l ↔ ∀ k, kernelOf l i = some k → rowsNeeded k ≤ rowsOf l := by
  cases l <;> cases i <;> simp [availableCommands, tablelessCommands, kernelOf, resolveFast, rowsNeeded, rowsOf]

theorem finish_of_not_busy {s : State} (h : s.eng.isBusy = false) : finish s = s := ticks_of_not_busy h _

/-- A command whose acceptance ends in an error takes no further step. -/
theorem exec_refused {i : Instr} {s : State} {err : EngineError} {info : DWord} (hidle : s.eng.ctrl = .idle)
    (h : beginCommand i s = raiseError err info s) : exec i s = .next (raiseError err info s) := by
  rw [exec_eq, issueWhole, whenIdle_of_idle _ hidle, h, finish_of_not_busy rfl]

/-- Acceptance of a DIGEST command whose rows do not exist (R84 check 2). -/
theorem beginCommand_unavailable {i : Instr} {k : Kernel} {s : State} (hk : kernelOf s.cfg.level i = some k)
    (hrows : rowsOf s.cfg.level < rowsNeeded k) :
    beginCommand i s = raiseError .kernelUnavailable ((encode i).setWidth 64) s := by
  rw [beginCommand_digest hk, acceptDigest]
  exact if_pos hrows

/-- Acceptance of a DIGEST command that the checks of R84 let through. -/
theorem beginCommand_checksPass {i : Instr} {k : Kernel} {s : State} (hk : kernelOf s.cfg.level i = some k)
    (hchecks : ChecksPass k s) : beginCommand i s = latchDigest k (clearDone s) := by
  rw [beginCommand_digest hk]
  obtain ⟨hrows, hbuilt⟩ := hchecks
  rcases acceptDigest_cases k (encode i) s with ⟨h, -⟩ | ⟨-, hpos, hf, -⟩ | ⟨-, h⟩
  · omega
  · rw [hbuilt hpos] at hf
    cases hf
  · exact h

/-- The commands that run no kernel. -/
theorem eq_tblinit_or_combine_of_kernelOf_none {l : TableLevel} {i : Instr} (h : kernelOf l i = none) :
    i = .tblinit ∨ i = .combine := by
  cases i <;> simp [kernelOf] at h ⊢

theorem startWord_encode {s : State} (i : Instr) (hidle : s.eng.ctrl = .idle) :
    startWord (encode i) s = beginCommand i s := by
  rw [startWord, decode_encode]
  exact whenIdle_of_idle _ hidle

/-- An available command is accepted once the tables are built (R78, R84). -/
theorem beginCommand_isBusy {i : Instr} {s : State} (hi : i ∈ availableCommands s.cfg.level) (hbuilt : s.tvalid = true) :
    (beginCommand i s).eng.isBusy = true := by
  cases hk : kernelOf s.cfg.level i with
  | none => rcases eq_tblinit_or_combine_of_kernelOf_none hk with rfl | rfl <;> rfl
  | some k =>
    have hrows := (mem_availableCommands_iff _ _).1 hi k hk
    rw [beginCommand_checksPass hk ⟨hrows, fun _ => hbuilt⟩]
    rfl

/-- Settles O9: R78's table is the comparison of R84's check 2, which alone decides when the tables are built. -/
theorem kernelAvailability : Obligations.KernelAvailability := by
  unfold Obligations.KernelAvailability
  refine ⟨by decide, by decide, fun s i hidle => ⟨fun hi => ?_, fun hi hbuilt => ?_⟩⟩
  · rw [mem_availableCommands_iff] at hi
    push Not at hi
    obtain ⟨k, hk, hrows⟩ := hi
    exact exec_refused hidle (beginCommand_unavailable hk hrows)
  · rw [startWord_encode i hidle]
    exact beginCommand_isBusy hi hbuilt

/-! ### What every step keeps -/

/-- `P` is kept by everything a step is made of: the move of the focus, the taking of an event, and each operation that
an action performs; acceptance and the refusal of a word only ever act in `IDLE` (R80). -/
structure KeptByParts (P : State → Prop) : Prop where
  focus : ∀ {k s t}, focus k s = some t → P s → P t
  pending : ∀ {s} es, P s → P { s with pending := es }
  tick : ∀ {s}, P s → P (tick s)
  beginCommand : ∀ {s} i, s.eng.ctrl = .idle → P s → P (beginCommand i s)
  refuseWord : ∀ {s} w, s.eng.ctrl = .idle → P s → P (refuseWord w s)
  hostWrite : ∀ {s} r v, P s → P (hostWrite r v s)
  hostRead : ∀ {s} r, P s → P (hostRead r s)
  platformStore : ∀ {s a} b, a < 2 ^ s.cfg.aw → P s → P (platformStore a b s)
  resetAll : ∀ {s}, P s → P (resetAll s)

section
variable {P : State → Prop} {s t : State}

theorem whenIdle_induction {f : State → State} (hs : P s) (hf : s.eng.ctrl = .idle → P (f s)) : P (whenIdle f s) := by
  unfold whenIdle
  split
  · exact hf ‹_›
  · exact hs

theorem KeptByParts.exec (hP : KeptByParts P) {i : Instr} (h : exec i s = .next t) (hs : P s) : P t := by
  rw [exec_eq] at h
  cases h
  exact whenIdle_induction hs fun hidle => ticks_induction (P := P) (fun _ => hP.tick) _ (hP.beginCommand i hidle hs)

theorem KeptByParts.startWord (hP : KeptByParts P) (w : Word) (hs : P s) : P (startWord w s) := by
  unfold Machine.startWord
  split
  · exact whenIdle_induction hs fun hidle => hP.beginCommand _ hidle hs
  · exact whenIdle_induction hs fun hidle => hP.refuseWord _ hidle hs

theorem KeptByParts.perform (hP : KeptByParts P) {a : Action} (h : perform a s = .next t) (hs : P s) : P t := by
  rcases perform_cases h with ⟨_, i, -, -, hexec⟩ | ⟨_, w, -, -, rfl⟩ | ⟨r, v, -, -, rfl⟩ | ⟨w, -, rfl⟩ | ⟨r, -, rfl⟩ |
    ⟨-, rfl⟩ | ⟨x, b, -, hx, rfl⟩ | ⟨-, rfl⟩
  · exact hP.exec hexec hs
  · exact whenIdle_induction hs fun hidle => hP.refuseWord w hidle hs
  · exact hP.hostWrite r v hs
  · exact hP.startWord w hs
  · exact hP.hostRead r hs
  · exact hP.tick hs
  · exact hP.platformStore b hx hs
  · exact hP.resetAll hs

theorem KeptByParts.drain (hP : KeptByParts P) (hs : P s) : P (drain s) := by
  rcases drain_cases s with ⟨-, h⟩ | ⟨k, u, hu, -, h⟩ <;> rw [h]
  · exact hs
  · exact hP.tick (hP.focus hu hs)

/-- What each part keeps, a step keeps. -/
theorem KeptByParts.step (hP : KeptByParts P) (h : step s = .next t) (hs : P s) : P t := by
  rcases step_cases h with ⟨-, rfl⟩ | ⟨e, es, u, -, hu, hperform⟩
  · exact hP.drain hs
  · exact hP.perform hperform (hP.focus hu (hP.pending es hs))

end

/-! ### What the engines share -/

/-- Two states of one block with the same other engines, tables and data memory (R36, R50): they may differ in the
addressed engine. -/
structure SameBlock (s t : State) : Prop where
  cfg : t.cfg = s.cfg
  before : t.before = s.before
  after : t.after = s.after
  table : t.table = s.table
  tvalid : t.tvalid = s.tvalid
  mem : t.mem = s.mem

theorem absorb_sameBlock (n : Nat) (r : Except Nat Word) (j : DigestJob) (s : State) :
    SameBlock s (absorb n r j s) := by
  cases r <;> constructor <;> rfl

theorem tickDigest_sameBlock (j : DigestJob) (s : State) : SameBlock s (tickDigest j s) := by
  rcases tickDigest_cases j s with ⟨-, h⟩ | ⟨n, r, -, -, -, -, h, -⟩ <;> rw [h]
  · constructor <;> rfl
  · exact absorb_sameBlock n r j s

theorem tickCombine_sameBlock (b : Bool) (s : State) : SameBlock s (tickCombine b s) := by
  rcases tickCombine_cases b s with ⟨-, -, h⟩ | ⟨-, -, h⟩ | ⟨-, -, h⟩ | ⟨-, -, h⟩ <;> rw [h] <;> constructor <;> rfl

theorem acceptDigest_sameBlock (k : Kernel) (w : Word) (s : State) : SameBlock s (acceptDigest k w s) := by
  rcases acceptDigest_cases k w s with ⟨-, h⟩ | ⟨-, -, -, h⟩ | ⟨-, h⟩ <;> rw [h] <;> constructor <;> rfl

theorem acceptCombine_sameBlock (s : State) : SameBlock s (acceptCombine s) := by
  constructor <;> rfl

theorem hostWrite_sameBlock (r : HostReg) (v : DWord) (s : State) : SameBlock s (hostWrite r v s) := by
  cases r <;> constructor <;> rfl

theorem refuseWord_sameBlock (w : Word) (s : State) : SameBlock s (refuseWord w s) := by
  constructor <;> rfl

/-! ### Parameters and number of engines -/

/-- The parameters (R4) and the number of engines (R36) of `t` are those of `s`. -/
def SameParams (s t : State) : Prop := t.cfg = s.cfg ∧ (allEngines t).length = (allEngines s).length

theorem SameParams.rfl {s : State} : SameParams s s := ⟨.refl _, .refl _⟩

theorem SameParams.trans {s t u : State} (h : SameParams s t) (h' : SameParams t u) : SameParams s u :=
  ⟨h'.1.trans h.1, h'.2.trans h.2⟩

/-- Changing engines, but not how many there are, keeps the parameters. -/
theorem sameParams_of_lengths {s t : State} (hcfg : t.cfg = s.cfg) (hbefore : t.before.length = s.before.length)
    (hafter : t.after.length = s.after.length) : SameParams s t := by
  refine ⟨hcfg, ?_⟩
  simp [allEngines, hbefore, hafter]

theorem SameBlock.sameParams {s t : State} (h : SameBlock s t) : SameParams s t :=
  sameParams_of_lengths h.cfg (congrArg _ h.before) (congrArg _ h.after)

theorem focus_sameParams {k : Nat} {s t : State} (h : focus k s = some t) : SameParams s t := by
  obtain ⟨-, hall, -, ht⟩ := focus_cases h
  exact ⟨by rw [ht], congrArg _ hall⟩

theorem tickTblinit_sameParams (r : Nat) (s : State) : SameParams s (tickTblinit r s) := by
  rcases tickTblinit_cases r s with ⟨-, h⟩ | ⟨-, h⟩ <;> rw [h] <;> exact sameParams_of_lengths rfl rfl rfl

theorem tick_sameParams (s : State) : SameParams s (tick s) := by
  cases hc : s.eng.ctrl with
  | idle => rw [tick_idle hc]; exact .rfl
  | error => rw [tick_error hc]; exact .rfl
  | busy job =>
    cases job with
    | digest j => rw [tick_digest hc]; exact (tickDigest_sameBlock j s).sameParams
    | tblinit r => rw [tick_tblinit hc]; exact tickTblinit_sameParams r s
    | combine b => rw [tick_combine hc]; exact (tickCombine_sameBlock b s).sameParams

theorem acceptTblinit_sameParams (s : State) : SameParams s (acceptTblinit s) :=
  sameParams_of_lengths rfl (List.length_map ..) (List.length_map ..)

theorem beginCommand_sameParams (i : Instr) (s : State) : SameParams s (beginCommand i s) := by
  cases hk : kernelOf s.cfg.level i with
  | none =>
    rcases eq_tblinit_or_combine_of_kernelOf_none hk with rfl | rfl
    · exact acceptTblinit_sameParams s
    · exact (acceptCombine_sameBlock s).sameParams
  | some k => rw [beginCommand_digest hk]; exact (acceptDigest_sameBlock k _ s).sameParams

theorem platformStore_sameParams (a : Nat) (b : Byte) (s : State) : SameParams s (platformStore a b s) :=
  sameParams_of_lengths rfl (List.length_map ..) (List.length_map ..)

theorem resetAll_sameParams (s : State) : SameParams s (resetAll s) :=
  sameParams_of_lengths rfl (List.length_map ..) (List.length_map ..)

/-- Every part of a step keeps the parameters and the number of engines of a state `s₀`. -/
theorem sameParams_keptByParts (s₀ : State) : KeptByParts (SameParams s₀) where
  focus hu h := h.trans (focus_sameParams hu)
  pending _ h := h
  tick h := h.trans (tick_sameParams _)
  beginCommand i _ h := h.trans (beginCommand_sameParams i _)
  refuseWord w _ h := h.trans (refuseWord_sameBlock w _).sameParams
  hostWrite r v h := h.trans (hostWrite_sameBlock r v _).sameParams
  hostRead _ h := h
  platformStore b _ h := h.trans (platformStore_sameParams _ b _)
  resetAll h := h.trans (resetAll_sameParams _)

/-- Settles O57: no part of a step changes the parameters or the number of engines. -/
theorem parametersAreFixed : Obligations.ParametersAreFixed := by
  unfold Obligations.ParametersAreFixed
  exact fun s _ h => (sameParams_keptByParts s).step h .rfl

/-! ### Built rows -/

@[simp] theorem builtRow_length (r : Nat) : (builtRow r).length = 256 := by simp [builtRow]

theorem builtRow_getD (r : Nat) (i : Byte) : (builtRow r).getD i.toNat 0 = rowValue r i := by
  have hi : i.toNat < 256 := i.isLt
  simp [builtRow, List.getD_eq_getElem?_getD, List.getElem?_range hi]

@[simp] theorem builtTable_length (c : Config) : (builtTable c).length = rowsOf c.level := by simp [builtTable]

theorem builtTable_getD {c : Config} {k : Nat} (hk : k < rowsOf c.level) : (builtTable c).getD k [] = builtRow k := by
  simp [builtTable, List.getD_eq_getElem?_getD, List.getElem?_range hk]

theorem rowValue_succ (r : Nat) (i : Byte) : rowValue (r + 1) i = zbyte (rowValue r i) :=
  Function.iterate_succ_apply' zbyte r (row0 i)

/-- With row 0 built, `next` of R97 is the zero-byte step of R112. -/
theorem nextEntry_builtRow_zero (v : Word) : nextEntry (builtRow 0) v = zbyte v := by
  rw [nextEntry, builtRow_getD, zbyte, bytestep]
  simp [rowValue]

/-- TBLINIT's row recurrence (R96, R97) gives the next row its contents (R98) once the rows before it have theirs. -/
theorem buildRow_eq_builtRow {t : List (List Word)} {r : Nat} (h : ∀ k < r, t.getD k [] = builtRow k) :
    buildRow t r = builtRow r := by
  cases r with
  | zero => rfl
  | succ r =>
    have hnext : nextEntry (builtRow 0) = zbyte := funext nextEntry_builtRow_zero
    rw [buildRow, if_neg (Nat.succ_ne_zero r), h 0 (Nat.succ_pos r), Nat.add_sub_cancel, h r (Nat.lt_succ_self r),
      hnext, builtRow, builtRow, List.map_map]
    exact List.map_congr_left fun i _ => (rowValue_succ r _).symm

/-- Building the next row leaves every built row built. -/
theorem getD_set_buildRow {t : List (List Word)} {r k : Nat} (hr : r < t.length)
    (h : ∀ k < r, t.getD k [] = builtRow k) (hk : k = r ∨ t.getD k [] = builtRow k) :
    (t.set r (buildRow t r)).getD k [] = builtRow k := by
  rw [buildRow_eq_builtRow h]
  by_cases hkr : r = k
  · subst hkr
    simp [List.getD_eq_getElem?_getD, hr]
  · have hk := hk.resolve_left (Ne.symm hkr)
    rw [← hk]
    simp [List.getD_eq_getElem?_getD, List.getElem?_set_ne hkr]

/-- A table all of whose rows are built is the built table (R98). -/
theorem eq_builtTable {c : Config} {t : List (List Word)} (hlen : t.length = rowsOf c.level)
    (h : ∀ k < rowsOf c.level, t.getD k [] = builtRow k) : t = builtTable c := by
  refine List.ext_getElem (by simp [hlen]) fun k hk hk' => ?_
  have hrow := h k (hlen ▸ hk)
  rw [← builtTable_getD (hlen ▸ hk), List.getD_eq_getElem _ _ hk, List.getD_eq_getElem _ _ hk'] at hrow
  exact hrow

/-- Building a row of a built table again changes nothing. -/
theorem set_buildRow_builtTable {c : Config} {r : Nat} (hr : r < rowsOf c.level) :
    (builtTable c).set r (buildRow (builtTable c) r) = builtTable c := by
  have hbuilt : ∀ k < rowsOf c.level, (builtTable c).getD k [] = builtRow k := fun k hk => builtTable_getD hk
  exact eq_builtTable (by simp) fun k hk =>
    getD_set_buildRow (by simpa using hr) (fun j hj => hbuilt j (hj.trans hr)) (.inr (hbuilt k hk))

theorem TableShape.set_row {c : Config} {t : List (List Word)} (h : TableShape c t) (r : Nat) {row : List Word}
    (hrow : row.length = 256) : TableShape c (t.set r row) := by
  obtain ⟨hlen, hrows⟩ := h
  refine ⟨by rw [List.length_set, hlen], fun x hx => ?_⟩
  rcases List.mem_or_eq_of_mem_set hx with hx | rfl
  · exact hrows x hx
  · exact hrow

theorem blankTable_shape (c : Config) : TableShape c (blankTable c) := by
  refine ⟨List.length_replicate .., fun row hrow => ?_⟩
  rw [List.eq_of_mem_replicate hrow]
  exact List.length_replicate ..

/-! ### Operators -/

@[simp] theorem gf2Square_length (m : List Word) : (gf2Square m).length = m.length := List.length_map ..

@[simp] theorem gf2Base_length : gf2Base.length = 32 := rfl

/-! ### The invariant of one engine -/

section
variable {s t : State} {e e' : Engine}

theorem jobInv_digest_iff {j : DigestJob} (hc : e.ctrl = .busy (.digest j)) :
    JobInv s e ↔ j.first ≤ e.pos ∧ e.pos + e.rem.toNat = j.stop ∧ rowsNeeded e.ksel ≤ rowsOf s.cfg.level ∧
      (0 < rowsNeeded e.ksel → s.tvalid = true) ∧ ∀ c ∈ j.stale, j.first ≤ c.1 ∧ c.1 < j.stop := by
  simp [JobInv, hc]

theorem jobInv_tblinit_iff {r : Nat} (hc : e.ctrl = .busy (.tblinit r)) :
    JobInv s e ↔ r ≤ rowsOf s.cfg.level ∧ ∀ k < r, s.table.getD k [] = builtRow k := by
  simp [JobInv, hc]

theorem jobInv_combine {b : Bool} (hc : e.ctrl = .busy (.combine b)) : JobInv s e := by simp [JobInv, hc]

theorem jobInv_idle (hc : e.ctrl = .idle) : JobInv s e := by simp [JobInv, hc]

theorem jobInv_error (hc : e.ctrl = .error) : JobInv s e := by simp [JobInv, hc]

/-- `t` keeps what the running commands of `s` rely on: the parameters, `TVALID` once it is 1, every built row. -/
structure KeepsBuilt (s t : State) : Prop where
  cfg : t.cfg = s.cfg
  tvalid : s.tvalid = true → t.tvalid = true
  rows : ∀ k, s.table.getD k [] = builtRow k → t.table.getD k [] = builtRow k

theorem SameBlock.keepsBuilt (h : SameBlock s t) : KeepsBuilt s t :=
  ⟨h.cfg, by rw [h.tvalid]; exact id, by rw [h.table]; exact fun _ => id⟩

theorem JobInv.keep (h : JobInv s e) (hst : KeepsBuilt s t) : JobInv t e := by
  rcases hc : e.ctrl with _ | (j | r | b) | _
  · exact jobInv_idle hc
  · rw [jobInv_digest_iff hc] at h ⊢
    obtain ⟨hfirst, hstop, hneeds, hvalid, hstale⟩ := h
    exact ⟨hfirst, hstop, hst.cfg ▸ hneeds, fun hpos => hst.tvalid (hvalid hpos), hstale⟩
  · rw [jobInv_tblinit_iff hc] at h ⊢
    obtain ⟨hr, hrows⟩ := h
    exact ⟨hst.cfg ▸ hr, fun k hk => hst.rows k (hrows k hk)⟩
  · exact jobInv_combine hc
  · exact jobInv_error hc

theorem EngineInv.keep (h : EngineInv s e) (hst : KeepsBuilt s t) : EngineInv t e := by
  obtain ⟨hptr, hdone, hcode, hmax, hinfo, hop0, hop1, hjob⟩ := h
  exact ⟨hst.cfg ▸ hptr, hdone, hcode, hmax, hinfo, hop0, hop1, hjob.keep hst⟩

theorem EngineInv.jobInv (h : EngineInv s e) : JobInv s e := by
  obtain ⟨-, -, -, -, -, -, -, hjob⟩ := h
  exact hjob

theorem EngineInv.op_lengths (h : EngineInv s e) : e.op0.length = 32 ∧ e.op1.length = 32 := by
  obtain ⟨-, -, -, -, -, hop0, hop1, -⟩ := h
  exact ⟨hop0, hop1⟩

theorem EngineInv.done_of_not_idle (h : EngineInv s e) (hc : e.ctrl ≠ .idle) : e.done = false := by
  obtain ⟨-, hdone, -⟩ := h
  exact Bool.eq_false_iff.2 fun hd => hc (hdone hd)

/-- An engine outside `ERROR` that stays outside, with `PTR`, `ECODE` and `EINFO` as they were. -/
theorem EngineInv.outsideError (h : EngineInv s e) (hc : e.ctrl ≠ .error)
    (hregs : e'.ptr = e.ptr ∧ e'.ecode = e.ecode ∧ e'.einfo = e.einfo)
    (hops : e'.op0.length = 32 ∧ e'.op1.length = 32) (hc' : e'.ctrl ≠ .error)
    (hdone : e'.done = true → e'.ctrl = .idle) (hjob : JobInv s e') : EngineInv s e' := by
  obtain ⟨hptr, -, hcode, hmax, hinfo, -, -, -⟩ := h
  obtain ⟨hptr', hcode', hinfo'⟩ := hregs
  refine ⟨hptr' ▸ hptr, hdone, ?_, hcode' ▸ hmax, fun _ => ?_, hops.1, hops.2, hjob⟩
  · rw [hcode']
    exact iff_of_true (hcode.2 hc) hc'
  · rw [hinfo']
    exact hinfo hc

theorem raiseError_engineInv (err : EngineError) (info : DWord) (h : EngineInv s s.eng) :
    EngineInv s (raiseError err info s).eng := by
  obtain ⟨hptr, -⟩ := h
  have hcode : errorCode err ≠ 0 ∧ (errorCode err).toNat ≤ 4 := by cases err <;> decide
  exact ⟨hptr, nofun, iff_of_false hcode.1 (fun hc => hc rfl), hcode.2, fun hc => absurd rfl hc, by simp, by simp, trivial⟩

theorem complete_engineInv (r : Word) (h : EngineInv s s.eng) (hc : s.eng.ctrl ≠ .error) :
    EngineInv s (complete r s).eng :=
  h.outsideError hc ⟨rfl, rfl, rfl⟩ h.op_lengths nofun (fun _ => rfl) trivial

theorem completeNoResult_engineInv (h : EngineInv s s.eng) (hc : s.eng.ctrl ≠ .error) :
    EngineInv s (completeNoResult s).eng :=
  h.outsideError hc ⟨rfl, rfl, rfl⟩ h.op_lengths nofun (fun _ => rfl) trivial

theorem completeCombine_engineInv (r : Word) (h : EngineInv s s.eng) (hc : s.eng.ctrl ≠ .error) :
    EngineInv s (completeCombine r s).eng :=
  h.outsideError hc ⟨rfl, rfl, rfl⟩ ⟨by simp, by simp⟩ nofun (fun _ => rfl) trivial

/-- A reset engine is in order in every block (R34). -/
theorem reset_engineInv (s : State) : EngineInv s Engine.reset :=
  ⟨Nat.two_pow_pos _, nofun, iff_of_true rfl nofun, Nat.zero_le 4, fun _ => rfl, rfl, rfl, trivial⟩

/-! ### Ticks and acceptance keep the addressed engine in order -/

theorem absorb_engineInv {j : DigestJob} {n : Nat} (r : Except Nat Word) (h : EngineInv s s.eng)
    (hc : s.eng.ctrl = .busy (.digest j)) (hn : n ≤ s.eng.rem.toNat) : EngineInv s (absorb n r j s).eng := by
  rcases absorb_cases n r j s with ⟨a, -, habs⟩ | ⟨c, -, habs⟩ <;> rw [habs]
  · exact raiseError_engineInv _ _ h
  · obtain ⟨hfirst, hstop, hneeds, hvalid, hstale⟩ := (jobInv_digest_iff hc).1 h.jobInv
    have hn64 : (BitVec.ofNat 64 n).toNat = n := Nat.mod_eq_of_lt (hn.trans_lt s.eng.rem.isLt)
    have hrem : (s.eng.rem - BitVec.ofNat 64 n).toNat = s.eng.rem.toNat - n := by
      rw [BitVec.toNat_sub_of_le (by rwa [BitVec.le_def, hn64]), hn64]
    refine h.outsideError (by simp [hc]) ⟨rfl, rfl, rfl⟩ h.op_lengths (by simp [hc]) ?_
      ((jobInv_digest_iff (j := j) (by exact hc)).2 ⟨?_, ?_, hneeds, hvalid, hstale⟩)
    · simp [h.done_of_not_idle (by simp [hc])]
    · exact hfirst.trans (Nat.le_add_right ..)
    · simp only [hrem]
      omega

theorem tickDigest_engineInv {j : DigestJob} (h : EngineInv s s.eng) (hc : s.eng.ctrl = .busy (.digest j)) :
    EngineInv s (tickDigest j s).eng := by
  rcases tickDigest_cases j s with ⟨-, ht⟩ | ⟨n, r, -, -, hn, -, ht, -⟩ <;> rw [ht]
  · exact complete_engineInv _ h (by simp [hc])
  · exact absorb_engineInv r h hc hn

/-- Operators of 32 rows have squares of 32 rows. -/
theorem combineIteration_op_lengths (h : e.op0.length = 32 ∧ e.op1.length = 32) :
    (combineIteration e).op0.length = 32 ∧ (combineIteration e).op1.length = 32 := by
  cases hsel : e.sel <;> simp [combineIteration, hsel, h]

theorem tickCombine_engineInv {b : Bool} (h : EngineInv s s.eng) (hc : s.eng.ctrl = .busy (.combine b)) :
    EngineInv s (tickCombine b s).eng := by
  have hne : s.eng.ctrl ≠ .error := by simp [hc]
  have hdone : s.eng.done = false := h.done_of_not_idle (by simp [hc])
  rcases tickCombine_cases b s with ⟨-, -, ht⟩ | ⟨-, -, ht⟩ | ⟨-, -, ht⟩ | ⟨-, -, ht⟩ <;> rw [ht]
  · exact complete_engineInv _ h hne
  · exact h.outsideError hne ⟨rfl, rfl, rfl⟩ ⟨by simp [buildOperators], by simp [buildOperators]⟩ nofun
      (by simp [buildOperators, hdone]) trivial
  · exact completeCombine_engineInv _ h hne
  · exact h.outsideError hne ⟨rfl, rfl, rfl⟩ (combineIteration_op_lengths h.op_lengths) hne
      (by simp [combineIteration, hdone]) (jobInv_combine hc)

theorem latchDigest_engineInv {k : Kernel} (h : EngineInv s s.eng) (hc : s.eng.ctrl = .idle) (hk : ChecksPass k s) :
    EngineInv s (latchDigest k (clearDone s)).eng :=
  h.outsideError (by simp [hc]) ⟨rfl, rfl, rfl⟩ h.op_lengths nofun nofun
    ((jobInv_digest_iff rfl).2 ⟨le_rfl, rfl, hk.1, hk.2, nofun⟩)

theorem acceptDigest_engineInv (k : Kernel) (w : Word) (h : EngineInv s s.eng) (hc : s.eng.ctrl = .idle) :
    EngineInv s (acceptDigest k w s).eng := by
  rcases acceptDigest_cases k w s with ⟨-, ha⟩ | ⟨-, -, -, ha⟩ | ⟨hk, ha⟩ <;> rw [ha]
  · exact raiseError_engineInv _ _ h
  · exact raiseError_engineInv _ _ h
  · exact latchDigest_engineInv h hc hk

theorem acceptCombine_engineInv (h : EngineInv s s.eng) (hc : s.eng.ctrl = .idle) : EngineInv s (acceptCombine s).eng :=
  h.outsideError (by simp [hc]) ⟨rfl, rfl, rfl⟩ h.op_lengths nofun nofun trivial

theorem acceptTblinit_engineInv (h : EngineInv s s.eng) (hc : s.eng.ctrl = .idle) : EngineInv s (acceptTblinit s).eng :=
  h.outsideError (by simp [hc]) ⟨rfl, rfl, rfl⟩ h.op_lengths nofun nofun ⟨Nat.zero_le _, nofun⟩

/-! ### What the host and the platform do keeps every engine in order -/

theorem truncAddr_lt (c : Config) (v : DWord) : (truncAddr c v).toNat < 2 ^ c.aw := by
  rw [truncAddr, BitVec.toNat_ofNat]
  exact (Nat.mod_le _ _).trans_lt (Nat.mod_lt _ (Nat.two_pow_pos _))

theorem hostWrite_engineInv (r : HostReg) (v : DWord) (h : EngineInv s s.eng) : EngineInv s (hostWrite r v s).eng := by
  cases r with
  | ptr =>
    obtain ⟨-, hrest⟩ := h
    exact ⟨truncAddr_lt s.cfg v, hrest⟩
  | opa | opb | len | res | cmd | status | config | einfo => exact h

/-- A running DIGEST command whose record of hazards changes, but not its range. -/
theorem EngineInv.setDigestJob {j j' : DigestJob} (h : EngineInv s e) (hc : e.ctrl = .busy (.digest j))
    (hrange : j'.first = j.first ∧ j'.stop = j.stop)
    (hstale : ∀ c ∈ j'.stale, c ∈ j.stale ∨ j.first ≤ c.1 ∧ c.1 < j.stop) :
    EngineInv s { e with ctrl := .busy (.digest j') } := by
  obtain ⟨hfirst, hstop, hneeds, hvalid, hold⟩ := (jobInv_digest_iff hc).1 h.jobInv
  refine h.outsideError (by simp [hc]) ⟨rfl, rfl, rfl⟩ h.op_lengths nofun ?_ ((jobInv_digest_iff rfl).2 ?_)
  · simp [h.done_of_not_idle (by simp [hc])]
  · rw [hrange.1, hrange.2]
    exact ⟨hfirst, hstop, hneeds, hvalid, fun c hmem => (hstale c hmem).elim (hold c) id⟩

/-- What the note of a store can do to an engine (R61). -/
theorem noteStore_cases (a : Nat) (old : Byte) (e : Engine) :
    noteStore a old e = e ∨ ∃ j, e.ctrl = .busy (.digest j) ∧ (j.first ≤ a ∧ a < j.stop) ∧
      noteStore a old e = { e with ctrl := .busy (.digest { j with stale := (a, old) :: j.stale }) } := by
  unfold noteStore
  split
  · split
    · exact .inr ⟨_, ‹_›, ‹_›, rfl⟩
    · exact .inl rfl
  · exact .inl rfl

/-- What the start of a TBLINIT can do to another engine (R212). -/
theorem taintReader_cases (e : Engine) :
    taintReader e = e ∨ ∃ j, e.ctrl = .busy (.digest j) ∧
      taintReader e = { e with ctrl := .busy (.digest { j with tainted := true }) } := by
  unfold taintReader
  split
  · split
    · exact .inr ⟨_, ‹_›, rfl⟩
    · exact .inl rfl
  · exact .inl rfl

theorem noteStore_engineInv (a : Nat) (old : Byte) (h : EngineInv s e) : EngineInv s (noteStore a old e) := by
  rcases noteStore_cases a old e with he | ⟨j, hc, hrange, he⟩ <;> rw [he]
  · exact h
  · refine h.setDigestJob hc ⟨rfl, rfl⟩ fun c hmem => ?_
    rcases List.mem_cons.1 hmem with rfl | hmem
    · exact .inr hrange
    · exact .inl hmem

theorem taintReader_engineInv (h : EngineInv s e) : EngineInv s (taintReader e) := by
  rcases taintReader_cases e with he | ⟨j, hc, he⟩ <;> rw [he]
  · exact h
  · exact h.setDigestJob hc ⟨rfl, rfl⟩ fun _ => .inl

end

/-! ### The invariant of the machine -/

section
variable {s t : State}

theorem mem_allEngines_iff {e : Engine} : e ∈ allEngines s ↔ e = s.eng ∨ e ∈ otherEngines s := by
  simp only [allEngines, otherEngines, List.mem_append, List.mem_cons]
  tauto

theorem MachineInv.engineInv (h : MachineInv s) : EngineInv s s.eng := by
  obtain ⟨-, -, -, -, -, -, heng⟩ := h
  exact heng _ (mem_allEngines_self s)

/-- The invariant of a state whose other engines are those of `s` under a map `f`, part by part. -/
theorem MachineInv.of_map (h : MachineInv s) (f : Engine → Engine) (hcfg : t.cfg = s.cfg)
    (hbefore : t.before = s.before.map f) (hafter : t.after = s.after.map f)
    (hmem : Memory.wf t.mem = true ∧ ∀ c ∈ t.mem, c.1 < 2 ^ s.cfg.aw)
    (htable : TableShape s.cfg t.table ∧ (t.tvalid = true → t.table = builtTable s.cfg))
    (hothers : ∀ e, EngineInv s e → EngineInv t (f e)) (heng : EngineInv t t.eng) : MachineInv t := by
  obtain ⟨hwf, hlen, -, -, -, -, hengines⟩ := h
  have hparams : SameParams s t := sameParams_of_lengths hcfg (by simp [hbefore]) (by simp [hafter])
  refine ⟨hcfg ▸ hwf, ?_, hmem.1, hcfg ▸ hmem.2, hcfg ▸ htable.1, hcfg ▸ htable.2, fun e he => ?_⟩
  · rw [hparams.2, hcfg, hlen]
  · rcases mem_allEngines_iff.1 he with rfl | he
    · exact heng
    · rw [otherEngines, hbefore, hafter, ← List.map_append] at he
      obtain ⟨e', he', rfl⟩ := List.mem_map.1 he
      exact hothers e' (hengines e' (mem_allEngines_of_other he'))

/-- Data memory and tables of the invariant. -/
theorem MachineInv.memory_tables (h : MachineInv s) :
    (Memory.wf s.mem = true ∧ ∀ c ∈ s.mem, c.1 < 2 ^ s.cfg.aw) ∧
      TableShape s.cfg s.table ∧ (s.tvalid = true → s.table = builtTable s.cfg) := by
  obtain ⟨-, -, hwf, haddr, hshape, hbuilt, -⟩ := h
  exact ⟨⟨hwf, haddr⟩, hshape, hbuilt⟩

/-- A change of the addressed engine alone keeps the invariant when it keeps that engine in order. -/
theorem MachineInv.of_sameBlock (h : MachineInv s) (hb : SameBlock s t) (heng : EngineInv s t.eng) : MachineInv t := by
  obtain ⟨hmem, htable⟩ := h.memory_tables
  exact h.of_map id hb.cfg (by simp [hb.before]) (by simp [hb.after]) (hb.mem ▸ hmem) (hb.table ▸ hb.tvalid ▸ htable)
    (fun _ he => he.keep hb.keepsBuilt) (heng.keep hb.keepsBuilt)

theorem MachineInv.focus {k : Nat} (hu : focus k s = some t) (h : MachineInv s) : MachineInv t := by
  obtain ⟨-, hall, -, ht⟩ := focus_cases hu
  unfold MachineInv
  rw [hall, ht]
  exact h

/-! ### Steps of TBLINIT -/

/-- The next row is built, and every row that was built, the rows of a built table included, is as it was. -/
theorem tickTblinit_row_machineInv {r : Nat} (h : MachineInv s) (hc : s.eng.ctrl = .busy (.tblinit r))
    (hr : r < rowsOf s.cfg.level) :
    MachineInv (setBusy (.tblinit (r + 1)) { s with table := s.table.set r (buildRow s.table r) }) := by
  obtain ⟨hmem, hshape, hbuilt⟩ := h.memory_tables
  obtain ⟨-, hrows⟩ := (jobInv_tblinit_iff hc).1 h.engineInv.jobInv
  have hset : ∀ k, k = r ∨ s.table.getD k [] = builtRow k →
      (s.table.set r (buildRow s.table r)).getD k [] = builtRow k :=
    fun _ => getD_set_buildRow (hshape.1 ▸ hr) hrows
  have hshape' : TableShape s.cfg (s.table.set r (buildRow s.table r)) :=
    hshape.set_row r (by rw [buildRow_eq_builtRow hrows, builtRow_length])
  have hbuilt' (hv : s.tvalid = true) : s.table.set r (buildRow s.table r) = builtTable s.cfg := by
    rw [hbuilt hv, set_buildRow_builtTable hr]
  have hkeep : KeepsBuilt s (setBusy (.tblinit (r + 1)) { s with table := s.table.set r (buildRow s.table r) }) :=
    ⟨rfl, id, fun k hk => hset k (.inr hk)⟩
  have hnext : ∀ k < r + 1, (s.table.set r (buildRow s.table r)).getD k [] = builtRow k := fun k hk =>
    hset k ((Nat.lt_succ_iff_lt_or_eq.1 hk).elim (fun hk => .inr (hrows k hk)) .inl)
  refine h.of_map id rfl (by simp) (by simp) hmem ⟨hshape', hbuilt'⟩ (fun _ he => he.keep hkeep) ?_
  exact (h.engineInv.keep hkeep).outsideError (by simp [hc]) ⟨rfl, rfl, rfl⟩ h.engineInv.op_lengths nofun
    (by simp [h.engineInv.done_of_not_idle (by simp [hc])]) ((jobInv_tblinit_iff rfl).2 ⟨hr, hnext⟩)

/-- `TVALID` becomes 1 when every row has been passed, so that the tables are the built ones. -/
theorem tickTblinit_complete_machineInv {r : Nat} (h : MachineInv s) (hc : s.eng.ctrl = .busy (.tblinit r))
    (hr : rowsOf s.cfg.level ≤ r) : MachineInv (completeNoResult { s with tvalid := true }) := by
  obtain ⟨hmem, hshape, -⟩ := h.memory_tables
  obtain ⟨-, hrows⟩ := (jobInv_tblinit_iff hc).1 h.engineInv.jobInv
  have hall : s.table = builtTable s.cfg := eq_builtTable hshape.1 fun k hk => hrows k (hk.trans_le hr)
  have hkeep : KeepsBuilt s (completeNoResult { s with tvalid := true }) := ⟨rfl, fun _ => rfl, fun _ => id⟩
  exact h.of_map id rfl (by simp) (by simp) hmem ⟨hshape, fun _ => hall⟩ (fun _ he => he.keep hkeep)
    ((completeNoResult_engineInv h.engineInv (by simp [hc])).keep hkeep)

theorem tickTblinit_machineInv {r : Nat} (h : MachineInv s) (hc : s.eng.ctrl = .busy (.tblinit r)) :
    MachineInv (tickTblinit r s) := by
  rcases tickTblinit_cases r s with ⟨hr, ht⟩ | ⟨hr, ht⟩ <;> rw [ht]
  · exact tickTblinit_row_machineInv h hc hr
  · exact tickTblinit_complete_machineInv h hc hr

/-! ### Every part of a step keeps the invariant -/

theorem tick_machineInv (h : MachineInv s) : MachineInv (tick s) := by
  cases hc : s.eng.ctrl with
  | idle => rwa [tick_idle hc]
  | error => rwa [tick_error hc]
  | busy job =>
    cases job with
    | digest j =>
      rw [tick_digest hc]
      exact h.of_sameBlock (tickDigest_sameBlock j s) (tickDigest_engineInv h.engineInv hc)
    | tblinit r =>
      rw [tick_tblinit hc]
      exact tickTblinit_machineInv h hc
    | combine b =>
      rw [tick_combine hc]
      exact h.of_sameBlock (tickCombine_sameBlock b s) (tickCombine_engineInv h.engineInv hc)

theorem acceptTblinit_machineInv (h : MachineInv s) (hc : s.eng.ctrl = .idle) : MachineInv (acceptTblinit s) := by
  obtain ⟨hmem, htable⟩ := h.memory_tables
  have hkeep : KeepsBuilt s (acceptTblinit s) := ⟨rfl, id, fun _ => id⟩
  exact h.of_map taintReader rfl rfl rfl hmem htable (fun _ he => (taintReader_engineInv he).keep hkeep)
    ((acceptTblinit_engineInv h.engineInv hc).keep hkeep)

theorem beginCommand_machineInv (i : Instr) (hc : s.eng.ctrl = .idle) (h : MachineInv s) :
    MachineInv (beginCommand i s) := by
  cases hk : kernelOf s.cfg.level i with
  | none =>
    rcases eq_tblinit_or_combine_of_kernelOf_none hk with rfl | rfl
    · exact acceptTblinit_machineInv h hc
    · exact h.of_sameBlock (acceptCombine_sameBlock s) (acceptCombine_engineInv h.engineInv hc)
  | some k =>
    rw [beginCommand_digest hk]
    exact h.of_sameBlock (acceptDigest_sameBlock k _ s) (acceptDigest_engineInv k _ h.engineInv hc)

theorem platformStore_machineInv {a : Nat} (b : Byte) (ha : a < 2 ^ s.cfg.aw) (h : MachineInv s) :
    MachineInv (platformStore a b s) := by
  obtain ⟨⟨hwf, haddr⟩, htable⟩ := h.memory_tables
  have hkeep : KeepsBuilt s (platformStore a b s) := ⟨rfl, id, fun _ => id⟩
  have haddr' : ∀ c ∈ memWrite s.mem a b, c.1 < 2 ^ s.cfg.aw := by
    intro c hc
    rcases memWrite_mem hc with rfl | hc
    · exact ha
    · exact haddr c hc
  exact h.of_map (noteStore a (memRead s.mem a)) rfl rfl rfl ⟨memWrite_wf hwf a b, haddr'⟩ htable
    (fun _ he => (noteStore_engineInv _ _ he).keep hkeep) ((noteStore_engineInv _ _ h.engineInv).keep hkeep)

theorem resetAll_machineInv (h : MachineInv s) : MachineInv (resetAll s) :=
  h.of_map (fun _ => Engine.reset) rfl rfl rfl h.memory_tables.1 ⟨blankTable_shape s.cfg, nofun⟩
    (fun _ _ => reset_engineInv _) (reset_engineInv _)

theorem machineInv_keptByParts : KeptByParts MachineInv where
  focus hu h := h.focus hu
  pending _ h := h
  tick h := tick_machineInv h
  beginCommand i hc h := beginCommand_machineInv i hc h
  refuseWord w _ h := h.of_sameBlock (refuseWord_sameBlock w _) (raiseError_engineInv _ _ h.engineInv)
  hostWrite r v h := h.of_sameBlock (hostWrite_sameBlock r v _) (hostWrite_engineInv r v h.engineInv)
  hostRead _ h := h
  platformStore b ha h := platformStore_machineInv b ha h
  resetAll h := resetAll_machineInv h

end

/-- Settles O56: every part of a step keeps the invariant; the one that shows what the tables hold is TBLINIT's row
recurrence. -/
theorem stepKeepsInvariant : Obligations.StepKeepsInvariant := by
  unfold Obligations.StepKeepsInvariant
  exact fun _ _ hs h => machineInv_keptByParts.step h hs

end Sys2Proof.Machine

/-! Proofs of the statements of 10_state.md: the stream position, the registers, what commands and steps leave
unchanged. -/

namespace Sys2Proof.Machine

/-! ### Runs of bit steps -/

theorem bitstep_iterate_xor (n : Nat) (a b : Word) : bitstep^[n] (a ^^^ b) = bitstep^[n] a ^^^ bitstep^[n] b :=
  (Function.Semiconj₂.iterate bitstep_xor n).eq a b

/-- Bit steps on a word with as many low zeros only shift. -/
theorem bitstep_iterate_of_low_zeros {n : Nat} {c : Word} (h : ∀ i < n, c.getLsbD i = false) :
    bitstep^[n] c = c >>> n := by
  induction n generalizing c with
  | zero => simp
  | succ n ih =>
    have hc : bitstep c = c >>> 1 := by rw [bitstep_eq_ite, h 0 n.succ_pos]; rfl
    have hlow : ∀ i < n, (c >>> 1).getLsbD i = false := fun i hi => by
      rw [BitVec.getLsbD_ushiftRight]
      exact h (1 + i) (by omega)
    rw [Function.iterate_succ_apply, hc, ih hlow, ← BitVec.shiftRight_add, Nat.add_comm]

/-- `n` bit steps act on the low `n` bits and shift the others. -/
theorem bitstep_iterate_split (n : Nat) (c : Word) :
    bitstep^[n] c = c >>> n ^^^ bitstep^[n] ((c.extractLsb' 0 n).setWidth 32) := by
  set low : Word := (c.extractLsb' 0 n).setWidth 32 with hlow
  have hlowBit (i : Nat) : low.getLsbD i = (decide (i < n) && c.getLsbD i) := by
    by_cases hi : i < 32
    · simp [hlow, hi]
    · simp [BitVec.getLsbD_of_ge _ i (Nat.not_lt.1 hi)]
  have hhigh : bitstep^[n] (c ^^^ low) = c >>> n := by
    rw [bitstep_iterate_of_low_zeros fun i hi => by simp [hlowBit, hi]]
    ext i hi
    simp [← BitVec.getLsbD_eq_getElem, hlowBit]
  rw [← hhigh, ← bitstep_iterate_xor, BitVec.xor_assoc, BitVec.xor_self, BitVec.xor_zero]

theorem bitstep_iterate_eight (c : Word) : bitstep^[8] c = c >>> 8 ^^^ row0 (byteOf 0 c) := bitstep_iterate_split 8 c

/-! ### The byte step -/

/-- The byte enters the low eight bits, then eight bit steps (R107, R112). -/
theorem bytestep_eq_bitstep (c : Word) (b : Byte) : bytestep c b = bitstep^[8] (c ^^^ b.setWidth 32) := by
  have hbyte : (b.setWidth 32 : Word) >>> 8 = 0 := by
    ext i hi
    simp [← BitVec.getLsbD_eq_getElem]
  rw [bytestep, bitstep_iterate_eight, BitVec.ushiftRight_xor_distrib, hbyte]
  simp

theorem zbyte_eq_bitstep (c : Word) : zbyte c = bitstep^[8] c := by
  rw [zbyte, bytestep_eq_bitstep]
  simp

theorem zbyte_eq (c : Word) : zbyte c = c >>> 8 ^^^ row0 (byteOf 0 c) := by
  rw [zbyte_eq_bitstep, bitstep_iterate_eight]

theorem bytestep_eq_zbyte (c : Word) (b : Byte) : bytestep c b = zbyte (c ^^^ b.setWidth 32) := by
  rw [bytestep_eq_bitstep, zbyte_eq_bitstep]

theorem bytestep_eq_zbyte_xor (c : Word) (b : Byte) : bytestep c b = zbyte c ^^^ row0 b := by
  rw [bytestep_eq_bitstep, bitstep_iterate_xor, ← zbyte_eq_bitstep, row0]

theorem zbyte_xor (a b : Word) : zbyte (a ^^^ b) = zbyte a ^^^ zbyte b := by
  simp only [zbyte_eq_bitstep, bitstep_iterate_xor]

theorem zbyte_iterate_xor (n : Nat) (a b : Word) : zbyte^[n] (a ^^^ b) = zbyte^[n] a ^^^ zbyte^[n] b :=
  (Function.Semiconj₂.iterate zbyte_xor n).eq a b

/-! ### The five byte steps (R107 to R113) -/

theorem halfTable_eq_bitstep (i : BitVec 4) : halfTable i = bitstep^[4] (i.setWidth 32) := by
  revert i
  decide

/-- Settles O21: both equations compared at the sixteen indices. -/
theorem halfTableValues : Obligations.HalfTableValues := by
  unfold Obligations.HalfTableValues
  exact fun i => ⟨halfTable_eq_bitstep i, by revert i; decide⟩

theorem bitstep_iterate_four (c : Word) : bitstep^[4] c = halfTable (c.extractLsb' 0 4) ^^^ c >>> 4 := by
  rw [bitstep_iterate_split, halfTable_eq_bitstep, BitVec.xor_comm]

theorem stepHalf_eq_bytestep (c : Word) (b : Byte) : stepHalf c b = bytestep c b := by
  have hb : (b.setWidth 32 : Word) >>> 4 = (b >>> 4).setWidth 32 := by
    ext i hi
    simp [← BitVec.getLsbD_eq_getElem]
  have hb' : ((b >>> 4).setWidth 32 : Word) >>> 4 = 0#32 := by
    ext i hi
    simp [← BitVec.getLsbD_eq_getElem]
  rw [bytestep_eq_bitstep, Function.iterate_add_apply bitstep 4 4, bitstep_iterate_four (c ^^^ _),
    BitVec.ushiftRight_xor_distrib, hb, ← BitVec.xor_assoc, bitstep_iterate_four, BitVec.ushiftRight_xor_distrib, hb',
    BitVec.xor_zero]
  rfl

theorem t0Shift_eq_row0 (s : Byte) : t0Shift s = row0 s := by
  revert s
  decide

theorem t0Sum_eq_row0 (s : Byte) : t0Sum s = row0 s := by
  revert s
  decide

theorem stepTl1_eq_bytestep (c : Word) (b : Byte) : stepTl1 c b = bytestep c b := by
  rw [stepTl1, t0Shift_eq_row0, bytestep]

theorem stepTl2_eq_bytestep (c : Word) (b : Byte) : stepTl2 c b = bytestep c b := by
  rw [stepTl2, t0Sum_eq_row0, bytestep]

theorem stepB1_eq_bytestep {t : Nat → Byte → Word} (h : ∀ i, t 0 i = row0 i) (c : Word) (b : Byte) :
    stepB1 t c b = bytestep c b := by
  rw [stepB1, h, bytestep]

/-! ### Four bytes at once (R127) -/

theorem byteOf_shiftRight (k : Nat) (v : Word) : byteOf k (v >>> 8) = byteOf (k + 1) v := by
  ext i hi
  simp [byteOf, Nat.mul_add, ← Nat.add_assoc, Nat.add_comm]

/-- Zero-byte steps on a word, by its bytes (R98). -/
theorem zbyte_iterate_word (m : Nat) (v : Word) : zbyte^[m + 4] v =
    rowValue (m + 3) (byteOf 0 v) ^^^ rowValue (m + 2) (byteOf 1 v) ^^^ rowValue (m + 1) (byteOf 2 v) ^^^
      rowValue m (byteOf 3 v) := by
  have hstep (n : Nat) (v : Word) : zbyte^[n + 1] v = rowValue n (byteOf 0 v) ^^^ zbyte^[n] (v >>> 8) := by
    rw [Function.iterate_succ_apply, zbyte_eq, zbyte_iterate_xor, BitVec.xor_comm, rowValue]
  have hzero : zbyte^[m] (v >>> 8 >>> 8 >>> 8 >>> 8) = 0#32 := by
    have hv : v >>> 8 >>> 8 >>> 8 >>> 8 = 0#32 := by
      ext i hi
      simp
    rw [hv]
    exact Function.iterate_fixed (by decide) m
  rw [hstep, hstep, hstep, hstep, hzero, BitVec.xor_zero]
  simp only [byteOf_shiftRight, BitVec.xor_assoc]

/-- Four byte steps are four zero-byte steps after the bytes have entered the accumulator. -/
theorem regAfter_four (c : Word) (b0 b1 b2 b3 : Byte) :
    regAfter c [b0, b1, b2, b3] = zbyte^[4] (c ^^^ assemble false b0 b1 b2 b3) := by
  obtain ⟨h0, h1, h2, h3⟩ := byteOf_assemble_le b0 b1 b2 b3
  rw [zbyte_iterate_xor, zbyte_iterate_word 0 (assemble ..), h0, h1, h2, h3]
  simp only [regAfter, bytestep_eq_zbyte_xor, rowValue, Function.iterate_succ_apply, Function.iterate_zero_apply, zbyte_xor,
    BitVec.xor_assoc]

/-- A block step of slicing-by-4 over built rows is four byte steps (R127, R128). -/
theorem blockS4_eq_regAfter {t : Nat → Byte → Word} (h : ∀ r < 4, ∀ i, t r i = rowValue r i) (c : Word)
    (b0 b1 b2 b3 : Byte) : blockS4 t c (assemble false b0 b1 b2 b3) = regAfter c [b0, b1, b2, b3] := by
  rw [regAfter_four, BitVec.xor_comm c, zbyte_iterate_word 0]
  simp [blockS4, h]

theorem regAfter_append (c : Word) (a b : List Byte) : regAfter c (a ++ b) = regAfter (regAfter c a) b := by
  induction a generalizing c with
  | nil => rfl
  | cons x a ih => exact ih (bytestep c x)

/-- Eight byte steps likewise, the first word four bytes further from the end. -/
theorem regAfter_eight (c : Word) (b0 b1 b2 b3 b4 b5 b6 b7 : Byte) : regAfter c [b0, b1, b2, b3, b4, b5, b6, b7] =
    zbyte^[8] (c ^^^ assemble false b0 b1 b2 b3) ^^^ zbyte^[4] (assemble false b4 b5 b6 b7) := by
  have hsplit := regAfter_append c [b0, b1, b2, b3] [b4, b5, b6, b7]
  rw [regAfter_four, regAfter_four, zbyte_iterate_xor, ← Function.iterate_add_apply] at hsplit
  exact hsplit

/-- A block step of slicing-by-8 over built rows is eight byte steps (R127, R129). -/
theorem blockS8_eq_regAfter {t : Nat → Byte → Word} (h : ∀ r < 8, ∀ i, t r i = rowValue r i) (c : Word)
    (b0 b1 b2 b3 b4 b5 b6 b7 : Byte) :
    blockS8 t c (assemble false b0 b1 b2 b3) (assemble false b4 b5 b6 b7) =
      regAfter c [b0, b1, b2, b3, b4, b5, b6, b7] := by
  rw [regAfter_eight, BitVec.xor_comm c, zbyte_iterate_word 4, zbyte_iterate_word 0]
  simp [blockS8, h, BitVec.xor_assoc]

/-- A block step of slicing-by-16 over built rows is sixteen byte steps (R127, R130). -/
theorem blockS16_eq_regAfter {t : Nat → Byte → Word} (h : ∀ r < 16, ∀ i, t r i = rowValue r i) (c : Word)
    (b0 b1 b2 b3 b4 b5 b6 b7 b8 b9 ba bb bc bd be bf : Byte) :
    blockS16 t c (assemble false b0 b1 b2 b3) (assemble false b4 b5 b6 b7) (assemble false b8 b9 ba bb)
      (assemble false bc bd be bf) = regAfter c [b0, b1, b2, b3, b4, b5, b6, b7, b8, b9, ba, bb, bc, bd, be, bf] := by
  have hsplit := regAfter_append c [b0, b1, b2, b3, b4, b5, b6, b7] [b8, b9, ba, bb, bc, bd, be, bf]
  rw [regAfter_eight c, regAfter_eight, BitVec.xor_comm c, zbyte_iterate_xor 8, zbyte_iterate_xor 8 (zbyte^[8] _),
    ← Function.iterate_add_apply, ← Function.iterate_add_apply, zbyte_iterate_word 12, zbyte_iterate_word 8,
    zbyte_iterate_word 4, zbyte_iterate_word 0] at hsplit
  refine Eq.trans ?_ hsplit.symm
  simp [blockS16, h, BitVec.xor_assoc]

/-! ### A digest that executes normally -/

theorem rangeBytes_add (m : List Host.Cell) (a n k : Nat) :
    rangeBytes m a (n + k) = rangeBytes m a n ++ rangeBytes m (a + n) k := by
  simp [rangeBytes, List.range_add, Nat.add_assoc]

theorem tableEntry_builtTable {c : Config} {r : Nat} (hr : r < rowsOf c.level) (i : Byte) :
    tableEntry (builtTable c) r i = rowValue r i := by
  rw [tableEntry, builtTable_getD hr, builtRow_getD]

/-- What a running digest with kernel `k` needs of the block to execute normally: no hazard (R61, R212), its rows built
(R84). -/
structure RunsClean (k : Kernel) (j : DigestJob) (s : State) : Prop where
  kernel : s.eng.ksel = k
  stale : j.stale = []
  rows : ∀ r < rowsNeeded k, ∀ i, tableSeen s j r i = rowValue r i

section
variable {k : Kernel} {j : DigestJob} {s : State}

/-- Every kernel's byte step is the byte step of R112. -/
theorem foldByte_eq_bytestep (h : RunsClean k j s) (b : Byte) : foldByte s j b = bytestep s.eng.acc b := by
  obtain ⟨rfl, -, hrows⟩ := h
  unfold foldByte
  cases hk : s.eng.ksel <;> rw [hk] at hrows
  case bit => exact (bytestep_eq_bitstep _ _).symm
  case half => exact stepHalf_eq_bytestep _ _
  case tl1 => exact stepTl1_eq_bytestep _ _
  case tl2 => exact stepTl2_eq_bytestep _ _
  all_goals exact stepB1_eq_bytestep (hrows 0 (by decide)) _ _

/-- A byte step on an admitted byte folds that byte (R105). -/
theorem takeByte_eq_regAfter (h : RunsClean k j s) (hadm : admitted s.cfg s.eng.pos = true) :
    takeByte s j = .ok (regAfter s.eng.acc (rangeBytes s.mem s.eng.pos 1)) := by
  rw [takeByte, memRead1_clean h.stale, if_pos hadm]
  exact congrArg _ (foldByte_eq_bytestep h _)

/-- A block step on admitted bytes, with the byte-order flag right, folds them in address order (R125 to R131). -/
theorem takeBlock_eq_regAfter (h : RunsClean k j s) (hbe : s.cfg.cfgBe = s.cfg.platBe)
    (hadm : ∀ q < blockBytes k, admitted s.cfg (s.eng.pos + q) = true) :
    takeBlock s j = .ok (regAfter s.eng.acc (rangeBytes s.mem s.eng.pos (blockBytes k))) := by
  obtain ⟨rfl, hstale, hrows⟩ := h
  have hfetch (p : Nat) (hp : p + 4 ≤ blockBytes s.eng.ksel) : fetchWord s j (s.eng.pos + p) =
      .ok (assemble false (memRead s.mem (s.eng.pos + p)) (memRead s.mem (s.eng.pos + p + 1))
        (memRead s.mem (s.eng.pos + p + 2)) (memRead s.mem (s.eng.pos + p + 3))) := by
    rw [fetchWord_clean hstale fun q hq => ?_, if_pos hbe]
    rw [Nat.add_assoc]
    exact hadm _ (by omega)
  have hf0 := hfetch 0
  rw [Nat.add_zero s.eng.pos] at hf0
  unfold takeBlock
  cases hk : s.eng.ksel <;> rw [hk] at hrows hfetch hf0
  case s4 =>
    simp only [takeS4, hf0 (by decide)]
    exact congrArg _ (blockS4_eq_regAfter hrows ..)
  case s8 =>
    simp only [takeS8, hf0 (by decide), hfetch 4 (by decide)]
    exact congrArg _ (blockS8_eq_regAfter hrows ..)
  case s16 =>
    simp only [takeS16, hf0 (by decide), hfetch 4 (by decide), hfetch 8 (by decide), hfetch 12 (by decide)]
    exact congrArg _ (blockS16_eq_regAfter hrows ..)
  case s16p =>
    simp only [takeS16p, prefetchHint, ite_self, hf0 (by decide), hfetch 4 (by decide), hfetch 8 (by decide),
      hfetch 12 (by decide)]
    exact congrArg _ (blockS16_eq_regAfter hrows ..)
  all_goals rfl

end

/-- The latched range of a digest on the addressed engine that no hazard has touched (R81). -/
def cleanJob (s : State) : DigestJob :=
  { first := s.eng.ptr.toNat, stop := s.eng.ptr.toNat + s.eng.len.toNat, stale := [], tainted := false }

/-- The state of a digest with kernel `k`, accepted in `s`, that has folded the first `n` bytes of its range. -/
def digestAt (s : State) (k : Kernel) (n : Nat) : State :=
  { s with eng := { s.eng with
      ctrl := .busy (.digest (cleanJob s))
      done := false
      ksel := k
      acc := regAfter (~~~s.eng.opa) (rangeBytes s.mem s.eng.ptr.toNat n)
      pos := s.eng.ptr.toNat + n
      rem := s.eng.len - BitVec.ofNat 64 n } }

section
variable {k : Kernel} {s : State} {n : Nat}

/-- Acceptance with no TBLINIT running beside a table-driven kernel: no byte is folded yet (R81). -/
theorem beginCommand_eq_digestAt {i : Instr} (hk : kernelOf s.cfg.level i = some k) (hready : KernelReady k s) :
    beginCommand i s = digestAt s k 0 := by
  obtain ⟨-, hchecks, htable⟩ := hready
  have hclash : (usesTable k && (otherEngines s).any Engine.isBuilding) = false := by
    by_cases hpos : 0 < rowsNeeded k
    · simpa [usesTable, hpos, NoBuilder] using (htable hpos).2
    · simp [usesTable, hpos]
  rw [beginCommand_checksPass hk hchecks]
  simp only [latchDigest, digestAt]
  rw [show otherEngines (clearDone s) = otherEngines s from rfl, hclash]
  simp [setBusy, mapEng, clearDone, rangeBytes, regAfter, cleanJob]

theorem digestAt_rem_toNat (hn : n ≤ s.eng.len.toNat) : (digestAt s k n).eng.rem.toNat = s.eng.len.toNat - n := by
  have hn64 : (BitVec.ofNat 64 n).toNat = n := Nat.mod_eq_of_lt (hn.trans_lt s.eng.len.isLt)
  show (s.eng.len - BitVec.ofNat 64 n).toNat = _
  rw [BitVec.toNat_sub_of_le (by rwa [BitVec.le_def, hn64]), hn64]

theorem digestAt_runsClean (hready : KernelReady k s) : RunsClean k (cleanJob s) (digestAt s k n) := by
  obtain ⟨-, ⟨hrows, -⟩, htable⟩ := hready
  refine ⟨rfl, rfl, fun r hr i => ?_⟩
  rw [tableSeen_clean rfl, show (digestAt s k n).table = s.table from rfl, (htable (by omega)).1]
  exact tableEntry_builtTable (hr.trans_le hrows) i

/-- Folding `m` more bytes (R20). -/
theorem absorb_digestAt (m : Nat) :
    absorb m (.ok (regAfter (digestAt s k n).eng.acc (rangeBytes s.mem (s.eng.ptr.toNat + n) m))) (cleanJob s)
      (digestAt s k n) = digestAt s k (n + m) := by
  have hrem : s.eng.len - BitVec.ofNat 64 n - BitVec.ofNat 64 m = s.eng.len - BitVec.ofNat 64 (n + m) := by
    rw [BitVec.ofNat_add, BitVec.sub_sub]
  simp [absorb, contested, cleanJob, digestAt, rangeBytes_add, regAfter_append, hrem, Nat.add_assoc]

/-- One step of a digest that executes normally: it completes with the digest of its range, or folds more of it. -/
theorem tick_digestAt (hready : KernelReady k s) (hadm : RangeAdmitted s)
    (hbe : blockBytes k = 0 ∨ s.cfg.cfgBe = s.cfg.platBe) (hn : n ≤ s.eng.len.toNat) :
    (n = s.eng.len.toNat ∧ tick (digestAt s k n) = complete (digest (operandBytes s) s.eng.opa) s) ∨
    ∃ m, 0 < m ∧ n + m ≤ s.eng.len.toNat ∧ tick (digestAt s k n) = digestAt s k (n + m) := by
  have hclean := digestAt_runsClean (n := n) hready
  have hrem := digestAt_rem_toNat (k := k) hn
  rw [tick_digest (j := cleanJob s) rfl]
  rcases tickDigest_cases (cleanJob s) (digestAt s k n) with ⟨hzero, ht⟩ | ⟨m, r, -, hpos, hm, -, ht, hr⟩
  · left
    have hleft : 0 = s.eng.len.toNat - n := (congrArg BitVec.toNat hzero).symm.trans hrem
    have hlen : n = s.eng.len.toNat := by omega
    exact ⟨hlen, by rw [ht, hlen]; rfl⟩
  · right
    have hfold : r = .ok (regAfter (digestAt s k n).eng.acc (rangeBytes s.mem (s.eng.ptr.toNat + n) m)) := by
      have hadm' : ∀ q < m, admitted s.cfg (s.eng.ptr.toNat + n + q) = true := fun q hq => by
        rw [Nat.add_assoc]
        exact hadm _ (by omega)
      rcases hr with ⟨rfl, rfl⟩ | ⟨rfl, rfl⟩
      · exact takeBlock_eq_regAfter hclean (hbe.resolve_left hpos.ne') hadm'
      · exact takeByte_eq_regAfter hclean (hadm' 0 Nat.one_pos)
    refine ⟨m, hpos, by omega, ?_⟩
    rw [ht, hfold, absorb_digestAt]

/-- `u` is a point of a digest with kernel `k` that was accepted in `s` and executes normally: it has completed, or folded
a part of its range. -/
def DigestPoint (s : State) (k : Kernel) (u : State) : Prop :=
  u = complete (digest (operandBytes s) s.eng.opa) s ∨ ∃ m ≤ s.eng.len.toNat, u = digestAt s k m

theorem tick_digestPoint (hready : KernelReady k s) (hadm : RangeAdmitted s)
    (hbe : blockBytes k = 0 ∨ s.cfg.cfgBe = s.cfg.platBe) {u : State} (hu : DigestPoint s k u) :
    DigestPoint s k (tick u) := by
  rcases hu with rfl | ⟨m, hm, rfl⟩
  · exact .inl (tick_idle rfl)
  · rcases tick_digestAt hready hadm hbe hm with ⟨-, h⟩ | ⟨q, -, hq, h⟩
    · exact .inl h
    · exact .inr ⟨m + q, hq, h⟩

theorem ticks_digestPoint (hready : KernelReady k s) (hadm : RangeAdmitted s)
    (hbe : blockBytes k = 0 ∨ s.cfg.cfgBe = s.cfg.platBe) (n : Nat) : DigestPoint s k (ticks n (digestAt s k 0)) :=
  ticks_induction (P := DigestPoint s k) (fun _ => tick_digestPoint hready hadm hbe) n (.inr ⟨0, Nat.zero_le _, rfl⟩)

end

/-- Settles O45: a running digest is in `digestAt` of the number of bytes it has folded. -/
theorem streamPosition : Obligations.StreamPosition := by
  unfold Obligations.StreamPosition
  intro s i k n hk hready hadm hbe hbusy
  rw [beginCommand_eq_digestAt hk hready] at hbusy ⊢
  rcases ticks_digestPoint hready hadm hbe n with h | ⟨m, hm, h⟩ <;> rw [h] at hbusy ⊢
  · cases hbusy
  · have hpos : (digestAt s k m).eng.pos - s.eng.ptr.toNat = m := Nat.add_sub_cancel_left ..
    refine ⟨Nat.le_add_right .., ?_, ?_⟩
    · rw [hpos, digestAt_rem_toNat hm, Nat.add_sub_cancel' hm]
    · rw [hpos]
      rfl

/-! ### STATUS (R27) -/

/-- A field of a 32-bit register, bit by bit. -/
theorem field_getLsbD {w : Nat} (b : BitVec w) {k : Nat} (hw : k + w ≤ 32) (i : Nat) :
    (b.setWidth 32 <<< k : Word).getLsbD i = (decide (k ≤ i) && b.getLsbD (i - k)) := by
  simp only [BitVec.getLsbD_shiftLeft, BitVec.getLsbD_setWidth]
  by_cases hi : i - k < w
  · by_cases hk : k ≤ i
    · simp [hk, (by omega : i < 32), (by omega : i - k < 32)]
    · simp [hk, Nat.lt_of_not_le hk]
  · simp [BitVec.getLsbD_of_ge b _ (Nat.le_of_not_lt hi)]

theorem statusWord_getLsbD (s : State) (i : Nat) : (statusWord s).getLsbD i =
    (decide (i = 0) && s.eng.isBusy || decide (i = 1) && s.eng.done || decide (i = 2) && decide (s.eng.ctrl = .error) ||
      decide (i = 3) && s.tvalid || decide (4 ≤ i) && s.eng.ecode.getLsbD (i - 4)) := by
  simp only [statusWord, BitVec.getLsbD_or, flagAt_getLsbD 0 _ _ (by decide), flagAt_getLsbD 1 _ _ (by decide),
    flagAt_getLsbD 2 _ _ (by decide), flagAt_getLsbD 3 _ _ (by decide), field_getLsbD s.eng.ecode (by decide : 4 + 4 ≤ 32)]

theorem statusWord_flags (s : State) : (statusWord s).getLsbD 0 = s.eng.isBusy ∧ (statusWord s).getLsbD 1 = s.eng.done ∧
    (statusWord s).getLsbD 2 = decide (s.eng.ctrl = .error) ∧ (statusWord s).getLsbD 3 = s.tvalid := by
  simp only [statusWord_getLsbD]
  simp

theorem statusWord_ecode (s : State) : (statusWord s).extractLsb' 4 4 = s.eng.ecode := by
  refine BitVec.eq_of_getLsbD_eq fun i hi => ?_
  rw [BitVec.getLsbD_extractLsb', statusWord_getLsbD]
  have hbit : 4 + i ≠ 1 ∧ 4 + i ≠ 2 ∧ 4 + i ≠ 3 := by omega
  simp [hi, hbit]

theorem statusWord_high (s : State) : (statusWord s).extractLsb' 8 24 = 0 := by
  refine BitVec.eq_of_getLsbD_eq fun i hi => ?_
  rw [BitVec.getLsbD_extractLsb', statusWord_getLsbD, BitVec.getLsbD_of_ge s.eng.ecode _ (by omega)]
  have hbit : 8 + i ≠ 1 ∧ 8 + i ≠ 2 ∧ 8 + i ≠ 3 := by omega
  simp [hbit]

/-- At most one of `BUSY`, `DONE` and `ERR`: the first and the last name values of `STATE`, and `DONE` is only set in
`IDLE` (R27). -/
theorem EngineInv.flags_exclusive {s : State} {e : Engine} (h : EngineInv s e) :
    ¬(e.isBusy = true ∧ e.done = true) ∧ ¬(e.isBusy = true ∧ e.ctrl = .error) ∧ ¬(e.done = true ∧ e.ctrl = .error) := by
  obtain ⟨-, hdone, -⟩ := h
  refine ⟨fun ⟨hbusy, hd⟩ => ?_, fun ⟨hbusy, herr⟩ => ?_, fun ⟨hd, herr⟩ => ?_⟩
  · simp [Engine.isBusy, hdone hd] at hbusy
  · simp [Engine.isBusy, herr] at hbusy
  · cases herr.symm.trans (hdone hd)

theorem statusWord_resetWith (c : Config) : statusWord (State.resetWith c) = 0 := by
  simp [statusWord, State.resetWith, Engine.reset, Engine.isBusy, flagAt]

/-- Settles O14: the fields bit by bit; `DONE` only in `IDLE` and `ECODE` only in `ERROR` are the engine's invariant. -/
theorem statusFields : Obligations.StatusFields := by
  unfold Obligations.StatusFields
  refine ⟨fun s => ?_, fun s h => ?_, statusWord_resetWith⟩
  · obtain ⟨hbusy, hdone, herr, hvalid⟩ := statusWord_flags s
    exact ⟨hbusy, hdone, herr, hvalid, statusWord_ecode s, statusWord_high s, fun _ => rfl⟩
  · obtain ⟨hbusy, hdone, herr, -⟩ := statusWord_flags s
    have hinv := h.engineInv
    obtain ⟨hbd, hbe, hde⟩ := hinv.flags_exclusive
    obtain ⟨-, -, hcode, -⟩ := hinv
    rw [hbusy, hdone, herr, statusWord_ecode, decide_eq_true_iff, decide_eq_false_iff_not]
    exact ⟨hbd, hbe, hde, hcode.2⟩

/-! ### CONFIG (R28) -/

theorem levelCode_lt (l : TableLevel) : levelCode l < 2 ^ 3 := by
  cases l <;> decide

theorem configWord_getLsbD (c : Config) {i : Nat} (hi : i < 32) : (configWord c).getLsbD i =
    (decide (i < 3) && (levelCode c.level).testBit i || decide (i = 3) && c.cfgBe ||
      !decide (i < 8) && (min c.prefetchAhead (2 ^ 24 - 1)).testBit (i - 8)) := by
  have hlevel : (levelCode c.level).testBit i = (decide (i < 3) && (levelCode c.level).testBit i) := by
    by_cases h : i < 3
    · simp [h]
    · have hpow : 2 ^ 3 ≤ 2 ^ i := Nat.pow_le_pow_right (by decide) (not_lt.1 h)
      simp [h, Nat.testBit_lt_two_pow ((levelCode_lt c.level).trans_le hpow)]
  simp only [configWord, BitVec.getLsbD_or, flagAt_getLsbD _ _ _ (by decide : 3 < 32), BitVec.getLsbD_shiftLeft,
    BitVec.getLsbD_ofNat, ← hlevel]
  have h8 : i - 8 < 32 := by omega
  simp [hi, h8]

theorem configWord_level (c : Config) : (configWord c).extractLsb' 0 3 = BitVec.ofNat 3 (levelCode c.level) := by
  refine BitVec.eq_of_getLsbD_eq fun i hi => ?_
  rw [BitVec.getLsbD_extractLsb', configWord_getLsbD c (by omega), BitVec.getLsbD_ofNat]
  have h3 : i ≠ 3 := by omega
  have h8 : i < 8 := by omega
  simp [hi, h3, h8]

theorem configWord_zeros (c : Config) : (configWord c).extractLsb' 4 4 = 0 := by
  refine BitVec.eq_of_getLsbD_eq fun i hi => ?_
  rw [BitVec.getLsbD_extractLsb', configWord_getLsbD c (by omega)]
  have hbit : ¬4 + i < 3 ∧ 4 + i ≠ 3 ∧ 4 + i < 8 := by omega
  simp [hbit]

theorem configWord_prefetchAhead (c : Config) :
    ((configWord c).extractLsb' 8 24).toNat = min c.prefetchAhead (2 ^ 24 - 1) := by
  have hfield : (configWord c).extractLsb' 8 24 = BitVec.ofNat 24 (min c.prefetchAhead (2 ^ 24 - 1)) := by
    refine BitVec.eq_of_getLsbD_eq fun i hi => ?_
    rw [BitVec.getLsbD_extractLsb', configWord_getLsbD c (by omega), BitVec.getLsbD_ofNat]
    have h3 : ¬8 + i < 3 ∧ 8 + i ≠ 3 := by omega
    simp [hi, h3]
  rw [hfield, BitVec.toNat_ofNat, Nat.mod_eq_of_lt (by omega)]

/-- Settles O15: the fields bit by bit; no part of an action changes the parameters. -/
theorem configFields : Obligations.ConfigFields := by
  unfold Obligations.ConfigFields
  refine ⟨fun c => ⟨?_, ?_, configWord_zeros c, configWord_prefetchAhead c⟩, fun _ _ => rfl, fun a s t h => ?_⟩
  · rw [configWord_level]
    cases c.level <;> rfl
  · rw [configWord_getLsbD c (by decide)]
    simp
  · rw [((sameParams_keptByParts s).perform h .rfl).1]

/-! ### Reset and the host's view -/

theorem resetWith_engines {c : Config} {e : Engine} (h : e ∈ allEngines (State.resetWith c)) : e = Engine.reset := by
  rcases List.mem_cons.1 h with rfl | h
  · rfl
  · exact List.eq_of_mem_replicate h

/-- Settles O12: every engine is the reset engine. -/
theorem resetValues : Obligations.ResetValues := by
  unfold Obligations.ResetValues
  intro c e he
  rw [resetWith_engines he]
  exact ⟨rfl, rfl, rfl, rfl, rfl, statusWord_resetWith c, rfl⟩

theorem resetWith_machineInv {c : Config} (h : c.wf = true) : MachineInv (State.resetWith c) := by
  have hneng : 1 ≤ c.neng := by
    simp only [Config.wf, Bool.and_eq_true, decide_eq_true_eq] at h
    omega
  refine ⟨h, ?_, rfl, nofun, blankTable_shape c, nofun, fun e he => ?_⟩
  · show (List.replicate (c.neng - 1) Engine.reset).length + 1 = c.neng
    rw [List.length_replicate, Nat.sub_add_cancel hneng]
  · rw [resetWith_engines he]
    exact reset_engineInv _

/-- Settles O55: a reset engine is in order and blank tables have their shape. -/
theorem resetMeetsInvariant : Obligations.ResetMeetsInvariant := by
  unfold Obligations.ResetMeetsInvariant
  exact ⟨fun c => resetWith_machineInv, resetWith_machineInv (by decide)⟩

/-- Settles O11, field by field. -/
theorem completionWritesResult : Obligations.CompletionWritesResult := by
  unfold Obligations.CompletionWritesResult
  intro r s
  simp

/-- Settles O3: the event at the head is performed on the engine it addresses, and a write of `CMD` is an `Issue`. -/
theorem stepRunsDecodedCommand : Obligations.StepRunsDecodedCommand := by
  unfold Obligations.StepRunsDecodedCommand
  intro s t k v es i hpending hfocus hdecode
  simp only [step, hpending, performEvent, hfocus, perform, issueWord, hdecode]

theorem regOfIndex_of_eight_lt {k : Nat} (h : 8 < k) : regOfIndex k = none := by
  obtain ⟨m, rfl⟩ := Nat.exists_eq_add_of_le h
  rw [Nat.add_comm]
  rfl

theorem truncAddr_toNat (c : Config) (v : DWord) : (truncAddr c v).toNat = v.toNat % 2 ^ c.aw := by
  rw [truncAddr, BitVec.toNat_ofNat, Nat.mod_eq_of_lt ((Nat.mod_le ..).trans_lt v.isLt)]

/-- Settles O16: writes and reads by register; only `PTR` truncates to a width that is not the register's own. -/
theorem hostRegisterAccess : Obligations.HostRegisterAccess := by
  unfold Obligations.HostRegisterAccess
  refine ⟨⟨rfl, rfl, rfl, rfl, rfl, rfl, rfl, rfl, rfl, fun k => regOfIndex_of_eight_lt, fun k r v h => ?_⟩,
    fun s v => ⟨rfl, rfl, rfl, ⟨_, truncAddr_toNat s.cfg v, rfl⟩, rfl, rfl, fun r => ⟨_, rfl, rfl, ?_⟩⟩⟩
  · rw [writeNumber, h]
    rfl
  · cases r with
    | res =>
      simp only [hostRead_rdata, hostReadValue]
      split <;> rfl
    | opa | opb | ptr | len | cmd | status | config | einfo => rfl

/-! ### Operand writes beside a running command -/

/-- `s` with the operand registers of the addressed engine set. -/
def setOperands (opa opb : Word) (ptr len : DWord) (s : State) : State :=
  mapEng (fun e => { e with opa := opa, opb := opb, ptr := ptr, len := len }) s

section
variable (opa opb : Word) (ptr len : DWord) (s : State)

theorem fetchWord_setOperands (j : DigestJob) (a : Nat) :
    fetchWord (setOperands opa opb ptr len s) j a = fetchWord s j a := rfl

theorem takeS16p_setOperands (j : DigestJob) : takeS16p (setOperands opa opb ptr len s) j = takeS16p s j := by
  simp only [takeS16p, prefetchHint, ite_self, fetchWord_setOperands]
  rfl

theorem takeBlock_setOperands (j : DigestJob) : takeBlock (setOperands opa opb ptr len s) j = takeBlock s j := by
  unfold takeBlock
  rw [takeS16p_setOperands]
  rfl

theorem takeByte_setOperands (j : DigestJob) : takeByte (setOperands opa opb ptr len s) j = takeByte s j := rfl

theorem absorb_setOperands (n : Nat) (r : Except Nat Word) (j : DigestJob) :
    absorb n r j (setOperands opa opb ptr len s) = setOperands opa opb ptr len (absorb n r j s) := by
  cases r <;> rfl

theorem tickDigest_setOperands (j : DigestJob) :
    tickDigest j (setOperands opa opb ptr len s) = setOperands opa opb ptr len (tickDigest j s) := by
  unfold tickDigest
  rw [takeBlock_setOperands, takeByte_setOperands, absorb_setOperands, absorb_setOperands,
    apply_ite (setOperands opa opb ptr len), apply_ite (setOperands opa opb ptr len)]
  rfl

theorem tickTblinit_setOperands (r : Nat) :
    tickTblinit r (setOperands opa opb ptr len s) = setOperands opa opb ptr len (tickTblinit r s) := by
  unfold tickTblinit
  rw [apply_ite (setOperands opa opb ptr len)]
  rfl

theorem tickCombine_setOperands (b : Bool) :
    tickCombine b (setOperands opa opb ptr len s) = setOperands opa opb ptr len (tickCombine b s) := by
  unfold tickCombine
  simp only [apply_ite (setOperands opa opb ptr len)]
  rfl

/-- No step reads an operand register: the command works on what it has latched (R81). -/
theorem tick_setOperands : tick (setOperands opa opb ptr len s) = setOperands opa opb ptr len (tick s) := by
  have hctrl : (setOperands opa opb ptr len s).eng.ctrl = s.eng.ctrl := rfl
  rcases hc : s.eng.ctrl with _ | (j | r | b) | _
  · rw [tick_idle hc, tick_idle (hctrl.trans hc)]
  · rw [tick_digest hc, tick_digest (hctrl.trans hc), tickDigest_setOperands]
  · rw [tick_tblinit hc, tick_tblinit (hctrl.trans hc), tickTblinit_setOperands]
  · rw [tick_combine hc, tick_combine (hctrl.trans hc), tickCombine_setOperands]
  · rw [tick_error hc, tick_error (hctrl.trans hc)]

end

/-! ### What one step of the addressed engine can do -/

/-- The outcomes of one step from `s`, by what the engine is running. -/
inductive TickOutcome (s : State) : State → Prop
  | waits : s.eng.isBusy = false → TickOutcome s s
  | digests {j r} : s.eng.ctrl = .busy (.digest j) → TickOutcome s (complete r s)
  | faults {j info} : s.eng.ctrl = .busy (.digest j) → TickOutcome s (raiseError .busFault info s)
  | absorbs {j acc pos rem draws} : s.eng.ctrl = .busy (.digest j) →
      TickOutcome s { s with eng := { s.eng with acc := acc, pos := pos, rem := rem }, draws := draws }
  | buildsRow {r} : s.eng.ctrl = .busy (.tblinit r) →
      TickOutcome s (setBusy (.tblinit (r + 1)) { s with table := s.table.set r (buildRow s.table r) })
  | validates {r} : s.eng.ctrl = .busy (.tblinit r) → TickOutcome s (completeNoResult { s with tvalid := true })
  | degenerates : s.eng.ctrl = .busy (.combine false) → s.eng.nb = 0 → TickOutcome s (complete s.eng.va s)
  | buildsOperators : s.eng.ctrl = .busy (.combine false) → s.eng.nb ≠ 0 →
      TickOutcome s (setBusy (.combine true) (mapEng buildOperators s))
  | iterates : s.eng.ctrl = .busy (.combine true) → TickOutcome s (mapEng combineIteration s)
  | combines {r} : s.eng.ctrl = .busy (.combine true) → TickOutcome s (completeCombine r s)

theorem tick_outcome (s : State) : TickOutcome s (tick s) := by
  rcases hc : s.eng.ctrl with _ | (j | r | b) | _
  · rw [tick_idle hc]
    exact .waits (by simp [Engine.isBusy, hc])
  · rw [tick_digest hc]
    rcases tickDigest_cases j s with ⟨-, h⟩ | ⟨n, r, -, -, -, -, h, -⟩ <;> rw [h]
    · exact .digests hc
    · rcases absorb_cases n r j s with ⟨a, -, h⟩ | ⟨c, -, h⟩ <;> rw [h]
      · exact .faults hc
      · exact .absorbs hc
  · rw [tick_tblinit hc]
    rcases tickTblinit_cases r s with ⟨-, h⟩ | ⟨-, h⟩ <;> rw [h]
    · exact .buildsRow hc
    · exact .validates hc
  · rw [tick_combine hc]
    rcases tickCombine_cases b s with ⟨rfl, hnb, h⟩ | ⟨rfl, hnb, h⟩ | ⟨rfl, -, h⟩ | ⟨rfl, -, h⟩ <;> rw [h]
    · exact .degenerates hc hnb
    · exact .buildsOperators hc hnb
    · exact .combines hc
    · exact .iterates hc
  · rw [tick_error hc]
    exact .waits (by simp [Engine.isBusy, hc])

/-! ### What steps and commands leave unchanged -/

/-- From `s` to `t` no operand register (R16), no byte of data memory (R51), no parameter and nothing of the outside
world changes, and an engine that ends without error had none and keeps `ECODE` and `EINFO` (R29, R190). -/
structure CommandKeeps (s t : State) : Prop where
  opa : t.eng.opa = s.eng.opa
  opb : t.eng.opb = s.eng.opb
  ptr : t.eng.ptr = s.eng.ptr
  len : t.eng.len = s.eng.len
  cfg : t.cfg = s.cfg
  mem : t.mem = s.mem
  pending : t.pending = s.pending
  rdata : t.rdata = s.rdata
  codes : t.eng.ctrl ≠ .error → s.eng.ctrl ≠ .error ∧ t.eng.ecode = s.eng.ecode ∧ t.eng.einfo = s.eng.einfo

theorem CommandKeeps.rfl {s : State} : CommandKeeps s s := by
  constructor <;> simp

theorem CommandKeeps.trans {s t u : State} (h : CommandKeeps s t) (h' : CommandKeeps t u) : CommandKeeps s u where
  opa := h'.opa.trans h.opa
  opb := h'.opb.trans h.opb
  ptr := h'.ptr.trans h.ptr
  len := h'.len.trans h.len
  cfg := h'.cfg.trans h.cfg
  mem := h'.mem.trans h.mem
  pending := h'.pending.trans h.pending
  rdata := h'.rdata.trans h.rdata
  codes hu := by
    obtain ⟨ht, hecode', heinfo'⟩ := h'.codes hu
    obtain ⟨hs, hecode, heinfo⟩ := h.codes ht
    exact ⟨hs, hecode'.trans hecode, heinfo'.trans heinfo⟩

section
variable {s t : State}

theorem raiseError_commandKeeps (err : EngineError) (info : DWord) : CommandKeeps s (raiseError err info s) := by
  constructor <;> simp

/-- A step of a command keeps what `CommandKeeps` names, each outcome by its field lemmas. -/
theorem TickOutcome.commandKeeps (h : TickOutcome s t) : CommandKeeps s t := by
  cases h with
  | waits => exact .rfl
  | digests hc | faults hc | absorbs hc | buildsRow hc | validates hc | degenerates hc | combines hc =>
    constructor <;> simp [hc]
  | buildsOperators hc => constructor <;> simp [hc, buildOperators]
  | iterates hc => constructor <;> simp [hc, combineIteration]

theorem tick_commandKeeps (s : State) : CommandKeeps s (tick s) := (tick_outcome s).commandKeeps

/-- A host write is one write of the operand registers, the same one in every state with the operands and the parameters
of `s`. -/
theorem hostWrite_eq_setOperands (r : HostReg) (v : DWord) (h : CommandKeeps s t) : hostWrite r v t =
    setOperands (hostWrite r v s).eng.opa (hostWrite r v s).eng.opb (hostWrite r v s).eng.ptr
      (hostWrite r v s).eng.len t := by
  obtain ⟨hopa, hopb, hptr, hlen, hcfg, -⟩ := h
  cases r <;> simp only [hostWrite, mapEng, setOperands, ← hopa, ← hopb, ← hptr, ← hlen, ← hcfg]

theorem tick_hostWrite (r : HostReg) (v : DWord) (s : State) : tick (hostWrite r v s) = hostWrite r v (tick s) := by
  rw [hostWrite_eq_setOperands r v (tick_commandKeeps s), ← tick_setOperands, ← hostWrite_eq_setOperands r v .rfl]

end

/-- Settles O51: no step reads an operand register. -/
theorem operandWriteDoesNotDisturb : Obligations.OperandWriteDoesNotDisturb := by
  unfold Obligations.OperandWriteDoesNotDisturb
  intro s r v n
  induction n generalizing s with
  | zero => rfl
  | succ n ih => rw [ticks_succ, ticks_succ, tick_hostWrite, ih]

section
variable {s t : State}

/-! ### Acceptance and whole commands, by case -/

/-- What acceptance of a command can do: raise an error, or latch for a digest, a TBLINIT or a COMBINE. -/
theorem beginCommand_cases (i : Instr) (s : State) :
    (∃ err info, i ≠ .tblinit ∧ beginCommand i s = raiseError err info s) ∨
    (∃ k, kernelOf s.cfg.level i = some k ∧ beginCommand i s = latchDigest k (clearDone s)) ∨
    (i = .tblinit ∧ beginCommand i s = latchTblinit (clearDone s)) ∨
    (i = .combine ∧ beginCommand i s = latchCombine (clearDone s)) := by
  cases hk : kernelOf s.cfg.level i with
  | none =>
    rcases eq_tblinit_or_combine_of_kernelOf_none hk with rfl | rfl
    · exact .inr (.inr (.inl ⟨rfl, rfl⟩))
    · exact .inr (.inr (.inr ⟨rfl, rfl⟩))
  | some k =>
    have hi : i ≠ .tblinit := by rintro rfl; cases hk
    rw [beginCommand_digest hk]
    rcases acceptDigest_cases k (encode i) s with ⟨-, h⟩ | ⟨-, -, -, h⟩ | ⟨-, h⟩
    · exact .inl ⟨_, _, hi, h⟩
    · exact .inl ⟨_, _, hi, h⟩
    · exact .inr (.inl ⟨k, rfl, h⟩)

/-- A whole command is ignored, or accepted in `IDLE` and then run (R80, R83). -/
theorem exec_next_cases {i : Instr} (h : exec i s = .next t) :
    t = s ∨ s.eng.ctrl = .idle ∧ ∃ n, t = ticks n (beginCommand i s) := by
  rw [exec_eq, issueWhole] at h
  by_cases hidle : s.eng.ctrl = .idle
  · rw [whenIdle_of_idle _ hidle] at h
    cases h
    exact .inr ⟨hidle, _, rfl⟩
  · rw [whenIdle_of_not_idle _ hidle] at h
    cases h
    exact .inl rfl

theorem beginCommand_commandKeeps (i : Instr) (hc : s.eng.ctrl ≠ .error) : CommandKeeps s (beginCommand i s) := by
  rcases beginCommand_cases i s with ⟨err, info, -, h⟩ | ⟨k, -, h⟩ | ⟨-, h⟩ | ⟨-, h⟩ <;> rw [h]
  · exact raiseError_commandKeeps err info
  all_goals exact ⟨rfl, rfl, rfl, rfl, rfl, rfl, rfl, rfl, fun _ => ⟨hc, rfl, rfl⟩⟩

theorem ticks_commandKeeps (n : Nat) (s : State) : CommandKeeps s (ticks n s) :=
  ticks_induction (P := CommandKeeps s) (fun _ h => h.trans (tick_commandKeeps _)) n .rfl

theorem exec_commandKeeps {i : Instr} (h : exec i s = .next t) : CommandKeeps s t := by
  rcases exec_next_cases h with rfl | ⟨hidle, n, rfl⟩
  · exact .rfl
  · exact (beginCommand_commandKeeps i (by simp [hidle])).trans (ticks_commandKeeps n _)

/-! ### The shared tables and the other engines -/

theorem SameBlock.rfl : SameBlock s s := by
  constructor <;> rfl

theorem SameBlock.trans {u : State} (h : SameBlock s t) (h' : SameBlock t u) : SameBlock s u :=
  ⟨h'.cfg.trans h.cfg, h'.before.trans h.before, h'.after.trans h.after, h'.table.trans h.table,
    h'.tvalid.trans h.tvalid, h'.mem.trans h.mem⟩

/-- A step that is none of TBLINIT's changes the addressed engine alone, and starts no TBLINIT. -/
theorem TickOutcome.sameBlock (h : TickOutcome s t) (hb : s.eng.isBuilding = false) :
    SameBlock s t ∧ t.eng.isBuilding = false := by
  cases h with
  | waits => exact ⟨.rfl, hb⟩
  | absorbs | iterates => exact ⟨⟨rfl, rfl, rfl, rfl, rfl, rfl⟩, hb⟩
  | buildsRow hc | validates hc => simp [Engine.isBuilding, hc] at hb
  | digests | faults | degenerates | buildsOperators | combines => exact ⟨⟨rfl, rfl, rfl, rfl, rfl, rfl⟩, rfl⟩

theorem ticks_sameBlock (n : Nat) (h : s.eng.isBuilding = false) : SameBlock s (ticks n s) :=
  (ticks_induction (P := fun u => SameBlock s u ∧ u.eng.isBuilding = false)
    (fun u ⟨hb, hu⟩ => ((tick_outcome u).sameBlock hu).imp_left hb.trans) n ⟨.rfl, h⟩).1

theorem beginCommand_sameBlock {i : Instr} (hi : i ≠ .tblinit) :
    SameBlock s (beginCommand i s) ∧ (beginCommand i s).eng.isBuilding = false := by
  rcases beginCommand_cases i s with ⟨err, info, -, h⟩ | ⟨k, -, h⟩ | ⟨rfl, -⟩ | ⟨-, h⟩
  · rw [h]; exact ⟨⟨rfl, rfl, rfl, rfl, rfl, rfl⟩, rfl⟩
  · rw [h]; exact ⟨⟨rfl, rfl, rfl, rfl, rfl, rfl⟩, rfl⟩
  · exact absurd rfl hi
  · rw [h]; exact ⟨⟨rfl, rfl, rfl, rfl, rfl, rfl⟩, rfl⟩

/-- Only TBLINIT writes the tables or touches another engine (R102). -/
theorem exec_sameBlock {i : Instr} (hi : i ≠ .tblinit) (h : exec i s = .next t) : SameBlock s t := by
  rcases exec_next_cases h with rfl | ⟨-, n, rfl⟩
  · exact .rfl
  · obtain ⟨hb, hbuild⟩ := beginCommand_sameBlock (s := s) hi
    exact hb.trans (ticks_sameBlock n hbuild)

/-- No step touches another engine (R36) or the mark of a hazard. -/
theorem TickOutcome.others (h : TickOutcome s t) : t.before = s.before ∧ t.after = s.after ∧ t.racy = s.racy := by
  cases h <;> exact ⟨rfl, rfl, rfl⟩

/-- From `s` to `t` a TBLINIT has started and has run for some steps: it keeps `RES` (R17), and of the other engines
only running readers are marked (R212). -/
structure TblinitKeeps (s t : State) : Prop where
  res : t.eng.res = s.eng.res
  before : t.before = s.before.map taintReader
  after : t.after = s.after.map taintReader
  running : t.eng.isBusy = true → t.eng.isBuilding = true

theorem TickOutcome.tblinitKeeps {s₀ : State} (h : TickOutcome s t) (hs : TblinitKeeps s₀ s) : TblinitKeeps s₀ t := by
  obtain ⟨hres, hbefore, hafter, hrun⟩ := hs
  cases h with
  | waits => exact ⟨hres, hbefore, hafter, hrun⟩
  | buildsRow => exact ⟨hres, hbefore, hafter, fun _ => rfl⟩
  | validates => exact ⟨hres, hbefore, hafter, nofun⟩
  | digests hc | faults hc | absorbs hc | degenerates hc | buildsOperators hc | iterates hc | combines hc =>
    simp [Engine.isBusy, Engine.isBuilding, hc] at hrun

theorem exec_tblinit_frame (h : exec .tblinit s = .next t) : t.eng.res = s.eng.res ∧
    (t.before = s.before ∧ t.after = s.after ∨
      t.before = s.before.map taintReader ∧ t.after = s.after.map taintReader) := by
  rcases exec_next_cases h with rfl | ⟨-, n, rfl⟩
  · exact ⟨rfl, .inl ⟨rfl, rfl⟩⟩
  · obtain ⟨hres, hbefore, hafter, -⟩ := ticks_induction (P := TblinitKeeps s)
      (fun u => (tick_outcome u).tblinitKeeps) n (s := beginCommand .tblinit s) ⟨rfl, rfl, rfl, fun _ => rfl⟩
    exact ⟨hres, .inr ⟨hbefore, hafter⟩⟩

/-! ### The operator buffers (R25, R152) -/

/-- From `s` to `t` the operator buffers and `SEL` stay unless `t` is in error, and `t` runs no COMBINE that will build
operators. -/
structure KeepsOperators (s t : State) : Prop where
  operators : t.eng.ctrl ≠ .error → t.eng.op0 = s.eng.op0 ∧ t.eng.op1 = s.eng.op1 ∧ t.eng.sel = s.eng.sel
  buildsNone : ∀ b, t.eng.ctrl = .busy (.combine b) → b = false ∧ t.eng.nb = 0

theorem TickOutcome.keepsOperators {s₀ : State} (h : TickOutcome s t) (hs : KeepsOperators s₀ s) :
    KeepsOperators s₀ t := by
  obtain ⟨hop, hnone⟩ := hs
  cases h with
  | waits => exact ⟨hop, hnone⟩
  | faults => exact ⟨fun hne => absurd rfl hne, nofun⟩
  | digests hc | degenerates hc | validates hc | buildsRow hc => exact ⟨fun _ => hop (by simp [hc]), nofun⟩
  | absorbs hc => exact ⟨hop, hnone⟩
  | buildsOperators hc hnb => exact absurd (hnone _ hc).2 hnb
  | iterates hc | combines hc => exact absurd (hnone _ hc).1 (by decide)

theorem beginCommand_keepsOperators {i : Instr} (hi : i ≠ .combine ∨ s.eng.len = 0) :
    KeepsOperators s (beginCommand i s) := by
  rcases beginCommand_cases i s with ⟨err, info, -, h⟩ | ⟨k, -, h⟩ | ⟨-, h⟩ | ⟨rfl, h⟩ <;> rw [h]
  · exact ⟨fun hne => absurd rfl hne, nofun⟩
  · exact ⟨fun _ => ⟨rfl, rfl, rfl⟩, nofun⟩
  · exact ⟨fun _ => ⟨rfl, rfl, rfl⟩, nofun⟩
  · refine ⟨fun _ => ⟨rfl, rfl, rfl⟩, fun b hb => ⟨?_, hi.resolve_left (absurd rfl)⟩⟩
    cases hb
    rfl

theorem exec_keepsOperators {i : Instr} (hi : i ≠ .combine ∨ s.eng.len = 0) (h : exec i s = .next t)
    (ht : t.eng.ctrl ≠ .error) : t.eng.op0 = s.eng.op0 ∧ t.eng.op1 = s.eng.op1 ∧ t.eng.sel = s.eng.sel := by
  rcases exec_next_cases h with rfl | ⟨-, n, rfl⟩
  · exact ⟨rfl, rfl, rfl⟩
  · exact (ticks_induction (P := KeepsOperators s) (fun u => (tick_outcome u).keepsOperators) n
      (beginCommand_keepsOperators hi)).operators ht

end

/-- Settles O47, from the frames of acceptance and of one step. -/
theorem commandFrame : Obligations.CommandFrame := by
  unfold Obligations.CommandFrame
  intro i s t h
  obtain ⟨hopa, hopb, hptr, hlen, hcfg, hmem, hpending, hrdata, hcodes⟩ := exec_commandKeeps h
  refine ⟨hopa, hopb, hptr, hlen, hcfg, hmem, fun a => by rw [hmem], hpending, hrdata, fun ht => (hcodes ht).2,
    fun hi => ?_, ?_, fun ht hi => exec_keepsOperators hi h ht⟩
  · obtain ⟨-, hbefore, hafter, htable, htvalid, -⟩ := exec_sameBlock hi h
    exact ⟨htable, htvalid, hbefore, hafter⟩
  · rintro rfl
    exact exec_tblinit_frame h

section
variable {s t : State}

/-! ### Acceptance of a word -/

theorem eq_encode_of_decode {w : Word} {i : Instr} (h : decode w = .ok i) : w = encode i := by
  have hrows : ∀ r ∈ opcodeRows, r.mask = BitVec.allOnes 32 ∧ r.pattern = encode r.instr := by decide
  unfold decode at h
  split at h
  · rename_i r hr
    cases h
    obtain ⟨hmask, hpattern⟩ := hrows r (List.mem_of_find?_eq_some hr)
    have hmatch : w &&& r.mask = r.pattern := by simpa using List.find?_some hr
    rwa [hmask, BitVec.and_allOnes, hpattern] at hmatch
  · cases h

/-- What the acceptance of a word can do: nothing outside `IDLE`, else accept a command or refuse the word (R80). -/
theorem startWord_cases (w : Word) (s : State) :
    startWord w s = s ∨ s.eng.ctrl = .idle ∧
      ((∃ i, w = encode i ∧ startWord w s = beginCommand i s) ∨ ∃ w', startWord w s = refuseWord w' s) := by
  by_cases hidle : s.eng.ctrl = .idle
  · refine .inr ⟨hidle, ?_⟩
    unfold startWord
    cases hd : decode w with
    | ok i => exact .inl ⟨i, eq_encode_of_decode hd, whenIdle_of_idle _ hidle⟩
    | error e =>
      obtain ⟨w'⟩ := e
      exact .inr ⟨w', whenIdle_of_idle _ hidle⟩
  · left
    unfold startWord
    split <;> exact whenIdle_of_not_idle _ hidle

/-- From `s` to `t` the tables stay, `RES` stays unless `t` is in error, and of the other engines at most the running
readers are marked, for a TBLINIT (R17, R102, R212). -/
structure AcceptanceKeeps (w : Word) (s t : State) : Prop where
  table : t.table = s.table
  tvalid : t.tvalid = s.tvalid
  res : t.eng.ctrl ≠ .error → t.eng.res = s.eng.res
  others : t.before = s.before ∧ t.after = s.after ∨
    w = encode .tblinit ∧ t.before = s.before.map taintReader ∧ t.after = s.after.map taintReader

theorem beginCommand_acceptanceKeeps (i : Instr) (s : State) : AcceptanceKeeps (encode i) s (beginCommand i s) := by
  rcases beginCommand_cases i s with ⟨err, info, -, h⟩ | ⟨k, -, h⟩ | ⟨rfl, h⟩ | ⟨-, h⟩ <;> rw [h]
  · exact ⟨rfl, rfl, fun hne => absurd rfl hne, .inl ⟨rfl, rfl⟩⟩
  · exact ⟨rfl, rfl, fun _ => rfl, .inl ⟨rfl, rfl⟩⟩
  · exact ⟨rfl, rfl, fun _ => rfl, .inr ⟨rfl, rfl, rfl⟩⟩
  · exact ⟨rfl, rfl, fun _ => rfl, .inl ⟨rfl, rfl⟩⟩

theorem refuseWord_commandKeeps (w : Word) (s : State) : CommandKeeps s (refuseWord w s) :=
  raiseError_commandKeeps .illegalCommand (w.setWidth 64)

theorem startWord_keeps (w : Word) (s : State) :
    CommandKeeps s (startWord w s) ∧ AcceptanceKeeps w s (startWord w s) := by
  rcases startWord_cases w s with h | ⟨hidle, ⟨i, rfl, h⟩ | ⟨w', h⟩⟩ <;> rw [h]
  · exact ⟨.rfl, ⟨rfl, rfl, fun _ => rfl, .inl ⟨rfl, rfl⟩⟩⟩
  · exact ⟨beginCommand_commandKeeps i (by simp [hidle]), beginCommand_acceptanceKeeps i s⟩
  · exact ⟨refuseWord_commandKeeps w' s, ⟨rfl, rfl, fun hne => absurd rfl hne, .inl ⟨rfl, rfl⟩⟩⟩

/-! ### The engines after a step -/

/-- All engines after a change of the addressed engine and of the others by `f`. -/
theorem allEngines_eq_set {f : Engine → Engine} (hbefore : t.before = s.before.map f) (hafter : t.after = s.after.map f) :
    allEngines t = ((allEngines s).map f).set s.before.length t.eng := by
  simp [allEngines, hbefore, hafter]

theorem allEngines_getElem?_self (s : State) : (allEngines s)[s.before.length]? = some s.eng := by
  simp [allEngines]

/-- A step with nothing pending is at most one step of one engine. -/
theorem drain_frame (s : State) : (drain s).mem = s.mem ∧ (drain s).cfg = s.cfg ∧ (drain s).pending = s.pending ∧
    (drain s).rdata = s.rdata ∧ (drain s).racy = s.racy ∧
    ∃ k : Nat, (∀ j : Nat, j ≠ k → (allEngines (drain s))[j]? = (allEngines s)[j]?) ∧
      ∀ e e' : Engine, (allEngines s)[k]? = some e → (allEngines (drain s))[k]? = some e' →
        e'.opa = e.opa ∧ e'.opb = e.opb ∧ e'.ptr = e.ptr ∧ e'.len = e.len := by
  rcases drain_cases s with ⟨-, h⟩ | ⟨k, u, hu, -, h⟩ <;> rw [h]
  · refine ⟨rfl, rfl, rfl, rfl, rfl, 0, fun _ _ => rfl, fun e e' he he' => ?_⟩
    cases he.symm.trans he'
    exact ⟨rfl, rfl, rfl, rfl⟩
  · obtain ⟨-, hall, rfl, hfocus⟩ := focus_cases hu
    obtain ⟨hopa, hopb, hptr, hlen, hcfg, hmem, hpending, hrdata, -⟩ := tick_commandKeeps u
    obtain ⟨hbefore, hafter, hracy⟩ := (tick_outcome u).others
    rw [hmem, hcfg, hpending, hrdata, hracy, ← hall]
    refine ⟨by rw [hfocus], by rw [hfocus], by rw [hfocus], by rw [hfocus], by rw [hfocus], u.before.length,
      fun j hj => ?_, fun e e' he he' => ?_⟩
    · rw [allEngines_eq_set (s := u) (f := id) (by simp [hbefore]) (by simp [hafter]), List.map_id,
        List.getElem?_set_ne hj.symm]
    · have hself := allEngines_getElem?_self (tick u)
      rw [hbefore] at hself
      cases (allEngines_getElem?_self u).symm.trans he
      cases hself.symm.trans he'
      exact ⟨hopa, hopb, hptr, hlen⟩

end

/-- Settles O48, from the frames of acceptance, of one step, and of the step with nothing pending. -/
theorem fineStepFrame : Obligations.FineStepFrame := by
  unfold Obligations.FineStepFrame
  refine ⟨fun w s => ?_, fun s => ?_, fun s t hs h => ?_⟩
  · obtain ⟨⟨hopa, hopb, hptr, hlen, hcfg, hmem, hpending, hrdata, hcodes⟩, ⟨htable, htvalid, hres, hothers⟩⟩ :=
      startWord_keeps w s
    exact ⟨rfl, hopa, hopb, hptr, hlen, hcfg, hmem, hpending, hrdata, htable, htvalid,
      fun ht => ⟨hres ht, (hcodes ht).2⟩, hothers⟩
  · obtain ⟨hopa, hopb, hptr, hlen, hcfg, hmem, hpending, hrdata, hcodes⟩ := tick_commandKeeps s
    obtain ⟨hbefore, hafter, hracy⟩ := (tick_outcome s).others
    refine ⟨rfl, hopa, hopb, hptr, hlen, hcfg, hmem, hpending, hrdata, hracy, hbefore, hafter, fun hb => ?_,
      fun ht => (hcodes ht).2⟩
    obtain ⟨⟨-, -, -, htable, htvalid, -⟩, -⟩ := (tick_outcome s).sameBlock hb
    exact ⟨htable, htvalid⟩
  · rcases step_cases h with ⟨-, rfl⟩ | ⟨e, es, -, hp, -⟩
    · obtain ⟨hmem, hcfg, hpending, hrest⟩ := drain_frame s
      exact ⟨hmem, hcfg, hpending.trans hs, hrest⟩
    · cases hs.symm.trans hp

/-! ### Errors stay (R21, R185) -/

/-- Engine `k` is in `ERROR` with a code and an information. -/
def FailedAt (k : Nat) (code : BitVec 4) (info : DWord) (s : State) : Prop :=
  ∃ e, (allEngines s)[k]? = some e ∧ e.ctrl = .error ∧ e.ecode = code ∧ e.einfo = info

section
variable {s t : State} {k : Nat} {code : BitVec 4} {info : DWord}

theorem FailedAt.of_map (h : FailedAt k code info s) {f : Engine → Engine} (hf : ∀ e, e.ctrl = .error → f e = e)
    (hbefore : t.before = s.before.map f) (hafter : t.after = s.after.map f)
    (heng : s.eng.ctrl = .error → t.eng.ctrl = .error ∧ t.eng.ecode = s.eng.ecode ∧ t.eng.einfo = s.eng.einfo) :
    FailedAt k code info t := by
  obtain ⟨e, he, herr, rfl, rfl⟩ := h
  unfold FailedAt
  rw [allEngines_eq_set hbefore hafter]
  by_cases hk : s.before.length = k
  · subst hk
    cases (allEngines_getElem?_self s).symm.trans he
    refine ⟨t.eng, ?_, heng herr⟩
    simp [allEngines]
  · exact ⟨e, by simp [List.getElem?_set_ne hk, he, hf e herr], herr, rfl, rfl⟩

theorem FailedAt.of_sameBlock (h : FailedAt k code info s) (hb : SameBlock s t)
    (heng : s.eng.ctrl = .error → t.eng.ctrl = .error ∧ t.eng.ecode = s.eng.ecode ∧ t.eng.einfo = s.eng.einfo) :
    FailedAt k code info t :=
  h.of_map (f := id) (fun _ _ => rfl) (by simp [hb.before]) (by simp [hb.after]) heng

theorem tick_failedAt (h : FailedAt k code info s) : FailedAt k code info (tick s) := by
  obtain ⟨hbefore, hafter, -⟩ := (tick_outcome s).others
  refine h.of_map (f := id) (fun _ _ => rfl) (by simp [hbefore]) (by simp [hafter]) fun herr => ?_
  rw [tick_error herr]
  exact ⟨herr, rfl, rfl⟩

theorem noteStore_of_error (a : Nat) (old : Byte) {e : Engine} (h : e.ctrl = .error) : noteStore a old e = e := by
  simp [noteStore, h]

theorem taintReader_of_error {e : Engine} (h : e.ctrl = .error) : taintReader e = e := by
  simp [taintReader, h]

theorem beginCommand_failedAt (i : Instr) (hidle : s.eng.ctrl = .idle) (h : FailedAt k code info s) :
    FailedAt k code info (beginCommand i s) := by
  have heng (herr : s.eng.ctrl = .error) : False := nomatch hidle.symm.trans herr
  rcases (beginCommand_acceptanceKeeps i s).others with ⟨hbefore, hafter⟩ | ⟨-, hbefore, hafter⟩
  · exact h.of_map (f := id) (fun _ _ => rfl) (by simp [hbefore]) (by simp [hafter]) fun herr => (heng herr).elim
  · exact h.of_map (fun _ => taintReader_of_error) hbefore hafter fun herr => (heng herr).elim

theorem refuseWord_failedAt (w : Word) (hidle : s.eng.ctrl = .idle) (h : FailedAt k code info s) :
    FailedAt k code info (refuseWord w s) :=
  h.of_sameBlock (refuseWord_sameBlock w s) fun herr => nomatch hidle.symm.trans herr

theorem startWord_failedAt (w : Word) (h : FailedAt k code info s) : FailedAt k code info (startWord w s) := by
  rcases startWord_cases w s with hw | ⟨hidle, ⟨i, -, hw⟩ | ⟨w', hw⟩⟩ <;> rw [hw]
  · exact h
  · exact beginCommand_failedAt i hidle h
  · exact refuseWord_failedAt w' hidle h

theorem exec_failedAt {i : Instr} (h : exec i s = .next t) (hs : FailedAt k code info s) : FailedAt k code info t := by
  rcases exec_next_cases h with rfl | ⟨hidle, n, rfl⟩
  · exact hs
  · exact ticks_induction (P := FailedAt k code info) (fun _ => tick_failedAt) n (beginCommand_failedAt i hidle hs)

theorem perform_failedAt {a : Action} (h : perform a s = .next t) (ha : a ≠ .reset) (hs : FailedAt k code info s) :
    FailedAt k code info t := by
  rcases perform_cases h with ⟨_, i, -, -, hexec⟩ | ⟨_, w, -, -, rfl⟩ | ⟨r, v, -, -, rfl⟩ | ⟨w, -, rfl⟩ | ⟨r, -, rfl⟩ |
    ⟨-, rfl⟩ | ⟨x, b, -, hx, rfl⟩ | ⟨rfl, -⟩
  · exact exec_failedAt hexec hs
  · exact whenIdle_induction hs fun hidle => refuseWord_failedAt w hidle hs
  · exact hs.of_sameBlock (hostWrite_sameBlock r v s) fun herr => by cases r <;> exact ⟨herr, rfl, rfl⟩
  · exact startWord_failedAt w hs
  · exact hs
  · exact tick_failedAt hs
  · refine hs.of_map (fun _ => noteStore_of_error x (memRead s.mem x)) rfl rfl fun herr => ?_
    rw [show (platformStore x b s).eng = s.eng from noteStore_of_error _ _ herr]
    exact ⟨herr, rfl, rfl⟩
  · exact absurd rfl ha

theorem focus_failedAt {j : Nat} (hu : focus j s = some t) (h : FailedAt k code info s) : FailedAt k code info t := by
  obtain ⟨-, hall, -, -⟩ := focus_cases hu
  unfold FailedAt
  rwa [hall]

theorem drain_failedAt (h : FailedAt k code info s) : FailedAt k code info (drain s) := by
  rcases drain_cases s with ⟨-, hd⟩ | ⟨j, u, hu, -, hd⟩ <;> rw [hd]
  · exact h
  · exact tick_failedAt (focus_failedAt hu h)

end

/-- Settles O18: no part of a step but the reset takes an engine out of `ERROR`; acceptance acts in `IDLE` alone. -/
theorem errorIsSticky : Obligations.ErrorIsSticky := by
  unfold Obligations.ErrorIsSticky
  intro s t k e h he herr hreset
  have hs : FailedAt k e.ecode e.einfo s := ⟨e, he, herr, rfl, rfl⟩
  rcases step_cases h with ⟨-, rfl⟩ | ⟨⟨j, a⟩, es, u, hp, hu, hperform⟩
  · exact drain_failedAt hs
  · have ha : a ≠ .reset := by
      rintro rfl
      exact hreset j es hp
    exact perform_failedAt hperform ha (focus_failedAt hu hs)

end Sys2Proof.Machine

/-! Proofs of the statements of 20_memory.md: platform stores, built tables, what a digest reads of data memory. -/

namespace Sys2Proof.Machine

/-! ### Platform stores (R54, R61) -/

/-- A store outside the range an engine digests leaves no note on it. -/
theorem noteStore_of_not_rangeHolds {a : Nat} {e : Engine} (old : Byte) (h : rangeHolds a e = false) :
    noteStore a old e = e := by
  rcases noteStore_cases a old e with he | ⟨j, hc, ⟨hfirst, hstop⟩, -⟩
  · exact he
  · simp [rangeHolds, hc, hfirst, hstop] at h

/-- A store inside the range an engine digests is noted with the value it overwrites. -/
theorem noteStore_of_digest {a : Nat} {e : Engine} {j : DigestJob} (old : Byte) (hc : e.ctrl = .busy (.digest j))
    (hrange : j.first ≤ a ∧ a < j.stop) :
    noteStore a old e = { e with ctrl := .busy (.digest { j with stale := (a, old) :: j.stale }) } := by
  simp only [noteStore, hc, hrange, and_self, if_true]

/-- A store outside every running range writes data memory and does nothing else. -/
theorem platformStore_of_not_rangeHolds {a : Nat} {s : State} (b : Byte)
    (h : ∀ e ∈ allEngines s, rangeHolds a e = false) :
    platformStore a b s = { s with mem := memWrite s.mem a b } := by
  have hnote (e : Engine) (he : e ∈ allEngines s) : noteStore a (memRead s.mem a) e = e :=
    noteStore_of_not_rangeHolds _ (h e he)
  have hothers (es : List Engine) (hes : ∀ e ∈ es, e ∈ otherEngines s) : es.map (noteStore a (memRead s.mem a)) = es :=
    (List.map_congr_left fun e he => hnote e (mem_allEngines_of_other (hes e he))).trans (List.map_id' es)
  have hracy : (allEngines s).any (rangeHolds a) = false := List.any_eq_false.2 (by simpa using h)
  simp only [platformStore, hracy, Bool.or_false, hnote s.eng (mem_allEngines_self s),
    hothers s.before fun _ => List.mem_append_left _, hothers s.after fun _ => List.mem_append_right _]

/-- Settles O53: no engine notes the store, and the memory laws give the byte written and every other one. -/
theorem platformStore_outside_ranges : Obligations.PlatformStore := by
  unfold Obligations.PlatformStore
  intro s a b ha hwf hrange
  refine ⟨memWrite s.mem a b, ?_, memWrite_wf hwf a b, memRead_memWrite hwf a b⟩
  rw [perform, if_pos ha, platformStore_of_not_rangeHolds b hrange]

/-- A byte that was overwritten once while the command runs reads as the value before or the value after (R61). -/
theorem byteSeen_stale_singleton {s : State} {j : DigestJob} {a : Nat} {old : Byte} (h : j.stale = [(a, old)]) :
    byteSeen s j a = old ∨ byteSeen s j a = memRead s.mem a := by
  have hchoice (n : Nat) : [memRead s.mem a, old].getD (n % 2) memDefault = old ∨
      [memRead s.mem a, old].getD (n % 2) memDefault = memRead s.mem a := by
    rcases Nat.mod_two_eq_zero_or_one n with h | h <;> simp [h]
  simpa [byteSeen, h] using hchoice (Config.freeNat s.draws (.byteChoice a))

theorem byteSeen_stale_singleton_ne {s : State} {j : DigestJob} {a x : Nat} {old : Byte} (h : j.stale = [(a, old)])
    (hx : x ≠ a) : byteSeen s j x = memRead s.mem x := by
  simp [byteSeen, h, hx.symm]

/-- Settles O52: the store leaves one note on the running command, and its reads are decided by that note alone. -/
theorem racingStore : Obligations.RacingStore := by
  unfold Obligations.RacingStore
  intro s j a b hc hstale hfirst hstop ha hwf
  have hrange : rangeHolds a s.eng = true := by simp [rangeHolds, hc, hfirst, hstop]
  have hracy : (allEngines s).any (rangeHolds a) = true := List.any_eq_true.2 ⟨_, mem_allEngines_self s, hrange⟩
  have hread (x : Nat) : memRead (platformStore a b s).mem x = if a = x then b else memRead s.mem x :=
    memRead_memWrite hwf a b x
  have hnote := noteStore_of_digest (memRead s.mem a) hc ⟨hfirst, hstop⟩
  rw [hstale] at hnote
  refine ⟨platformStore a b s, { j with stale := [(a, memRead s.mem a)] }, by rw [perform, if_pos ha],
    congrArg Engine.ctrl hnote, ?_, ?_, fun x hx => ?_⟩
  · exact (congrArg (s.racy || ·) hracy).trans (Bool.or_true _)
  · have hnow : memRead (platformStore a b s).mem a = b := (hread a).trans (if_pos rfl)
    exact Or.imp_right (·.trans hnow) (byteSeen_stale_singleton rfl)
  · rw [byteSeen_stale_singleton_ne rfl hx, hread, if_neg hx.symm]

/-! ### Built tables (R64, R102) -/

section
variable {s t : State}

theorem TickOutcome.keepsTvalid (h : TickOutcome s t) (hs : s.tvalid = true) : t.tvalid = true := by
  cases h with
  | validates => rfl
  | waits | digests | faults | absorbs | buildsRow | degenerates | buildsOperators | iterates | combines => exact hs

theorem exec_keepsTvalid {i : Instr} (h : exec i s = .next t) (hs : s.tvalid = true) : t.tvalid = true := by
  rcases exec_next_cases h with rfl | ⟨-, n, rfl⟩
  · exact hs
  · exact ticks_induction (P := fun u => u.tvalid = true) (fun u => (tick_outcome u).keepsTvalid) n
      ((beginCommand_acceptanceKeeps i s).tvalid.trans hs)

theorem perform_keepsTvalid {a : Action} (h : perform a s = .next t) (ha : a ≠ .reset) (hs : s.tvalid = true) :
    t.tvalid = true := by
  rcases perform_cases h with ⟨_, i, -, -, hexec⟩ | ⟨_, w, -, -, rfl⟩ | ⟨r, v, -, -, rfl⟩ | ⟨w, -, rfl⟩ | ⟨r, -, rfl⟩ |
    ⟨-, rfl⟩ | ⟨x, b, -, -, rfl⟩ | ⟨hreset, -⟩
  · exact exec_keepsTvalid hexec hs
  · exact whenIdle_induction (P := fun u => u.tvalid = true) hs fun _ => hs
  · exact (hostWrite_sameBlock r v s).tvalid.trans hs
  · exact (startWord_keeps w s).2.tvalid.trans hs
  · exact hs
  · exact (tick_outcome s).keepsTvalid hs
  · exact hs
  · exact absurd hreset ha

theorem focus_tvalid {k : Nat} (hu : focus k s = some t) : t.tvalid = s.tvalid := by
  obtain ⟨-, -, -, ht⟩ := focus_cases hu
  rw [ht]

theorem drain_keepsTvalid (hs : s.tvalid = true) : (drain s).tvalid = true := by
  rcases drain_cases s with ⟨-, h⟩ | ⟨k, u, hu, -, h⟩ <;> rw [h]
  · exact hs
  · exact (tick_outcome u).keepsTvalid ((focus_tvalid hu).trans hs)

/-- No step but a reset clears `TVALID`. -/
theorem step_keepsTvalid (h : step s = .next t) (hs : s.tvalid = true) :
    t.tvalid = true ∨ ∃ (k : Nat) (es : List Event), s.pending = ⟨k, .reset⟩ :: es := by
  rcases step_cases h with ⟨-, rfl⟩ | ⟨⟨k, a⟩, es, u, hp, hu, hperform⟩
  · exact .inl (drain_keepsTvalid hs)
  · by_cases ha : a = .reset
    · exact .inr ⟨k, es, ha ▸ hp⟩
    · exact .inl (perform_keepsTvalid hperform ha ((focus_tvalid hu).trans hs))

end

/-- Settles O36: by the invariant a table memory with `TVALID = 1` holds the built tables of the parameters, before the
step and after it, and no step changes the parameters. -/
theorem builtTablesNeverChange : Obligations.BuiltTablesNeverChange := by
  unfold Obligations.BuiltTablesNeverChange
  intro s t hs hvalid h
  refine (step_keepsTvalid h hvalid).imp_left fun hvalid' => ⟨?_, hvalid'⟩
  obtain ⟨-, -, hbuilt⟩ := hs.memory_tables
  obtain ⟨-, -, hbuilt'⟩ := (stepKeepsInvariant s t hs h).memory_tables
  obtain ⟨hcfg, -⟩ := parametersAreFixed s t h
  rw [hbuilt' hvalid', hcfg, hbuilt hvalid]

/-! ### What a digest step reads of data memory (R52, R53) -/

/-- The normalised words at `a`, `a + 4`, and so on, as a block step reads them (R126): all of them, or the first address
that is not admitted. -/
def readWords (s : State) (j : DigestJob) : Nat → Nat → Except Nat (List Word)
  | 0, _ => .ok []
  | q + 1, a => do
    let w ← fetchWord s j a
    let ws ← readWords s j q (a + 4)
    pure (w :: ws)

/-- The accumulator after a block step on the words it has read (R128 to R131). -/
def blockOf (s : State) (j : DigestJob) : List Word → Word
  | [w0] => blockS4 (tableSeen s j) s.eng.acc w0
  | [w0, w1] => blockS8 (tableSeen s j) s.eng.acc w0 w1
  | [w0, w1, w2, w3] => blockS16 (tableSeen s j) s.eng.acc w0 w1 w2 w3
  | _ => s.eng.acc

/-- `r` is what the digest step of `n` bytes that is due at `POS` reads and folds: a block step or a byte step. -/
def DueStep (s : State) (j : DigestJob) (n : Nat) (r : Except Nat Word) : Prop :=
  (n = blockBytes s.eng.ksel ∧ r = takeBlock s j) ∨ (n = 1 ∧ r = takeByte s j)

section
variable {s : State} {j : DigestJob}

theorem map_readWords_succ (f : List Word → Word) (q a : Nat) : (readWords s j (q + 1) a).map f =
    fetchWord s j a >>= fun w => (readWords s j q (a + 4)).map fun ws => f (w :: ws) := by
  simp only [readWords]
  cases fetchWord s j a with
  | error => rfl
  | ok => cases readWords s j q (a + 4) <;> rfl

theorem takeS16p_eq_takeS16 (s : State) (j : DigestJob) : takeS16p s j = takeS16 s j := by
  simp only [takeS16p, prefetchHint, ite_self, takeS16]

/-- Every block step reads its words in address order and then computes: it touches data memory in no other way. -/
theorem takeBlock_eq_readWords (s : State) (j : DigestJob) :
    takeBlock s j = (readWords s j (blockBytes s.eng.ksel / 4) s.eng.pos).map (blockOf s j) := by
  unfold takeBlock
  rw [takeS16p_eq_takeS16]
  cases s.eng.ksel with
  | bit | half | tl1 | tl2 | b1 => rfl
  | s4 | s8 | s16 | s16p =>
    simp only [blockBytes, Nat.reduceDiv, map_readWords_succ]
    rfl

/-- The words of a block step cover its bytes. -/
theorem four_mul_block_words (k : Kernel) : 4 * (blockBytes k / 4) = blockBytes k := by
  cases k <;> rfl

/-! ### Admission decides the reads (R53) -/

theorem fetchWord_ok {a : Nat} (h : ∀ p < 4, admitted s.cfg (a + p) = true) : ∃ w, fetchWord s j a = .ok w := by
  have h0 := h 0 (by decide)
  rw [Nat.add_zero] at h0
  simp [fetchWord, memRead4, memRead1, h0, h 1, h 2, h 3, bind, Except.bind, pure, Except.pure]

theorem readWords_ok {q a : Nat} (h : ∀ p < 4 * q, admitted s.cfg (a + p) = true) :
    ∃ ws, readWords s j q a = .ok ws := by
  induction q generalizing a with
  | zero => exact ⟨[], rfl⟩
  | succ q ih =>
    obtain ⟨w, hw⟩ := fetchWord_ok (s := s) (j := j) (a := a) fun p hp => h p (by omega)
    obtain ⟨ws, hws⟩ := ih (a := a + 4) fun p hp => by
      rw [Nat.add_assoc]
      exact h _ (by omega)
    exact ⟨w :: ws, by rw [readWords, hw, hws]; rfl⟩

theorem readWords_fault {q a m : Nat} (hm : m < 4 * q) (hbad : admitted s.cfg (a + m) = false)
    (hok : ∀ p < m, admitted s.cfg (a + p) = true) : readWords s j q a = .error (a + m) := by
  induction q generalizing a m with
  | zero => exact absurd hm (Nat.not_lt_zero m)
  | succ q ih =>
    by_cases hm4 : m < 4
    · rw [readWords, fetchWord_fault hm4 hbad hok]
      rfl
    · obtain ⟨m, rfl⟩ := Nat.exists_eq_add_of_le (Nat.le_of_not_lt hm4)
      obtain ⟨w, hw⟩ := fetchWord_ok (s := s) (j := j) (a := a) fun p hp => hok p (by omega)
      rw [← Nat.add_assoc] at hbad ⊢
      rw [readWords, hw, ih (by omega) hbad fun p hp => ?_]
      · rfl
      · rw [Nat.add_assoc]
        exact hok _ (by omega)

/-- A step on admitted bytes succeeds. -/
theorem DueStep.ok {n : Nat} {r : Except Nat Word} (h : DueStep s j n r)
    (hok : ∀ p < n, admitted s.cfg (s.eng.pos + p) = true) : ∃ c, r = .ok c := by
  rcases h with ⟨rfl, rfl⟩ | ⟨rfl, rfl⟩
  · rw [← four_mul_block_words] at hok
    obtain ⟨ws, hws⟩ := readWords_ok (j := j) hok
    exact ⟨_, by rw [takeBlock_eq_readWords, hws]; rfl⟩
  · exact ⟨_, by rw [takeByte, memRead1, show admitted s.cfg s.eng.pos = true from hok 0 Nat.one_pos]; rfl⟩

/-- A step faults at the first of its bytes that is not admitted (R117, R133). -/
theorem DueStep.fault {n m : Nat} {r : Except Nat Word} (h : DueStep s j n r) (hm : m < n)
    (hbad : admitted s.cfg (s.eng.pos + m) = false) (hok : ∀ p < m, admitted s.cfg (s.eng.pos + p) = true) :
    r = .error (s.eng.pos + m) := by
  rcases h with ⟨rfl, rfl⟩ | ⟨rfl, rfl⟩
  · rw [← four_mul_block_words] at hm
    rw [takeBlock_eq_readWords, readWords_fault hm hbad hok]
    rfl
  · obtain rfl : m = 0 := Nat.lt_one_iff.1 hm
    rw [Nat.add_zero] at hbad ⊢
    rw [takeByte, memRead1, hbad]
    rfl

end

/-! ### The first byte that is not admitted (R53, R182) -/

/-- A running digest has `m` admitted bytes before the first byte of its range that is not. -/
structure FaultAhead (m : Nat) (s : State) : Prop where
  digesting : ∃ j, s.eng.ctrl = .busy (.digest j)
  inRange : m < s.eng.rem.toNat
  bad : admitted s.cfg (s.eng.pos + m) = false
  ok : ∀ p < m, admitted s.cfg (s.eng.pos + p) = true

/-- The engine has taken a `BusFault` at address `a` (R180, R183); an address that does not fit `EINFO` leaves it open. -/
structure BusFaulted (a : Nat) (s : State) : Prop where
  ctrl : s.eng.ctrl = .error
  ecode : s.eng.ecode = 4#4
  done : s.eng.done = false
  einfo : a < 2 ^ 64 → s.eng.einfo = BitVec.ofNat 64 a

section
variable {s : State} {m : Nat}

theorem raiseError_busFaulted (a : Nat) (s : State) : BusFaulted a (raiseError .busFault (faultInfo s.draws a) s) :=
  ⟨rfl, rfl, rfl, fun ha => if_pos ha⟩

theorem BusFaulted.ticks {a : Nat} (h : BusFaulted a s) (n : Nat) : BusFaulted a (ticks n s) := by
  rwa [ticks_of_not_busy (by simp [Engine.isBusy, h.ctrl])]

theorem rem_sub_toNat {x : DWord} {n : Nat} (hn : n ≤ x.toNat) : (x - BitVec.ofNat 64 n).toNat = x.toNat - n := by
  have hn64 : (BitVec.ofNat 64 n).toNat = n := Nat.mod_eq_of_lt (hn.trans_lt x.isLt)
  rw [BitVec.toNat_sub_of_le (by rwa [BitVec.le_def, hn64]), hn64]

/-- A step short of the bad byte leaves it ahead, by as many bytes less as the step absorbs. -/
theorem FaultAhead.absorb {n : Nat} {j : DigestJob} (h : FaultAhead m s) (hn : n ≤ m) (c : Word) :
    FaultAhead (m - n) (absorb n (.ok c) j s) := by
  obtain ⟨hdigest, hrange, hbad, hok⟩ := h
  refine ⟨hdigest, ?_, ?_, fun p hp => ?_⟩
  · show m - n < (s.eng.rem - BitVec.ofNat 64 n).toNat
    rw [rem_sub_toNat (by omega)]
    omega
  · show admitted s.cfg (s.eng.pos + n + (m - n)) = false
    rwa [Nat.add_assoc, Nat.add_sub_cancel' hn]
  · show admitted s.cfg (s.eng.pos + n + p) = true
    rw [Nat.add_assoc]
    exact hok _ (by omega)

/-- One step of a digest with a bad byte ahead: it faults there, or comes nearer. -/
theorem FaultAhead.tick (h : FaultAhead m s) : BusFaulted (s.eng.pos + m) (tick s) ∨
    ∃ m' < m, FaultAhead m' (tick s) ∧ (tick s).eng.pos + m' = s.eng.pos + m := by
  obtain ⟨j, hc⟩ := h.digesting
  rw [tick_digest hc]
  rcases tickDigest_cases j s with ⟨hzero, -⟩ | ⟨n, r, -, hpos, -, -, ht, hr⟩
  · exact absurd h.inRange (by simp [hzero])
  · have hdue : DueStep s j n r := hr
    rw [ht]
    by_cases hm : m < n
    · left
      rw [hdue.fault hm h.bad h.ok]
      exact raiseError_busFaulted _ s
    · right
      obtain ⟨c, rfl⟩ := hdue.ok fun p hp => h.ok p (by omega)
      refine ⟨m - n, by omega, h.absorb (by omega) c, ?_⟩
      show s.eng.pos + n + (m - n) = s.eng.pos + m
      omega

theorem FaultAhead.ticks {n : Nat} (h : FaultAhead m s) (hn : m < n) : BusFaulted (s.eng.pos + m) (ticks n s) := by
  induction n generalizing m s with
  | zero => exact absurd hn (Nat.not_lt_zero m)
  | succ n ih =>
    rw [ticks_succ]
    rcases h.tick with hfault | ⟨m', hm', hahead, haddr⟩
    · exact hfault.ticks n
    · rw [← haddr]
      exact ih hahead (by omega)

/-- A running digest has enough steps left to reach the bad byte. -/
theorem FaultAhead.finish (h : FaultAhead m s) : BusFaulted (s.eng.pos + m) (finish s) := by
  obtain ⟨j, hc⟩ := h.digesting
  have hwork : workLeft s = s.eng.rem.toNat + 1 := by simp [workLeft, hc]
  exact h.ticks (by rw [hwork]; exact h.inRange.trans (Nat.lt_succ_self _))

end

/-- Settles O43: every step before the bad byte comes nearer to it, and the step that reads it faults at it. -/
theorem firstUnadmittedByteFaults : Obligations.FirstUnadmittedByteFaults := by
  unfold Obligations.FirstUnadmittedByteFaults
  intro s i k n hk hidle hchecks hn hbad hok
  have hahead : FaultAhead n (latchDigest k (clearDone s)) := ⟨⟨_, rfl⟩, hn, hbad, hok⟩
  have hexec : exec i s = .next (finish (latchDigest k (clearDone s))) := by
    rw [exec_eq, issueWhole, whenIdle_of_idle _ hidle, beginCommand_checksPass hk hchecks]
  have hi : i ≠ .tblinit := by rintro rfl; cases hk
  obtain ⟨-, -, -, htable, htvalid, hmem⟩ := exec_sameBlock hi hexec
  obtain ⟨hctrl, hecode, hdone, heinfo⟩ := hahead.finish
  exact ⟨_, hexec, hctrl, hecode, hdone, heinfo, htable, htvalid, hmem⟩

/-! ### Data memory outside the range (R52) -/

/-- `s` with another data memory. -/
def withMem (m : List Host.Cell) (s : State) : State := { s with mem := m }

/-- The memory `m` holds the same `n` bytes from address `a` as data memory. -/
def AgreesOn (m : List Host.Cell) (s : State) (a n : Nat) : Prop := ∀ p < n, memRead m (a + p) = memRead s.mem (a + p)

/-- The memory `m` agrees with data memory on the bytes that a running digest has yet to read. -/
def AgreesAhead (m : List Host.Cell) (s : State) : Prop :=
  ∀ j, s.eng.ctrl = .busy (.digest j) → AgreesOn m s s.eng.pos s.eng.rem.toNat

section
variable {m : List Host.Cell} {s : State} {j : DigestJob}

theorem AgreesOn.first {a n : Nat} (h : AgreesOn m s a n) (hn : 0 < n) : memRead m a = memRead s.mem a := h 0 hn

theorem AgreesOn.take {a n k : Nat} (h : AgreesOn m s a n) (hk : k ≤ n) : AgreesOn m s a k :=
  fun p hp => h p (hp.trans_le hk)

theorem AgreesOn.drop {a n : Nat} (h : AgreesOn m s a n) (k : Nat) : AgreesOn m s (a + k) (n - k) := fun p hp => by
  rw [Nat.add_assoc]
  exact h _ (by omega)

/-! #### Reads -/

theorem memRead1_withMem {a : Nat} (h : memRead m a = memRead s.mem a) :
    memRead1 (withMem m s) j a = memRead1 s j a := by
  simp only [memRead1, byteSeen, withMem, h]

theorem fetchWord_withMem {a : Nat} (h : AgreesOn m s a 4) :
    fetchWord (withMem m s) j a = fetchWord s j a := by
  have hread (p : Nat) (hp : p < 4) : memRead1 (withMem m s) j (a + p) = memRead1 s j (a + p) :=
    memRead1_withMem (h p hp)
  simp only [fetchWord, memRead4, memRead1_withMem (h.first (by decide)), hread 1 (by decide), hread 2 (by decide),
    hread 3 (by decide)]
  rfl

theorem readWords_withMem {q a : Nat} (h : AgreesOn m s a (4 * q)) :
    readWords (withMem m s) j q a = readWords s j q a := by
  induction q generalizing a with
  | zero => rfl
  | succ q ih => rw [readWords, readWords, fetchWord_withMem (h.take (by omega)), ih (h.drop 4)]

theorem takeBlock_withMem (h : AgreesOn m s s.eng.pos (blockBytes s.eng.ksel)) :
    takeBlock (withMem m s) j = takeBlock s j := by
  rw [← four_mul_block_words] at h
  rw [takeBlock_eq_readWords, takeBlock_eq_readWords s]
  exact congrArg (Except.map (blockOf s j)) (readWords_withMem h)

theorem takeByte_withMem (h : memRead m s.eng.pos = memRead s.mem s.eng.pos) :
    takeByte (withMem m s) j = takeByte s j := by
  rw [takeByte, takeByte]
  exact congrArg (· >>= _) (memRead1_withMem h)

/-! #### Steps -/

theorem absorb_withMem (n : Nat) (r : Except Nat Word) :
    absorb n r j (withMem m s) = withMem m (absorb n r j s) := by
  cases r <;> rfl

theorem tickDigest_withMem (h : AgreesOn m s s.eng.pos s.eng.rem.toNat) :
    tickDigest j (withMem m s) = withMem m (tickDigest j s) := by
  have heng : (withMem m s).eng = s.eng := rfl
  rw [tickDigest, tickDigest, heng]
  split_ifs with hzero hblock
  · rfl
  · rw [takeBlock_withMem (h.take hblock.2), absorb_withMem]
  · rw [takeByte_withMem (h.first (Nat.pos_of_ne_zero (by simpa [BitVec.toNat_eq] using hzero))), absorb_withMem]

theorem tickTblinit_withMem (r : Nat) : tickTblinit r (withMem m s) = withMem m (tickTblinit r s) := by
  unfold tickTblinit
  rw [apply_ite (withMem m)]
  rfl

theorem tickCombine_withMem (b : Bool) : tickCombine b (withMem m s) = withMem m (tickCombine b s) := by
  unfold tickCombine
  simp only [apply_ite (withMem m)]
  rfl

theorem tick_withMem (h : AgreesAhead m s) : tick (withMem m s) = withMem m (tick s) := by
  have hctrl : (withMem m s).eng.ctrl = s.eng.ctrl := rfl
  rcases hc : s.eng.ctrl with _ | (j | r | b) | _
  · rw [tick_idle hc, tick_idle (hctrl.trans hc)]
  · rw [tick_digest hc, tick_digest (hctrl.trans hc), tickDigest_withMem (h j hc)]
  · rw [tick_tblinit hc, tick_tblinit (hctrl.trans hc), tickTblinit_withMem]
  · rw [tick_combine hc, tick_combine (hctrl.trans hc), tickCombine_withMem]
  · rw [tick_error hc, tick_error (hctrl.trans hc)]

theorem tickDigest_agreesAhead (h : AgreesOn m s s.eng.pos s.eng.rem.toNat) :
    AgreesAhead m (tickDigest j s) := by
  rcases tickDigest_cases j s with ⟨-, ht⟩ | ⟨n, r, -, -, hn, -, ht, -⟩ <;> rw [ht]
  · exact nofun
  · rcases absorb_cases n r j s with ⟨a, -, ht⟩ | ⟨c, -, ht⟩ <;> rw [ht]
    · exact nofun
    · intro _ _
      simp only [rem_sub_toNat hn]
      exact h.drop n

theorem tick_agreesAhead (h : AgreesAhead m s) : AgreesAhead m (tick s) := by
  rcases hc : s.eng.ctrl with _ | (j | r | b) | _
  · rwa [tick_idle hc]
  · rw [tick_digest hc]
    exact tickDigest_agreesAhead (h j hc)
  · rw [tick_tblinit hc]
    rcases tickTblinit_cases r s with ⟨-, ht⟩ | ⟨-, ht⟩ <;> rw [ht] <;> exact nofun
  · rw [tick_combine hc]
    rcases tickCombine_cases b s with ⟨-, -, ht⟩ | ⟨-, -, ht⟩ | ⟨-, -, ht⟩ | ⟨-, -, ht⟩ <;> rw [ht]
    · exact nofun
    · exact nofun
    · exact nofun
    · exact h
  · rwa [tick_error hc]

theorem ticks_withMem (n : Nat) (h : AgreesAhead m s) : ticks n (withMem m s) = withMem m (ticks n s) := by
  induction n generalizing s with
  | zero => rfl
  | succ n ih => rw [ticks_succ, ticks_succ, tick_withMem h, ih (tick_agreesAhead h)]

/-! #### Commands -/

theorem acceptDigest_withMem (k : Kernel) (w : Word) :
    acceptDigest k w (withMem m s) = withMem m (acceptDigest k w s) := by
  unfold acceptDigest
  simp only [apply_ite (withMem m)]
  rfl

theorem beginCommand_withMem (i : Instr) : beginCommand i (withMem m s) = withMem m (beginCommand i s) := by
  cases hk : kernelOf s.cfg.level i with
  | none => rcases eq_tblinit_or_combine_of_kernelOf_none hk with rfl | rfl <;> rfl
  | some k => rw [beginCommand_digest hk, beginCommand_digest (s := withMem m s) hk, acceptDigest_withMem]

theorem beginCommand_agreesAhead {i : Instr}
    (h : i = .combine ∨ i = .tblinit ∨ AgreesOn m s s.eng.ptr.toNat s.eng.len.toNat) :
    AgreesAhead m (beginCommand i s) := by
  rcases beginCommand_cases i s with ⟨err, info, -, hb⟩ | ⟨k, hk, hb⟩ | ⟨-, hb⟩ | ⟨-, hb⟩ <;> rw [hb]
  · exact nofun
  · rcases h with rfl | rfl | h
    · cases hk
    · cases hk
    · exact fun _ _ => h
  · exact nofun
  · exact nofun

end

/-- Settles O46: a digest reads no byte but those ahead of `POS` in its range, and no other step reads data memory. -/
theorem commandsReadOnlyTheRange : Obligations.CommandsReadOnlyTheRange := by
  unfold Obligations.CommandsReadOnlyTheRange
  intro s i m h
  have hfinish : finish (beginCommand i (withMem m s)) = withMem m (finish (beginCommand i s)) := by
    rw [beginCommand_withMem]
    exact ticks_withMem _ (beginCommand_agreesAhead h)
  refine ⟨whenIdle (fun u => finish (beginCommand i u)) s, by rw [exec_eq, issueWhole], ?_⟩
  show exec i (withMem m s) = .next (withMem m (whenIdle _ s))
  rw [exec_eq, issueWhole, whenIdle, whenIdle, apply_ite (withMem m), hfinish]
  rfl

end Sys2Proof.Machine

/-! Proofs of the statements of 30_encoding.md: the encoding of commands, issue and its checks, where steps stop, the two
granularities of a command. -/

namespace Sys2Proof.Machine

/-! ### Encoding and decoding (R77, R79) -/

/-- Settles O1: each word is the encoding of its command. -/
theorem opcodeWordsDecode : Obligations.OpcodeWordsDecode := by
  unfold Obligations.OpcodeWordsDecode
  exact ⟨decode_encode .tblinit, decode_encode .digestBit, decode_encode .digestHalf, decode_encode .digestTl1,
    decode_encode .digestTl2, decode_encode .digestB1, decode_encode .digestS4, decode_encode .digestS8,
    decode_encode .digestS16, decode_encode .digestS16p, decode_encode .digestFast, decode_encode .combine⟩

theorem decode_eq_ok_iff {w : Word} {i : Instr} : decode w = .ok i ↔ w = encode i := by
  refine ⟨eq_encode_of_decode, ?_⟩
  rintro rfl
  exact decode_encode i

/-- Decoding fails in one way only, naming the word. -/
theorem decode_eq_error {w : Word} {e : DecodeError} (h : decode w = .error e) : e = .illegalCommand w := by
  unfold decode at h
  split at h
  · cases h
  · cases h
    rfl

theorem decode_of_ne_encode {w : Word} (h : ∀ i, w ≠ encode i) : decode w = .error (.illegalCommand w) := by
  cases hd : decode w with
  | ok i => exact absurd (eq_encode_of_decode hd) (h i)
  | error e => rw [decode_eq_error hd]

/-- No command word has a bit of 31:8 set (R75). -/
theorem encode_high (i : Instr) : (encode i).extractLsb' 8 24 = 0 := by
  cases i <;> rfl

/-- The opcode of a command is one of those R77 lists. -/
theorem encode_low_mem (i : Instr) : ((encode i).extractLsb' 0 8).toNat ∈
    [0x01, 0x10, 0x11, 0x12, 0x13, 0x14, 0x15, 0x16, 0x17, 0x18, 0x1F, 0x20] := by
  cases i <;> decide

theorem ne_encode_of_high {w : Word} (h : w.extractLsb' 8 24 ≠ 0) (i : Instr) : w ≠ encode i := by
  rintro rfl
  exact h (encode_high i)

/-- Settles O2: `decode` answers the command of the matching row, and no row has a bit of 31:8 set. -/
theorem decodeInvertsEncode : Obligations.DecodeInvertsEncode := by
  unfold Obligations.DecodeInvertsEncode
  exact ⟨fun _ _ => decode_eq_ok_iff, fun _ => decode_of_ne_encode,
    fun _ h => decode_of_ne_encode (ne_encode_of_high h)⟩

/-! ### Issue outside `IDLE` (R80, R32, R185) -/

section
variable {s : State}

theorem exec_of_not_idle (i : Instr) (h : s.eng.ctrl ≠ .idle) : exec i s = .next s := by
  rw [exec_eq, issueWhole, whenIdle_of_not_idle _ h]

theorem issueWord_of_not_idle (w : Word) (h : s.eng.ctrl ≠ .idle) : issueWord w s = .next s := by
  unfold issueWord
  split
  · exact exec_of_not_idle _ h
  · rw [whenIdle_of_not_idle _ h]

theorem startWord_of_not_idle (w : Word) (h : s.eng.ctrl ≠ .idle) : startWord w s = s := by
  unfold startWord
  split <;> exact whenIdle_of_not_idle _ h

end

/-- Settles O5: whatever the word, its command or its refusal acts in `IDLE` alone. -/
theorem issueIgnoredUnlessIdle : Obligations.IssueIgnoredUnlessIdle := by
  unfold Obligations.IssueIgnoredUnlessIdle
  exact fun s h => ⟨fun i => exec_of_not_idle i h, fun _ => issueWord_of_not_idle _ h,
    fun w => congrArg _ (startWord_of_not_idle w h)⟩

/-! ### The issue checks (R84) -/

section
variable {s : State} {w : Word}

/-- Check 1, for the acceptance of a word. -/
theorem startWord_of_ne_encode (hidle : s.eng.ctrl = .idle) (h : ∀ i, w ≠ encode i) :
    startWord w s = raiseError .illegalCommand (w.setWidth 64) s := by
  rw [startWord, decode_of_ne_encode h]
  exact whenIdle_of_idle _ hidle

/-- Check 1, for a word taken whole. -/
theorem issueWord_of_ne_encode (hidle : s.eng.ctrl = .idle) (h : ∀ i, w ≠ encode i) :
    issueWord w s = .next (raiseError .illegalCommand (w.setWidth 64) s) := by
  rw [issueWord, decode_of_ne_encode h]
  exact congrArg _ (whenIdle_of_idle _ hidle)

/-- Check 3: acceptance of a DIGEST command whose rows exist but are not built. -/
theorem beginCommand_notBuilt {i : Instr} {k : Kernel} (hk : kernelOf s.cfg.level i = some k)
    (hrows : rowsNeeded k ≤ rowsOf s.cfg.level) (hpos : 0 < rowsNeeded k) (hbuilt : s.tvalid = false) :
    beginCommand i s = raiseError .tablesNotBuilt ((encode i).setWidth 64) s := by
  rw [beginCommand_digest hk]
  rcases acceptDigest_cases k (encode i) s with ⟨hlt, -⟩ | ⟨-, -, -, h⟩ | ⟨⟨-, hvalid⟩, -⟩
  · omega
  · exact h
  · exact absurd (hvalid hpos) (Bool.eq_false_iff.1 hbuilt)

/-- Check 2 cannot fail for DIGEST.FAST: it resolves to a kernel whose rows exist (R132). -/
theorem rowsNeeded_resolveFast_le (l : TableLevel) : rowsNeeded (resolveFast l) ≤ rowsOf l := by
  cases l <;> decide

end

/-- Settles O4: no encoding has such bits, and check 1 raises the error with the field values of R183. -/
theorem illegalWordRaises : Obligations.IllegalWordRaises := by
  unfold Obligations.IllegalWordRaises
  refine ⟨fun w hw i => ?_, fun s v hidle hv => ?_⟩
  · rintro rfl
    exact hw.elim (fun hhigh => hhigh (encode_high i)) (fun hlow => hlow (encode_low_mem i))
  · exact ⟨_, issueWord_of_ne_encode hidle hv, rfl, rfl, rfl, rfl, rfl, rfl, rfl, rfl, rfl⟩

/-- Settles O6: what acceptance does when each check is the first to fail, and when none fails. -/
theorem issueChecksInOrder : Obligations.IssueChecksInOrder := by
  unfold Obligations.IssueChecksInOrder
  refine fun s w hidle => ⟨startWord_of_ne_encode hidle, ?_, ?_, rowsNeeded_resolveFast_le _⟩
  · rintro i k rfl hk
    rw [startWord_encode i hidle]
    refine ⟨beginCommand_unavailable hk, beginCommand_notBuilt hk, fun hchecks => ?_⟩
    rw [beginCommand_checksPass hk hchecks]
    rfl
  · rintro (rfl | rfl) <;> rw [startWord_encode _ hidle] <;> rfl

/-- Settles O7: acceptance that the checks let through is the latching of R81. -/
theorem acceptanceLatchesOperands : Obligations.AcceptanceLatchesOperands := by
  unfold Obligations.AcceptanceLatchesOperands
  refine fun s => ⟨fun i k hk hchecks => ?_, rfl, rfl, rfl, rfl⟩
  rw [beginCommand_checksPass hk hchecks]
  exact ⟨rfl, rfl, rfl, rfl⟩

/-- Settles O8: a command refused at acceptance takes no step after it. -/
theorem refusedCommandRaises : Obligations.RefusedCommandRaises := by
  unfold Obligations.RefusedCommandRaises
  exact fun s i k hidle hk => ⟨fun hrows => exec_refused hidle (beginCommand_unavailable hk hrows),
    fun hrows hpos hbuilt => exec_refused hidle (beginCommand_notBuilt hk hrows hpos hbuilt)⟩

/-! ### The two granularities (R83) -/

section
variable {s : State}

/-- A word taken whole is its acceptance and then a run of ticks. -/
theorem issueWord_eq_ticks (w : Word) (s : State) : ∃ n, issueWord w s = .next (ticks n (startWord w s)) := by
  by_cases hidle : s.eng.ctrl = .idle
  · by_cases hw : ∃ i, w = encode i
    · obtain ⟨i, rfl⟩ := hw
      refine ⟨workLeft (beginCommand i s), ?_⟩
      rw [issueWord, decode_encode, startWord_encode i hidle]
      show exec i s = _
      rw [exec_eq, issueWhole, whenIdle_of_idle _ hidle, finish]
    · have hne : ∀ i, w ≠ encode i := not_exists.1 hw
      exact ⟨0, by rw [issueWord_of_ne_encode hidle hne, startWord_of_ne_encode hidle hne, ticks_zero]⟩
  · exact ⟨0, by rw [issueWord_of_not_idle w hidle, startWord_of_not_idle w hidle, ticks_zero]⟩

/-- The engines other than the addressed one are not busy. -/
def OthersRest (s : State) : Prop := ∀ e ∈ otherEngines s, e.isBusy = false

/-- With the other engines at rest the step the block takes is the addressed engine's. -/
theorem OthersRest.drain_eq_tick (h : OthersRest s) : drain s = tick s := by
  cases hb : s.eng.isBusy with
  | true =>
    have hbefore : s.before.findIdx? Engine.isBusy = none :=
      List.findIdx?_eq_none_iff.2 fun e he => h e (List.mem_append_left _ he)
    have hfirst : (allEngines s).findIdx? Engine.isBusy = some s.before.length := by
      simp [allEngines, List.findIdx?_append, List.findIdx?_cons, hbefore, hb]
    simp [drain, hfirst, focus_self]
  | false =>
    have hnone : (allEngines s).findIdx? Engine.isBusy = none :=
      List.findIdx?_eq_none_iff.2 fun e he => (mem_allEngines_iff.1 he).elim (fun he => he ▸ hb) (h e)
    rw [tick_of_not_busy hb]
    simp [drain, hnone]

theorem OthersRest.tick (h : OthersRest s) : OthersRest (tick s) := by
  obtain ⟨hbefore, hafter, -⟩ := (tick_outcome s).others
  rwa [OthersRest, otherEngines, hbefore, hafter]

/-- A TBLINIT that starts on another engine starts and ends no command of this one (R212). -/
theorem taintReader_isBusy (e : Engine) : (taintReader e).isBusy = e.isBusy := by
  rcases taintReader_cases e with h | ⟨j, hc, h⟩ <;> rw [h]
  simp [Engine.isBusy, hc]

theorem OthersRest.startWord (h : OthersRest s) (w : Word) : OthersRest (startWord w s) := by
  rcases (startWord_keeps w s).2.others with ⟨hbefore, hafter⟩ | ⟨-, hbefore, hafter⟩ <;>
    rw [OthersRest, otherEngines, hbefore, hafter]
  · exact h
  · rw [← List.map_append, List.forall_mem_map]
    exact fun e he => (taintReader_isBusy e).trans (h e he)

/-- A run goes on from the state that a step answers. -/
theorem run_succ_of_step {M : Host.Core} {t u : M.State} (h : M.step t = .next u) (n : Nat) :
    M.run (n + 1) t = M.run n u := by
  rw [Host.Core.run, h]

theorem step_of_pending {e : Event} {es : List Event} (h : s.pending = e :: es) :
    step s = performEvent e { s with pending := es } := by
  unfold step
  rw [h]

theorem step_of_nothing_pending (h : s.pending = []) : step s = .next (drain s) := by
  unfold step
  rw [h]

/-- With nothing pending and the other engines at rest, the machine's steps are the ticks of the addressed engine. -/
theorem OthersRest.run_eq_ticks (h : OthersRest s) (hp : s.pending = []) (n : Nat) :
    Host.Core.run core n s = .next (ticks n s) := by
  induction n generalizing s with
  | zero => rfl
  | succ n ih =>
    have hstep : core.step s = .next (Machine.tick s) := by
      rw [← h.drain_eq_tick]
      exact step_of_nothing_pending hp
    rw [run_succ_of_step hstep, ticks_succ]
    exact ih h.tick ((tick_commandKeeps s).pending.trans hp)

/-- A step whose only event is an action on the addressed engine performs it. -/
theorem step_single (a : Action) (s : State) :
    step { s with pending := [⟨s.before.length, a⟩] } = perform a { s with pending := [] } := by
  have hfocus : focus s.before.length { s with pending := [] } = some { s with pending := [] } :=
    focus_self { s with pending := [] }
  rw [step_of_pending rfl, performEvent, hfocus]

end

/-- Settles O50: a word taken whole is its acceptance and then ticks, and with the other engines at rest every step with
nothing pending is one of these ticks. -/
theorem fineStepsRefineWholeCommand : Obligations.FineStepsRefineWholeCommand := by
  unfold Obligations.FineStepsRefineWholeCommand
  intro s w hothers _
  have hrest : OthersRest { s with pending := [] } := hothers
  obtain ⟨n, hn⟩ := issueWord_eq_ticks w { s with pending := [] }
  refine ⟨n, ?_⟩
  have hwhole : step { s with pending := [⟨s.before.length, .write .cmd (w.setWidth 64)⟩] } =
      issueWord w { s with pending := [] } := by
    rw [step_single, perform, BitVec.setWidth_setWidth_of_le _ (by decide), BitVec.setWidth_eq]
  have hfirst : core.step { s with pending := [⟨s.before.length, .start w⟩] } =
      .next (startWord w { s with pending := [] }) := step_single (.start w) s
  rw [hwhole, hn]
  refine (run_succ_of_step hfirst n).trans ?_
  exact (hrest.startWord w).run_eq_ticks (startWord_keeps w _).1.pending n

/-! ### Where steps stop -/

section
variable {s : State}

/-- The `Issue` of any word answers a next state. -/
theorem issueWord_isNext (w : Word) (s : State) : ∃ t, issueWord w s = .next t := by
  obtain ⟨n, h⟩ := issueWord_eq_ticks w s
  exact ⟨_, h⟩

/-- A well-formed action answers a next state: the only other action is a store past the address space. -/
theorem perform_isNext {a : Action} (h : a.wf s.cfg = true) : ∃ t, perform a s = .next t := by
  cases a with
  | write r v =>
    cases r with
    | cmd => exact issueWord_isNext _ s
    | opa | opb | ptr | len | res | status | config | einfo => exact ⟨_, rfl⟩
  | store x b => exact ⟨_, if_pos (of_decide_eq_true h)⟩
  | start | read | tick | reset => exact ⟨_, rfl⟩

/-- An event for an engine past those of the block has nothing to act on. -/
theorem performEvent_of_inst_ge {e : Event} (h : (allEngines s).length ≤ e.inst) :
    performEvent e s = .fault .noSuchInstance := by
  rw [performEvent, focus, List.drop_eq_nil_of_le h]

/-- An event for an engine of the block is its action on that engine. -/
theorem performEvent_of_inst_lt {e : Event} (h : e.inst < (allEngines s).length) :
    ∃ u, u.cfg = s.cfg ∧ performEvent e s = perform e.act u := by
  obtain ⟨u, hu⟩ := focus_isSome h
  exact ⟨u, (focus_sameParams hu).1, by rw [performEvent, hu]⟩

end

/-- Settles O58: the focus fails past `NENG` alone, and an action past the address space alone. -/
theorem stepStopsOnlyOnMissingTargets : Obligations.StepStopsOnlyOnMissingTargets := by
  unfold Obligations.StepStopsOnlyOnMissingTargets
  refine fun s hneng => ⟨fun hp => ⟨drain s, step_of_nothing_pending hp⟩, fun e es hp => ?_⟩
  have hperform (h : e.inst < (allEngines s).length) := performEvent_of_inst_lt (s := { s with pending := es }) h
  rw [step_of_pending hp, ← hneng]
  refine ⟨fun hwf => ?_, fun hinst => ?_, fun a b hinst hact ha => ?_⟩
  · rw [Event.wf, Bool.and_eq_true, decide_eq_true_eq, ← hneng] at hwf
    obtain ⟨hinst, hact⟩ := hwf
    obtain ⟨u, hcfg, hu⟩ := hperform hinst
    rw [hu]
    exact perform_isNext (hcfg ▸ hact)
  · exact performEvent_of_inst_ge hinst
  · obtain ⟨u, hcfg, hu⟩ := hperform hinst
    rw [hu, hact]
    exact if_neg (hcfg ▸ Nat.not_lt.2 ha)

end Sys2Proof.Machine

/-! Proofs of the statements of 40_tables.md: the rows of built tables are linear, TBLINIT builds them. -/

namespace Sys2Proof.Machine

/-! ### Built rows are linear (R99) -/

theorem row0_xor (a b : Byte) : row0 (a ^^^ b) = row0 a ^^^ row0 b := by
  rw [row0, BitVec.setWidth_xor, bitstep_iterate_xor, row0, row0]

theorem rowValue_xor (r : Nat) (a b : Byte) : rowValue r (a ^^^ b) = rowValue r a ^^^ rowValue r b := by
  rw [rowValue, row0_xor, zbyte_iterate_xor, rowValue, rowValue]

section
variable {f : Byte → Word} (hf : ∀ a b, f (a ^^^ b) = f a ^^^ f b)
include hf

theorem map_zero_of_map_xor : f 0 = 0 := by
  have h := hf 0 0
  rwa [BitVec.xor_self, BitVec.xor_self] at h

/-- A linear function of a byte is the sum of its values at the byte's set bits. -/
theorem eq_foldr_setBits_of_map_xor (i : Byte) :
    f i = (List.range 8).foldr (fun j x => (if i.getLsbD j then f (1#8 <<< j) else 0) ^^^ x) 0 := by
  have hbits : (List.range 8).foldr (fun j x => (if i.getLsbD j then 1#8 <<< j else 0) ^^^ x) 0 = i := by
    revert i
    decide
  calc f i = f ((List.range 8).foldr (fun j x => (if i.getLsbD j then 1#8 <<< j else 0) ^^^ x) 0) := by rw [hbits]
    _ = (List.range 8).foldr (fun j x => f (if i.getLsbD j then 1#8 <<< j else 0) ^^^ x) (f 0) :=
      (List.foldr_hom f fun j x => (hf _ x).symm).symm
    _ = _ := by simp only [apply_ite f, map_zero_of_map_xor hf]

end

/-- Settles O24: an entry of a built row is linear in its index because the byte's bit steps and the zero-byte steps are. -/
theorem tableRowsAreLinear : Obligations.TableRowsAreLinear := by
  unfold Obligations.TableRowsAreLinear
  intro c r hr
  simp only [tableEntry_builtTable hr]
  exact ⟨rowValue_xor r, map_zero_of_map_xor (rowValue_xor r), eq_foldr_setBits_of_map_xor (rowValue_xor r)⟩

/-! ### TBLINIT, row by row (R95) -/

/-- TBLINIT is running with `r` the next row to build, and the rows before it have their contents (R98). -/
structure BuildsFrom (c : Config) (r : Nat) (s : State) : Prop where
  cfg : s.cfg = c
  ctrl : s.eng.ctrl = .busy (.tblinit r)
  length : s.table.length = rowsOf c.level
  rows : ∀ k < r, s.table.getD k [] = builtRow k

/-- TBLINIT has completed, and table memory holds the built tables (R98, R101). -/
structure TablesBuilt (c : Config) (s : State) : Prop where
  table : s.table = builtTable c
  tvalid : s.tvalid = true
  ctrl : s.eng.ctrl = .idle
  done : s.eng.done = true

section
variable {c : Config} {r : Nat} {s : State}

theorem BuildsFrom.tick_row (h : BuildsFrom c r s) (hr : r < rowsOf c.level) : BuildsFrom c (r + 1) (tick s) := by
  obtain ⟨rfl, hctrl, hlen, hrows⟩ := h
  obtain ⟨-, htick⟩ := (tickTblinit_cases r s).resolve_right fun h => Nat.not_le_of_lt hr h.1
  rw [tick_tblinit hctrl, htick]
  refine ⟨rfl, rfl, (List.length_set ..).trans hlen, fun k hk => ?_⟩
  exact getD_set_buildRow (hlen ▸ hr) hrows ((Nat.lt_succ_iff_lt_or_eq.1 hk).symm.imp_right (hrows k))

theorem BuildsFrom.tick_complete (h : BuildsFrom c (rowsOf c.level) s) : TablesBuilt c (tick s) := by
  obtain ⟨rfl, hctrl, hlen, hrows⟩ := h
  obtain ⟨-, htick⟩ := (tickTblinit_cases _ s).resolve_left fun h => Nat.lt_irrefl _ h.1
  rw [tick_tblinit hctrl, htick]
  exact ⟨eq_builtTable hlen hrows, rfl, rfl, rfl⟩

/-- One step for each of the `n` rows left and one to complete. -/
theorem BuildsFrom.ticks {n : Nat} (h : BuildsFrom c r s) (hn : r + n = rowsOf c.level) :
    TablesBuilt c (ticks (n + 1) s) := by
  induction n generalizing r s with
  | zero =>
    subst hn
    rw [ticks_succ]
    exact h.tick_complete
  | succ n ih =>
    rw [ticks_succ]
    exact ih (h.tick_row (by omega)) (by omega)

/-- A whole TBLINIT on an idle engine takes as many steps as there are rows, and one to complete. -/
theorem exec_tblinit_tablesBuilt (hidle : s.eng.ctrl = .idle) (hshape : TableShape s.cfg s.table) :
    ∃ t, exec .tblinit s = .next t ∧ TablesBuilt s.cfg t := by
  have hbegin : BuildsFrom s.cfg 0 (beginCommand .tblinit s) := ⟨rfl, rfl, hshape.1, nofun⟩
  rw [exec_eq, issueWhole, whenIdle_of_idle _ hidle]
  exact ⟨_, rfl, hbegin.ticks (Nat.zero_add _)⟩

end

/-- `next` of R97 with the entries of a built table: each row from the row before it and row 0. -/
theorem tableEntry_builtTable_succ {c : Config} {r : Nat} (hr : r + 1 < rowsOf c.level) (i : Byte) :
    tableEntry (builtTable c) (r + 1) i = (tableEntry (builtTable c) r i >>> 8) ^^^
      tableEntry (builtTable c) 0 ((tableEntry (builtTable c) r i).extractLsb' 0 8) := by
  rw [tableEntry_builtTable hr, tableEntry_builtTable (Nat.lt_of_succ_lt hr), tableEntry_builtTable (Nat.zero_lt_of_lt hr),
    rowValue_succ, zbyte_eq]
  rfl

/-- Settles O35: TBLINIT passes every row, each built from the rows before it, and then completes. -/
theorem tblinitBuildsTables : Obligations.TblinitBuildsTables := by
  unfold Obligations.TblinitBuildsTables
  intro s hidle hshape
  obtain ⟨t, hexec, htable, htvalid, hctrl, hdone⟩ := exec_tblinit_tablesBuilt hidle hshape
  obtain ⟨hres, -⟩ := exec_tblinit_frame hexec
  refine ⟨t, hexec, htable, htvalid, hctrl, hdone, hres, ?_⟩
  rw [htable]
  exact ⟨fun i hr => tableEntry_builtTable hr i, fun _ i hr => tableEntry_builtTable_succ hr i,
    fun _ i hr => tableEntry_builtTable hr i⟩

end Sys2Proof.Machine

/-! Proofs of the statements of 41_digest_bytewise.md: the byte step, the laws of the digest, the bytewise commands. -/

namespace Sys2Proof.Machine

/-! ### The byte step (R107 to R114) -/

/-- Settles O22: both forms compared with `T0` at the 256 bytes. -/
theorem tablelessForms : Obligations.TablelessForms := by
  unfold Obligations.TablelessForms
  exact fun s => ⟨t0Shift_eq_row0 s, t0Sum_eq_row0 s⟩

/-- Settles O20: each step is eight bit steps, which are linear and shift the bits above the low byte. -/
theorem byteStepSplits : Obligations.ByteStepSplits := by
  unfold Obligations.ByteStepSplits
  exact ⟨fun c b => ⟨rfl, bytestep_eq_zbyte_xor c b⟩, fun c => ⟨rfl, zbyte_eq c, zbyte_eq_bitstep c⟩, row0_xor, zbyte_xor⟩

/-- Settles O23, kernel by kernel. -/
theorem byteStepsAgree : Obligations.ByteStepsAgree := by
  unfold Obligations.ByteStepsAgree
  exact fun c b => ⟨(bytestep_eq_bitstep c b).symm, stepHalf_eq_bytestep c b, stepTl1_eq_bytestep c b,
    stepTl2_eq_bytestep c b, fun _ ht => stepB1_eq_bytestep ht c b⟩

/-! ### Chaining (R106, R115) -/

theorem digest_nil (seed : Word) : digest [] seed = seed := BitVec.not_not

/-- The complement that ends one digest undoes the one that starts the next. -/
theorem digest_append (a b : List Byte) (seed : Word) : digest (a ++ b) seed = digest b (digest a seed) := by
  rw [digest, digest, digest, BitVec.not_not, regAfter_append]

theorem foldl_digest_singleton (d : List Byte) (seed : Word) :
    d.foldl (fun s b => digest [b] s) seed = digest d seed := by
  induction d generalizing seed with
  | nil => exact (digest_nil seed).symm
  | cons b d ih => exact (ih (digest [b] seed)).trans (digest_append [b] d seed).symm

/-- Settles O26: the accumulator passes from one part to the next. -/
theorem digestChains : Obligations.DigestChains := by
  unfold Obligations.DigestChains
  exact ⟨fun a b seed => (digest_append a b seed).symm, foldl_digest_singleton⟩

/-! ### The affine law (R116) -/

theorem bytestep_zero (b : Byte) : bytestep 0 b = row0 b := by
  rw [bytestep_eq_zbyte_xor, show zbyte 0 = 0#32 by decide, BitVec.zero_xor]

/-- The bytes enter by exclusive-or, so the start value only passes through zero-byte steps. -/
theorem regAfter_eq_zbyte_xor (r : Word) (d : List Byte) : regAfter r d = zbyte^[d.length] r ^^^ regAfter 0 d := by
  induction d generalizing r with
  | nil => exact (BitVec.xor_zero).symm
  | cons b d ih =>
    calc regAfter r (b :: d) = zbyte^[d.length] (bytestep r b) ^^^ regAfter 0 d := ih _
      _ = zbyte^[d.length] (zbyte r) ^^^ (zbyte^[d.length] (bytestep 0 b) ^^^ regAfter 0 d) := by
        rw [bytestep_eq_zbyte_xor, zbyte_iterate_xor, BitVec.xor_assoc, bytestep_zero]
      _ = zbyte^[(b :: d).length] r ^^^ regAfter 0 (b :: d) := by
        rw [← ih (bytestep 0 b)]
        rfl

/-- Settles O27: the affine law of the accumulator, read between the complements. -/
theorem digestIsAffine : Obligations.DigestIsAffine := by
  unfold Obligations.DigestIsAffine
  exact fun d r seed => ⟨regAfter_eq_zbyte_xor r d, congrArg _ (regAfter_eq_zbyte_xor (~~~seed) d)⟩

/-! ### A digest on an empty range (R106) -/

/-- A whole DIGEST command that the checks of R84 let through is its latching and then its run. -/
theorem exec_checksPass {i : Instr} {k : Kernel} {s : State} (hk : kernelOf s.cfg.level i = some k)
    (hidle : s.eng.ctrl = .idle) (hchecks : ChecksPass k s) :
    exec i s = .next (finish (latchDigest k (clearDone s))) := by
  rw [exec_eq, issueWhole, whenIdle_of_idle _ hidle, beginCommand_checksPass hk hchecks]

/-- With nothing to read, the first step after the latching completes with the seed. -/
theorem finish_latchDigest_empty (k : Kernel) {s : State} (hlen : s.eng.len = 0) :
    finish (latchDigest k s) = complete s.eng.opa (latchDigest k s) := by
  have hrem : (latchDigest k s).eng.rem = 0 := hlen
  have hwork : workLeft (latchDigest k s) = 0 + 1 := congrArg (fun n : DWord => n.toNat + 1) hlen
  rw [finish, hwork, ticks_succ, ticks_zero, tick_digest rfl, tickDigest, if_pos hrem]
  exact congrArg (complete · _) BitVec.not_not

/-- Settles O42: the command is its latching and a completion with the seed, and all data memories agree on a range without
bytes. -/
theorem emptyRangeReturnsSeed : Obligations.EmptyRangeReturnsSeed := by
  unfold Obligations.EmptyRangeReturnsSeed
  intro s i k hk hidle hchecks hlen
  have hexec := exec_checksPass hk hidle hchecks
  rw [finish_latchDigest_empty k (s := clearDone s) hlen] at hexec
  refine ⟨_, hexec, rfl, rfl, rfl, rfl, rfl, rfl, fun m => ?_, digest_nil 0⟩
  have hagree : AgreesOn m s s.eng.ptr.toNat s.eng.len.toNat := by
    rw [hlen]
    exact nofun
  obtain ⟨t, ht, htm⟩ := commandsReadOnlyTheRange s i m (.inr (.inr hagree))
  cases hexec.symm.trans ht
  exact htm

/-! ### Digests to completion (R105, R114) -/

section
variable {k : Kernel} {s : State} {i : Instr} {n w : Nat}

/-- Every step folds a byte or more, so one step more than the bytes left is enough to complete. -/
theorem ticks_digestAt (hready : KernelReady k s) (hadm : RangeAdmitted s)
    (hbe : blockBytes k = 0 ∨ s.cfg.cfgBe = s.cfg.platBe) (hn : n ≤ s.eng.len.toNat) (hw : s.eng.len.toNat < n + w) :
    ticks w (digestAt s k n) = complete (digest (operandBytes s) s.eng.opa) s := by
  induction w generalizing n with
  | zero => omega
  | succ w ih =>
    rw [ticks_succ]
    rcases tick_digestAt hready hadm hbe hn with ⟨-, h⟩ | ⟨m, hm, hnm, h⟩ <;> rw [h]
    · exact ticks_of_not_busy rfl w
    · exact ih hnm (by omega)

/-- A DIGEST command of any kernel that executes normally completes with the digest of its range (R105, R125). -/
theorem exec_digest (hk : kernelOf s.cfg.level i = some k) (hready : KernelReady k s) (hadm : RangeAdmitted s)
    (hbe : blockBytes k = 0 ∨ s.cfg.cfgBe = s.cfg.platBe) :
    exec i s = .next (complete (digest (operandBytes s) s.eng.opa) s) := by
  have hwork : workLeft (digestAt s k 0) = s.eng.len.toNat + 1 :=
    congrArg (· + 1) (digestAt_rem_toNat (Nat.zero_le _))
  rw [exec_eq, issueWhole, whenIdle_of_idle _ hready.1, beginCommand_eq_digestAt hk hready, finish, hwork,
    ticks_digestAt hready hadm hbe (Nat.zero_le _) (by omega)]

end

/-- Settles O37: a bytewise kernel takes no block step, so its byte-order flags do not matter. -/
theorem bytewiseDigestsComplete : Obligations.BytewiseDigestsComplete := by
  unfold Obligations.BytewiseDigestsComplete
  intro s i k hik hready hadm
  obtain ⟨hk, hblock⟩ : kernelOf s.cfg.level i = some k ∧ blockBytes k = 0 := by
    simp only [List.mem_cons, Prod.mk.injEq, List.not_mem_nil, or_false] at hik
    rcases hik with ⟨rfl, rfl⟩ | ⟨rfl, rfl⟩ | ⟨rfl, rfl⟩ | ⟨rfl, rfl⟩ | ⟨rfl, rfl⟩ <;> exact ⟨rfl, rfl⟩
  exact exec_digest hk hready hadm (.inl hblock)

end Sys2Proof.Machine

/-! Proofs of the statements of 42_digest_slicing.md: the block steps, the slicing commands with the byte-order flag right
and wrong, DIGEST.FAST, the prefetch hint. -/

namespace Sys2Proof.Machine

/-- Settles O25: the block step of each width, over its own rows. -/
theorem blockStepIsByteSteps : Obligations.BlockStepIsByteSteps := by
  unfold Obligations.BlockStepIsByteSteps
  exact fun t c => ⟨fun h => blockS4_eq_regAfter h c, fun h => blockS8_eq_regAfter h c, fun h => blockS16_eq_regAfter h c⟩

/-! ### Slicing with the byte-order flag right (R125 to R131) -/

/-- The four slicing commands run the kernels that take blocks. -/
theorem slicing_kernelOf {i : Instr} {k : Kernel}
    (h : (i, k) ∈ [(Instr.digestS4, Kernel.s4), (.digestS8, .s8), (.digestS16, .s16), (.digestS16p, .s16p)])
    (l : TableLevel) : kernelOf l i = some k ∧ 0 < blockBytes k := by
  simp only [List.mem_cons, Prod.mk.injEq, List.not_mem_nil, or_false] at h
  rcases h with ⟨rfl, rfl⟩ | ⟨rfl, rfl⟩ | ⟨rfl, rfl⟩ | ⟨rfl, rfl⟩ <;> exact ⟨rfl, by decide⟩

/-- Settles O38: with the flag right a block step folds its bytes in address order. -/
theorem slicingDigestsComplete : Obligations.SlicingDigestsComplete := by
  unfold Obligations.SlicingDigestsComplete
  exact fun s i k hik hready hadm hbe => exec_digest (slicing_kernelOf hik _).1 hready hadm (.inr hbe)

/-! ### Slicing with the byte-order flag wrong (R134) -/

/-- How many groups of four bytes the block steps of kernel `k` cover in `n` bytes. -/
def groupsIn (k : Kernel) (n : Nat) : Nat := n / blockBytes k * blockBytes k / 4

/-- Where byte `p` of a range is found once its first `g` groups of four are reversed. -/
def swapOffset (g p : Nat) : Nat := if p < 4 * g then p / 4 * 4 + (3 - p % 4) else p

section
variable {k : Kernel}

theorem blockBytes_cases (h : 0 < blockBytes k) : blockBytes k = 4 ∨ blockBytes k = 8 ∨ blockBytes k = 16 := by
  cases k <;> simp [blockBytes] at h ⊢

theorem groupsIn_of_lt {n : Nat} (h : n < blockBytes k) : groupsIn k n = 0 := by
  simp [groupsIn, Nat.div_eq_of_lt h]

theorem four_mul_groupsIn_le (k : Kernel) (n : Nat) : 4 * groupsIn k n ≤ n :=
  (Nat.mul_div_le _ 4).trans (Nat.div_mul_le_self n _)

/-- A block step takes its own groups off those that are left. -/
theorem groupsIn_eq_add {n : Nat} (hk : 0 < blockBytes k) (h : blockBytes k ≤ n) :
    groupsIn k n = groupsIn k (n - blockBytes k) + blockBytes k / 4 := by
  unfold groupsIn
  rcases blockBytes_cases hk with h4 | h8 | h16
  · rw [h4] at h ⊢; omega
  · rw [h8] at h ⊢; omega
  · rw [h16] at h ⊢; omega

@[simp] theorem swapOffset_zero (p : Nat) : swapOffset 0 p = p := if_neg (Nat.not_lt_zero p)

theorem swapOffset_add (g q p : Nat) : swapOffset (g + q) (4 * q + p) = 4 * q + swapOffset g p := by
  unfold swapOffset
  split_ifs <;> omega

/-- In the first group the bytes are found in the opposite order. -/
theorem swapOffset_first (g : Nat) {p : Nat} (hp : p < 4) : swapOffset (g + 1) p = 3 - p := by
  unfold swapOffset
  rw [if_pos (by omega)]
  omega

theorem reverseGroups_map_range (f : Nat → Byte) {g n : Nat} (h : 4 * g ≤ n) :
    reverseGroups g ((List.range n).map f) = (List.range n).map fun p => f (swapOffset g p) := by
  induction g generalizing f n with
  | zero => simp [reverseGroups]
  | succ g ih =>
    obtain ⟨n, rfl⟩ := Nat.exists_eq_add_of_le (show 4 ≤ n by omega)
    have hrest := ih (fun p => f (4 + p)) (n := n) (by omega)
    have hswap (p : Nat) : swapOffset (g + 1) (4 + p) = 4 + swapOffset g p := swapOffset_add g 1 p
    have hfour : List.range 4 = [0, 1, 2, 3] := rfl
    simp only [List.range_add, hfour, List.map_cons, List.map_map, List.cons_append, List.nil_append,
      reverseGroups, Function.comp_def, hrest, hswap]
    simp [swapOffset_first g]

end

/-- A data memory written out holds the bytes it was written with. -/
theorem memRead_map (f : Nat → Byte) (a : Nat) {l : List Nat} {p : Nat} (hp : p ∈ l) :
    memRead (l.map fun q => (a + q, f q)) (a + p) = f p := by
  induction l with
  | nil => cases hp
  | cons q l ih =>
    simp only [List.map_cons, memRead, Nat.add_left_cancel_iff]
    split_ifs with hq
    · rw [hq]
    · exact ih ((List.mem_cons.1 hp).resolve_left (Ne.symm hq))

/-- `s` with the byte-order flag `be` and the data memory `m`. -/
def withOrder (be : Bool) (m : List Host.Cell) (s : State) : State :=
  { s with cfg := { s.cfg with cfgBe := be }, mem := m }

/-- The `n` bytes of data memory from address `a` are those of the memory `m` with the first `g` groups of four reversed. -/
def SwappedOn (m : List Host.Cell) (s : State) (a g n : Nat) : Prop :=
  ∀ p < n, memRead s.mem (a + p) = memRead m (a + swapOffset g p)

section
variable {be : Bool} {m : List Host.Cell} {s : State} {j : DigestJob} {a g n q : Nat}

theorem SwappedOn.drop (h : SwappedOn m s a (g + q) n) : SwappedOn m s (a + 4 * q) g (n - 4 * q) := fun p hp => by
  rw [Nat.add_assoc, h _ (by omega), swapOffset_add, Nat.add_assoc]

theorem swappedOn_zero_iff : SwappedOn m s a 0 n ↔ AgreesOn m s a n := by
  simp only [SwappedOn, AgreesOn, swapOffset_zero, eq_comm]

variable (hright : s.cfg.cfgBe = s.cfg.platBe) (hwrong : be ≠ s.cfg.platBe)
include hright hwrong

/-- The wrong flag and the reversed bytes cancel in every word. -/
theorem fetchWord_withOrder (hstale : j.stale = []) (hadm : ∀ p < 4, admitted s.cfg (a + p) = true) (hn : 4 ≤ n)
    (h : SwappedOn m s a (g + 1) n) : fetchWord (withOrder be m s) j a = fetchWord s j a := by
  have hbyte (p : Nat) (hp : p < 4) : memRead s.mem (a + p) = memRead m (a + (3 - p)) := by
    rw [h p (by omega), swapOffset_first g hp]
  have hwrong' : (withOrder be m s).cfg.cfgBe ≠ (withOrder be m s).cfg.platBe := hwrong
  rw [fetchWord_clean hstale hadm, fetchWord_clean (s := withOrder be m s) hstale hadm, if_pos hright, if_neg hwrong',
    hbyte 1 (by decide), hbyte 2 (by decide), hbyte 3 (by decide), show memRead s.mem a = _ from hbyte 0 (by decide)]
  rfl

theorem readWords_withOrder (hstale : j.stale = []) (hadm : ∀ p < 4 * q, admitted s.cfg (a + p) = true) (hn : 4 * q ≤ n)
    (h : SwappedOn m s a (g + q) n) : readWords (withOrder be m s) j q a = readWords s j q a := by
  induction q generalizing a n with
  | zero => rfl
  | succ q ih =>
    have hrest : SwappedOn m s (a + 4) (g + q) (n - 4) :=
      SwappedOn.drop (q := 1) (by rwa [Nat.add_assoc])
    rw [readWords, readWords, ih (fun p hp => by rw [Nat.add_assoc]; exact hadm _ (by omega)) (by omega) hrest,
      fetchWord_withOrder hright hwrong hstale (fun p hp => hadm p (by omega)) (by omega) (g := g + q) h]

/-- Reversing the groups a block step covers makes up for the wrong flag. -/
theorem takeBlock_withOrder (hstale : j.stale = [])
    (hadm : ∀ p < blockBytes s.eng.ksel, admitted s.cfg (s.eng.pos + p) = true) (hn : blockBytes s.eng.ksel ≤ n)
    (h : SwappedOn m s s.eng.pos (g + blockBytes s.eng.ksel / 4) n) :
    takeBlock (withOrder be m s) j = takeBlock s j := by
  rw [← four_mul_block_words] at hadm hn
  rw [takeBlock_eq_readWords, takeBlock_eq_readWords s]
  exact congrArg (Except.map (blockOf s j)) (readWords_withOrder hright hwrong hstale hadm hn h)

end

/-- The byte step reads no word: it does not know the flag (R57). -/
theorem takeByte_withOrder {be : Bool} {m : List Host.Cell} {s : State} {j : DigestJob}
    (h : memRead m s.eng.pos = memRead s.mem s.eng.pos) : takeByte (withOrder be m s) j = takeByte s j :=
  takeByte_withMem h

/-- The bytes that a digest with kernel `k`, accepted in `s`, has yet to fold after `n`: those of `m` with every group
reversed that its block steps will cover. -/
def SwappedAhead (m : List Host.Cell) (s : State) (k : Kernel) (n : Nat) : Prop :=
  SwappedOn m s (s.eng.ptr.toNat + n) (groupsIn k (s.eng.len.toNat - n)) (s.eng.len.toNat - n)

section
variable {be : Bool} {m : List Host.Cell} {s : State} {k : Kernel} {n w : Nat}

theorem SwappedAhead.block (h : SwappedAhead m s k n) (hk : 0 < blockBytes k)
    (hn : blockBytes k ≤ s.eng.len.toNat - n) : SwappedAhead m s k (n + blockBytes k) := by
  unfold SwappedAhead at h ⊢
  rw [groupsIn_eq_add hk hn] at h
  have hrest := h.drop
  rwa [four_mul_block_words, Nat.add_assoc, Nat.sub_sub] at hrest

theorem SwappedAhead.tail (h : SwappedAhead m s k n) (hn : s.eng.len.toNat - n < blockBytes k) :
    AgreesOn m s (s.eng.ptr.toNat + n) (s.eng.len.toNat - n) := by
  rwa [SwappedAhead, groupsIn_of_lt hn, swappedOn_zero_iff] at h

theorem SwappedAhead.byte (h : SwappedAhead m s k n) (hn : s.eng.len.toNat - n < blockBytes k) :
    SwappedAhead m s k (n + 1) := by
  rw [SwappedAhead, groupsIn_of_lt (by omega), swappedOn_zero_iff]
  exact (h.tail hn).drop 1

variable (hready : KernelReady k s) (hadm : RangeAdmitted s) (hk : 0 < blockBytes k)
  (hright : s.cfg.cfgBe = s.cfg.platBe) (hwrong : be ≠ s.cfg.platBe)
include hready hadm hk hright hwrong

/-- One step with the flag wrong is, on the reversed bytes, the step with the flag right. -/
theorem tick_withOrder_digestAt (hn : n ≤ s.eng.len.toNat) (h : SwappedAhead m s k n) :
    (n = s.eng.len.toNat ∧ tick (withOrder be m (digestAt s k n)) =
      withOrder be m (complete (digest (operandBytes s) s.eng.opa) s)) ∨
    ∃ q, 0 < q ∧ n + q ≤ s.eng.len.toNat ∧ SwappedAhead m s k (n + q) ∧
      tick (withOrder be m (digestAt s k n)) = withOrder be m (digestAt s k (n + q)) := by
  have hclean := digestAt_runsClean (n := n) hready
  have hrem : (withOrder be m (digestAt s k n)).eng.rem.toNat = s.eng.len.toNat - n := digestAt_rem_toNat (k := k) hn
  have hksel : (withOrder be m (digestAt s k n)).eng.ksel = k := rfl
  have hadm' (p : Nat) (hp : p < s.eng.len.toNat - n) : admitted s.cfg (s.eng.ptr.toNat + n + p) = true := by
    rw [Nat.add_assoc]
    exact hadm _ (by omega)
  have hfold (q : Nat) : absorb q (.ok (regAfter (digestAt s k n).eng.acc (rangeBytes s.mem (s.eng.ptr.toNat + n) q)))
      (cleanJob s) (withOrder be m (digestAt s k n)) = withOrder be m (digestAt s k (n + q)) :=
    congrArg (withOrder be m) (absorb_digestAt q)
  rw [tick_digest (j := cleanJob s) rfl, tickDigest, hrem, hksel]
  split_ifs with hzero hdue
  · have hlen : n = s.eng.len.toNat := by
      have hleft : 0 = s.eng.len.toNat - n := (congrArg BitVec.toNat hzero).symm.trans hrem
      omega
    exact .inl ⟨hlen, by rw [hlen]; rfl⟩
  · have hadmBlock (p : Nat) (hp : p < blockBytes k) := hadm' p (hp.trans_le hdue.2)
    have hblock := takeBlock_eq_regAfter hclean hright hadmBlock
    refine .inr ⟨blockBytes k, hk, by omega, h.block hk hdue.2, ?_⟩
    rw [SwappedAhead, groupsIn_eq_add hk hdue.2] at h
    rw [takeBlock_withOrder (s := digestAt s k n) hright hwrong rfl hadmBlock hdue.2 h, hblock]
    exact hfold _
  · have hpos : 0 < s.eng.len.toNat - n := by
      rw [← hrem]
      exact Nat.pos_of_ne_zero (by simpa [BitVec.toNat_eq] using hzero)
    have htail : s.eng.len.toNat - n < blockBytes k := by omega
    have hbyte := takeByte_eq_regAfter hclean (hadm' 0 hpos)
    refine .inr ⟨1, Nat.one_pos, by omega, h.byte htail, ?_⟩
    rw [takeByte_withOrder (s := digestAt s k n) ((h.tail htail).first hpos), hbyte]
    exact hfold 1

theorem ticks_withOrder_digestAt (hn : n ≤ s.eng.len.toNat) (h : SwappedAhead m s k n) (hw : s.eng.len.toNat < n + w) :
    ticks w (withOrder be m (digestAt s k n)) = withOrder be m (complete (digest (operandBytes s) s.eng.opa) s) := by
  induction w generalizing n with
  | zero => omega
  | succ w ih =>
    rw [ticks_succ]
    rcases tick_withOrder_digestAt hready hadm hk hright hwrong hn h with ⟨-, ht⟩ | ⟨q, hq, hnq, hnext, ht⟩ <;> rw [ht]
    · exact ticks_of_not_busy rfl w
    · exact ih hnq hnext (by omega)

end

/-- The block of `s` with the byte-order flag right and, as its data memory, the range with the groups reversed that the
block steps of kernel `k` cover. -/
def reversedRange (s : State) (k : Kernel) : State :=
  withOrder s.cfg.platBe ((List.range s.eng.len.toNat).map fun p => (s.eng.ptr.toNat + p,
    memRead s.mem (s.eng.ptr.toNat + swapOffset (groupsIn k s.eng.len.toNat) p))) s

section
variable (s : State) (k : Kernel)

theorem memRead_reversedRange {p : Nat} (hp : p < s.eng.len.toNat) :
    memRead (reversedRange s k).mem (s.eng.ptr.toNat + p) =
      memRead s.mem (s.eng.ptr.toNat + swapOffset (groupsIn k s.eng.len.toNat) p) :=
  memRead_map (fun q => memRead s.mem (s.eng.ptr.toNat + swapOffset (groupsIn k s.eng.len.toNat) q)) _ (List.mem_range.2 hp)

theorem operandBytes_reversedRange :
    operandBytes (reversedRange s k) = reverseGroups (groupsIn k s.eng.len.toNat) (operandBytes s) := by
  rw [operandBytes, operandBytes, rangeBytes, rangeBytes, reverseGroups_map_range _ (four_mul_groupsIn_le k _)]
  exact List.map_congr_left fun p hp => memRead_reversedRange s k (List.mem_range.1 hp)

end

/-- Settles O41: reading the range with the flag wrong is reading its reversed groups with the flag right. -/
theorem wrongByteOrderDigest : Obligations.WrongByteOrderDigest := by
  unfold Obligations.WrongByteOrderDigest
  intro s i k hik hready hadm hwrong
  obtain ⟨hk, hblock⟩ := slicing_kernelOf hik s.cfg.level
  have hahead : SwappedAhead s.mem (reversedRange s k) k 0 := fun p hp => memRead_reversedRange s k hp
  have hwork : workLeft (digestAt s k 0) = s.eng.len.toNat + 1 :=
    congrArg (· + 1) (digestAt_rem_toNat (Nat.zero_le _))
  have hsteps : s.eng.len.toNat < 0 + (s.eng.len.toNat + 1) := by omega
  have hrun := ticks_withOrder_digestAt (s := reversedRange s k) hready hadm hblock rfl hwrong (Nat.zero_le _) hahead hsteps
  rw [operandBytes_reversedRange] at hrun
  rw [exec_eq, issueWhole, whenIdle_of_idle _ hready.1, beginCommand_eq_digestAt hk hready, finish, hwork]
  exact congrArg _ hrun

/-! ### DIGEST.FAST (R132) -/

/-- Settles O39: DIGEST.FAST is a DIGEST command with the kernel of its table level. -/
theorem fastDigestCompletes : Obligations.FastDigestCompletes := by
  unfold Obligations.FastDigestCompletes
  exact fun s hready hadm hbe => exec_digest rfl hready hadm hbe

/-- Two commands with one kernel differ only in the word that a failing check records. -/
theorem exec_eq_of_same_kernel {i i' : Instr} {k : Kernel} {s : State} (hk : kernelOf s.cfg.level i = some k)
    (hk' : kernelOf s.cfg.level i' = some k) (hchecks : ChecksPass k s) : exec i s = exec i' s := by
  rw [exec_eq, exec_eq, issueWhole, issueWhole, whenIdle, whenIdle, beginCommand_checksPass hk hchecks,
    beginCommand_checksPass hk' hchecks]

/-- Above `NONE`, DIGEST.FAST is table-driven (R77, R132). -/
theorem rowsNeeded_resolveFast_pos {l : TableLevel} (h : l ≠ .none) : 0 < rowsNeeded (resolveFast l) := by
  cases l with
  | none => exact absurd rfl h
  | byte | slice4 | slice8 | slice16 => decide

/-- Settles O40: of R84's checks only the one for built tables can fail for DIGEST.FAST. -/
theorem fastIsItsKernel : Obligations.FastIsItsKernel := by
  unfold Obligations.FastIsItsKernel
  refine fun s i hi => ⟨fun hbuilt => ?_, fun hidle hlevel hbuilt => ?_⟩
  · have hk : kernelOf s.cfg.level i = some (resolveFast s.cfg.level) := by
      simp only [List.mem_cons, Prod.mk.injEq, List.not_mem_nil, or_false] at hi
      rcases hi with ⟨h, rfl⟩ | ⟨h, rfl⟩ | ⟨h, rfl⟩ | ⟨h, rfl⟩ | ⟨h, rfl⟩ <;> rw [h] <;> rfl
    refine exec_eq_of_same_kernel rfl hk ⟨rowsNeeded_resolveFast_le _, fun hpos => hbuilt.resolve_left fun hnone => ?_⟩
    rw [hnone] at hpos
    exact absurd hpos (by decide)
  · exact exec_refused hidle
      (beginCommand_notBuilt rfl (rowsNeeded_resolveFast_le _) (rowsNeeded_resolveFast_pos hlevel) hbuilt)

/-! ### The prefetch hint (R131) -/

/-- `s` with the kernel `k` in `KSEL`. -/
def withKernel (k : Kernel) (s : State) : State := mapEng (fun e => { e with ksel := k }) s

section
variable {s : State} {j : DigestJob}

/-- A step that reads an address not admitted forgets the kernel (R184); any other keeps it. -/
theorem absorb_withKernel (k : Kernel) (n : Nat) (r : Except Nat Word) :
    absorb n r j (withKernel k s) = absorb n r j s ∨
      ∃ c, r = .ok c ∧ absorb n r j (withKernel k s) = withKernel k (absorb n r j s) := by
  cases r with
  | error a => exact .inl rfl
  | ok c => exact .inr ⟨c, rfl, rfl⟩

/-- The kernels of DIGEST.S16 and DIGEST.S16P take the same steps. -/
theorem tickDigest_s16p (hk : s.eng.ksel = .s16) :
    tickDigest j (withKernel .s16p s) = tickDigest j s ∨
      ∃ n r, 0 < n ∧ n ≤ s.eng.rem.toNat ∧ tickDigest j s = absorb n r j s ∧
        tickDigest j (withKernel .s16p s) = absorb n r j (withKernel .s16p s) := by
  have hblock : takeBlock (withKernel .s16p s) j = takeBlock s j := by
    rw [takeBlock, takeBlock, hk]
    exact takeS16p_eq_takeS16 (withKernel .s16p s) j
  have hbyte : takeByte (withKernel .s16p s) j = takeByte s j := by
    simp only [takeByte, foldByte, hk]
    rfl
  have hbytes : blockBytes (withKernel .s16p s).eng.ksel = blockBytes s.eng.ksel := by
    rw [hk]
    rfl
  have hrem : (withKernel .s16p s).eng.rem = s.eng.rem := rfl
  rw [tickDigest, tickDigest, hbytes, hrem, hblock, hbyte]
  split_ifs with hzero hdue
  · exact .inl rfl
  · exact .inr ⟨_, _, hdue.1, hdue.2, rfl, rfl⟩
  · exact .inr ⟨1, _, Nat.one_pos, Nat.pos_of_ne_zero (by simpa [BitVec.toNat_eq] using hzero), rfl, rfl⟩

/-- From any point of a DIGEST.S16 the two kernels run to the same end, which has forgotten the kernel. -/
theorem ticks_s16p {n : Nat} (hc : s.eng.ctrl = .busy (.digest j)) (hk : s.eng.ksel = .s16) (hn : s.eng.rem.toNat < n) :
    ticks n (withKernel .s16p s) = ticks n s := by
  induction n generalizing s with
  | zero => exact absurd hn (Nat.not_lt_zero _)
  | succ n ih =>
    rw [ticks_succ, ticks_succ, tick_digest hc, tick_digest (s := withKernel .s16p s) hc]
    rcases tickDigest_s16p (j := j) hk with h | ⟨m, r, hpos, hm, ht, ht'⟩
    · rw [h]
    · rw [ht, ht']
      rcases absorb_withKernel (s := s) (j := j) .s16p m r with h | ⟨c, rfl, h⟩ <;> rw [h]
      refine ih hc hk ?_
      show (s.eng.rem - BitVec.ofNat 64 m).toNat < n
      rw [rem_sub_toNat hm]
      omega

end

/-- Settles O44: the run of DIGEST.S16P is that of DIGEST.S16, and so are the rows its checks ask for. -/
theorem prefetchHasNoEffect : Obligations.PrefetchHasNoEffect := by
  unfold Obligations.PrefetchHasNoEffect
  refine fun s => ⟨fun h => ?_, fun hidle hfail => ?_⟩
  · by_cases hidle : s.eng.ctrl = .idle
    · have hchecks : ChecksPass .s16 s := h.resolve_left fun hne => hne hidle
      rw [exec_checksPass (k := .s16p) rfl hidle hchecks, exec_checksPass (k := .s16) rfl hidle hchecks]
      exact congrArg _ (ticks_s16p (s := latchDigest .s16 (clearDone s)) rfl rfl (Nat.lt_succ_self _))
    · rw [exec_of_not_idle _ hidle, exec_of_not_idle _ hidle]
  · rcases acceptDigest_cases .s16 (encode .digestS16) s with ⟨hrows, -⟩ | ⟨hrows, hpos, hbuilt, -⟩ | ⟨hchecks, -⟩
    · exact ⟨_, exec_refused hidle (beginCommand_unavailable (k := .s16p) rfl hrows),
        exec_refused hidle (beginCommand_unavailable (k := .s16) rfl hrows)⟩
    · exact ⟨_, exec_refused hidle (beginCommand_notBuilt (k := .s16p) rfl hrows hpos hbuilt),
        exec_refused hidle (beginCommand_notBuilt (k := .s16) rfl hrows hpos hbuilt)⟩
    · exact absurd hchecks hfail

end Sys2Proof.Machine

/-! Proofs of the statements of 43_combine.md: operators over GF(2), the operator loop of COMBINE, the function it computes. -/

namespace Sys2Proof.Machine

/-! ### An operator applied to a vector (R148) -/

theorem gf2Times_cons (r : Word) (m : List Word) (v : Word) :
    gf2Times (r :: m) v = (if v.getLsbD 0 then r else 0) ^^^ gf2Times m (v >>> 1) := rfl

theorem gf2Times_zero (m : List Word) : gf2Times m 0 = 0 := by
  induction m with
  | nil => rfl
  | cons r m ih => exact BitVec.zero_xor.trans ih

theorem gf2Times_unit (m : List Word) {i : Nat} (hi : i < 32) : gf2Times m (1#32 <<< i) = m.getD i 0 := by
  induction m generalizing i with
  | nil => rfl
  | cons r m ih =>
    cases i with
    | zero =>
      show r ^^^ gf2Times m 0 = r
      rw [gf2Times_zero]
      exact BitVec.xor_zero
    | succ i =>
      have hbit : (1#32 <<< (i + 1)).getLsbD 0 = false := by simp
      have hshift : 1#32 <<< (i + 1) >>> 1 = 1#32 <<< i := by
        ext j hj
        grind
      rw [gf2Times_cons, hbit, hshift, ih (by omega)]
      exact BitVec.zero_xor

theorem gf2Times_xor (m : List Word) (a b : Word) : gf2Times m (a ^^^ b) = gf2Times m a ^^^ gf2Times m b := by
  induction m generalizing a b with
  | nil => exact BitVec.xor_zero.symm
  | cons r m ih =>
    have hrow : (if (a ^^^ b).getLsbD 0 then r else 0) =
        (if a.getLsbD 0 then r else 0) ^^^ if b.getLsbD 0 then r else 0 := by
      rw [BitVec.getLsbD_xor]
      cases a.getLsbD 0 <;> cases b.getLsbD 0 <;> simp
    rw [gf2Times_cons, gf2Times_cons, gf2Times_cons, BitVec.ushiftRight_xor_distrib, ih, hrow]
    ac_rfl

theorem gf2Times_eq_foldr (m : List Word) (v : Word) : gf2Times m v =
    (List.range m.length).foldr (fun i x => (if v.getLsbD i then m.getD i 0 else 0) ^^^ x) 0 := by
  induction m generalizing v with
  | nil => rfl
  | cons r m ih =>
    rw [gf2Times_cons, ih, List.length_cons, List.range_succ_eq_map, List.foldr_cons, List.foldr_map]
    simp only [BitVec.getLsbD_ushiftRight, Nat.add_comm 1]
    rfl

/-- Settles O29: each part by induction on the rows, whose selecting bits are shifted out one by one. -/
theorem operatorTimesVector : Obligations.OperatorTimesVector := by
  unfold Obligations.OperatorTimesVector
  intro m hm
  refine ⟨gf2Times_zero m, fun i hi => gf2Times_unit m hi, gf2Times_xor m, fun v => ?_⟩
  rw [gf2Times_eq_foldr, hm]

/-! ### Operators made row by row from others (R147, R149) -/

/-- Mapping the rows of an operator by a linear function composes that function with the operator. -/
theorem gf2Times_map {f : Word → Word} (hf : ∀ a b, f (a ^^^ b) = f a ^^^ f b) (m : List Word) (v : Word) :
    gf2Times (m.map f) v = f (gf2Times m v) := by
  have hzero : f 0 = 0 := by
    have h := hf 0 0
    rwa [BitVec.xor_self, BitVec.xor_self] at h
  induction m generalizing v with
  | nil => exact hzero.symm
  | cons r m ih => rw [List.map_cons, gf2Times_cons, ih, gf2Times_cons, hf, apply_ite f, hzero]

/-- The first `n` unit vectors: for `n = 32`, the rows of the operator that keeps every vector. -/
def unitRows (n : Nat) : List Word := (List.range n).map (1#32 <<< ·)

theorem unitRows_succ (n : Nat) : unitRows (n + 1) = 1#32 :: (unitRows n).map (fun w : Word => w <<< 1) := by
  simp [unitRows, List.range_succ_eq_map, Function.comp_def, BitVec.shiftLeft_add]

theorem low_bit_xor_shifted (v : Word) : (if v.getLsbD 0 then 1#32 else 0) ^^^ v >>> 1 <<< 1 = v := by
  ext i hi
  grind

theorem gf2Times_unitRows {n : Nat} {v : Word} (h : v.toNat < 2 ^ n) : gf2Times (unitRows n) v = v := by
  induction n generalizing v with
  | zero =>
    rw [show v = 0#32 from BitVec.eq_of_toNat_eq (by simpa using h)]
    rfl
  | succ n ih =>
    have hhalf : (v >>> 1).toNat < 2 ^ n := by
      rw [BitVec.toNat_ushiftRight, Nat.shiftRight_eq_div_pow]
      omega
    have hshift (a b : Word) : (a ^^^ b) <<< 1 = a <<< 1 ^^^ b <<< 1 := BitVec.shiftLeft_xor_distrib ..
    rw [unitRows_succ, gf2Times_cons, gf2Times_map hshift, ih hhalf]
    exact low_bit_xor_shifted v

/-- The rows of the base operator are the bit steps of the unit vectors (R149). -/
theorem gf2Base_eq_map_bitstep : gf2Base = (unitRows 32).map bitstep := by decide

theorem gf2Times_gf2Base (v : Word) : gf2Times gf2Base v = bitstep v := by
  rw [gf2Base_eq_map_bitstep, gf2Times_map bitstep_xor, gf2Times_unitRows v.isLt]

/-- Settles O28: the rows are written out, and a linear function is the operator of its values at the unit vectors. -/
theorem zeroBitOperator : Obligations.ZeroBitOperator := by
  unfold Obligations.ZeroBitOperator
  exact ⟨rfl, rfl, by decide, gf2Times_gf2Base⟩

/-- The square maps the rows of an operator by the operator itself (R147). -/
theorem gf2Times_gf2Square (m : List Word) (v : Word) : gf2Times (gf2Square m) v = gf2Times m (gf2Times m v) :=
  gf2Times_map (gf2Times_xor m) m v

theorem gf2Square_getD (m : List Word) (i : Nat) : (gf2Square m).getD i 0 = gf2Times m (m.getD i 0) := by
  have h := List.getD_map (l := m) (d := 0) (n := i) (gf2Times m)
  rwa [gf2Times_zero] at h

/-- The square of the operator of `n` zero bits is the operator of `2 * n` zero bits (R147). -/
theorem gf2Square_zeroBits {m : List Word} {n : Nat} (h : ∀ v, gf2Times m v = bitstep^[n] v) (v : Word) :
    gf2Times (gf2Square m) v = bitstep^[2 * n] v := by
  rw [gf2Times_gf2Square, h, h, ← Function.iterate_add_apply, Nat.two_mul]

/-- Settles O30: squaring composes an operator with itself. -/
theorem squaringComposes : Obligations.SquaringComposes := by
  unfold Obligations.SquaringComposes
  intro m hm
  refine ⟨(gf2Square_length m).trans hm, fun i _ => ⟨gf2Square_getD m i, ?_⟩, gf2Times_gf2Square m,
    fun n => gf2Square_zeroBits⟩
  rw [gf2Square_getD, gf2Times_eq_foldr, hm]

/-! ### The function `combine` (R145) -/

theorem combine_zero (a b : Word) : combine a b 0 = a := rfl

theorem combine_of_ne_zero (a b : Word) {n : DWord} (h : n ≠ 0) : combine a b n = zbyte^[n.toNat] a ^^^ b := if_neg h

theorem combine_xor (a a' b b' : Word) (n : DWord) :
    combine (a ^^^ a') (b ^^^ b') n = combine a b n ^^^ combine a' b' n := by
  by_cases h : n = 0
  · rw [h, combine_zero, combine_zero, combine_zero]
  · rw [combine_of_ne_zero _ _ h, combine_of_ne_zero _ _ h, combine_of_ne_zero _ _ h, zbyte_iterate_xor]
    ac_rfl

/-- Settles O32: runs of zero-byte steps are linear. -/
theorem combineIsLinear : Obligations.CombineIsLinear := by
  unfold Obligations.CombineIsLinear
  refine fun a a' b b' n => ⟨combine_xor a a' b b' n, fun hn => ⟨?_, ?_⟩⟩
  · rw [combine_of_ne_zero _ _ hn, Function.iterate_fixed (show zbyte 0 = 0 by decide)]
    exact BitVec.zero_xor
  · rw [combine_of_ne_zero _ _ hn]
    exact BitVec.xor_zero

/-- A seed passes through a digest by as many zero-byte steps as there are bytes: the complements at both ends cancel. -/
theorem digest_eq_zbyte_xor (d : List Byte) (seed : Word) : digest d seed = zbyte^[d.length] seed ^^^ digest d 0 := by
  have hcompl : ~~~seed = seed ^^^ ~~~0 := BitVec.xor_allOnes.symm
  calc digest d seed = ~~~(zbyte^[d.length] (seed ^^^ ~~~0) ^^^ regAfter 0 d) := by
        rw [digest, regAfter_eq_zbyte_xor, hcompl]
    _ = ~~~(zbyte^[d.length] seed ^^^ regAfter (~~~0) d) := by
      rw [zbyte_iterate_xor, regAfter_eq_zbyte_xor (~~~0), BitVec.xor_assoc]
    _ = zbyte^[d.length] seed ^^^ digest d 0 := BitVec.not_xor_right ..

/-- Settles O31: the digest of `A` is the seed of the digest of `B`. -/
theorem combineContract : Obligations.CombineContract := by
  unfold Obligations.CombineContract
  intro a b seed hb
  have hlen : (BitVec.ofNat 64 b.length).toNat = b.length := Nat.mod_eq_of_lt hb
  rw [digest_append]
  by_cases h : BitVec.ofNat 64 b.length = 0
  · obtain rfl : b = [] := List.length_eq_zero_iff.1 (hlen.symm.trans (congrArg BitVec.toNat h))
    exact (digest_nil _).symm
  · rw [combine_of_ne_zero _ _ h, hlen, ← digest_eq_zbyte_xor]

/-! ### The operator loop (R146, R151) -/

/-- The operator that the next iteration squares: `OP[SEL]` (R146). -/
def lowOperator (e : Engine) : List Word := if e.sel then e.op1 else e.op0

theorem combineIteration_lowOperator (e : Engine) : lowOperator (combineIteration e) = gf2Square (lowOperator e) := by
  cases h : e.sel <;> simp [lowOperator, combineIteration, h]

theorem combineIteration_va (e : Engine) : (combineIteration e).va =
    if e.nb.getLsbD 0 then gf2Times (gf2Square (lowOperator e)) e.va else e.va := rfl

theorem combineIteration_nb_toNat (e : Engine) : (combineIteration e).nb.toNat = e.nb.toNat / 2 := by
  show (e.nb >>> 1).toNat = _
  rw [BitVec.toNat_ushiftRight, Nat.shiftRight_eq_div_pow, Nat.pow_one]

/-- The two squarings before the loop leave the operator of four zero bits (R150). -/
theorem buildOperators_lowOperator (e : Engine) (v : Word) :
    gf2Times (lowOperator (buildOperators e)) v = bitstep^[4 * 1] v :=
  gf2Square_zeroBits (gf2Square_zeroBits (n := 1) gf2Times_gf2Base) v

/-- An iteration with a low operator of `4 * p` zero bits takes `p` zero-byte steps for the low bit of `NB` and leaves `2 * p`
for each unit of the rest, so the exponents add up to the same (R151, R154). -/
theorem combineIteration_zbyte {e : Engine} {p : Nat} (hlow : ∀ v, gf2Times (lowOperator e) v = bitstep^[4 * p] v) :
    zbyte^[2 * p * (combineIteration e).nb.toNat] (combineIteration e).va = zbyte^[p * e.nb.toNat] e.va := by
  have hhigh : gf2Times (gf2Square (lowOperator e)) e.va = zbyte^[p] e.va := by
    rw [gf2Square_zeroBits hlow, funext zbyte_eq_bitstep, ← Function.iterate_mul, ← Nat.mul_assoc]
  have hbit : e.nb.getLsbD 0 = decide (e.nb.toNat % 2 = 1) := Nat.testBit_zero _
  rw [combineIteration_va, combineIteration_nb_toNat, hhigh, hbit, Nat.mul_comm 2 p, Nat.mul_assoc]
  by_cases h : e.nb.toNat % 2 = 1
  · rw [decide_eq_true h, if_pos rfl, ← Function.iterate_add_apply, ← Nat.mul_succ]
    congr 2
    omega
  · rw [decide_eq_false h, if_neg Bool.false_ne_true]
    congr 2
    omega

section
variable {s : State}

/-- With `NB` used up no zero-byte step is left and step 5 completes the command (R153). -/
theorem ticks_combineLoop_done {n : Nat} (hc : s.eng.ctrl = .busy (.combine true)) (hnb : s.eng.nb = 0) (p : Nat) :
    ticks (n + 1) s = completeCombine (zbyte^[p * s.eng.nb.toNat] s.eng.va ^^^ s.eng.vb) s := by
  rw [ticks_succ, tick_combine hc, tickCombine, if_pos rfl, if_pos hnb, hnb]
  exact ticks_of_not_busy rfl n

/-- The loop with `NB` below `2 ^ n`: at most `n` iterations and then step 5 (R146, R154). -/
theorem ticks_combineLoop {p n : Nat} (hc : s.eng.ctrl = .busy (.combine true))
    (hlow : ∀ v, gf2Times (lowOperator s.eng) v = bitstep^[4 * p] v) (hn : s.eng.nb.toNat < 2 ^ n) :
    ticks (n + 1) s = completeCombine (zbyte^[p * s.eng.nb.toNat] s.eng.va ^^^ s.eng.vb) s := by
  induction n generalizing s p with
  | zero => exact ticks_combineLoop_done hc (BitVec.eq_of_toNat_eq (Nat.lt_one_iff.1 hn)) p
  | succ n ih =>
    by_cases hnb : s.eng.nb = 0
    · exact ticks_combineLoop_done hc hnb p
    · have hlow' (v : Word) : gf2Times (lowOperator (combineIteration s.eng)) v = bitstep^[4 * (2 * p)] v := by
        rw [combineIteration_lowOperator, gf2Square_zeroBits hlow, Nat.mul_left_comm]
      have hn' : (combineIteration s.eng).nb.toNat < 2 ^ n := by
        rw [combineIteration_nb_toNat]
        omega
      rw [ticks_succ, tick_combine hc, tickCombine, if_pos rfl, if_neg hnb,
        ih (s := mapEng combineIteration s) hc hlow' hn', mapEng_eng, combineIteration_zbyte hlow]
      rfl

/-- With `LEN = 0` the first step of COMBINE completes with `OPA` (R152). -/
theorem ticks_latchCombine_empty (hlen : s.eng.len = 0) (n : Nat) :
    ticks (n + 1) (latchCombine s) = complete s.eng.opa (latchCombine s) := by
  have hnb : (latchCombine s).eng.nb = 0 := hlen
  rw [ticks_succ, tick_combine rfl, tickCombine, if_neg Bool.false_ne_true, if_pos hnb]
  exact ticks_of_not_busy rfl n

/-- With `LEN` above 0 COMBINE builds the operators, and 64 iterations and step 5 are enough for any `LEN` (R157). -/
theorem ticks_latchCombine (hlen : s.eng.len ≠ 0) :
    ticks 66 (latchCombine s) = completeCombine (combine s.eng.opa s.eng.opb s.eng.len) (latchCombine s) := by
  have hnb : (latchCombine s).eng.nb ≠ 0 := hlen
  have hbuild : tick (latchCombine s) = setBusy (.combine true) (mapEng buildOperators (latchCombine s)) := by
    rw [tick_combine rfl, tickCombine, if_neg Bool.false_ne_true, if_neg hnb]
  rw [ticks_succ 65, hbuild, ticks_combineLoop (n := 64) rfl (buildOperators_lowOperator (latchCombine s).eng) (BitVec.isLt _),
    Nat.one_mul, combine_of_ne_zero _ _ hlen]
  rfl

end

/-- Settles O33: the first step or the loop completes the command, and completion overwrites every register that acceptance
and the loop have changed. -/
theorem combineCompletes : Obligations.CombineCompletes := by
  unfold Obligations.CombineCompletes
  intro s hidle
  have hfinish : finish (beginCommand .combine s) = ticks 66 (latchCombine (clearDone s)) := rfl
  rw [exec_eq, issueWhole, whenIdle_of_idle _ hidle, hfinish]
  by_cases hlen : s.eng.len = 0
  · rw [if_pos hlen, ticks_latchCombine_empty (s := clearDone s) hlen, hlen, combine_zero]
    rfl
  · rw [if_neg hlen, ticks_latchCombine (s := clearDone s) hlen]
    rfl

/-- Settles O34: the completion keeps the operator buffers and `SEL`, and so does every step towards it. -/
theorem combineDegenerate : Obligations.CombineDegenerate := by
  unfold Obligations.CombineDegenerate
  intro s hidle hlen
  have hexec := combineCompletes s hidle
  rw [if_pos hlen, hlen, combine_zero] at hexec
  refine ⟨⟨_, hexec, rfl, rfl, rfl, rfl, rfl, rfl⟩, fun n => ?_⟩
  have hbegin : beginCommand .combine s = latchCombine (clearDone s) := rfl
  rw [hbegin]
  cases n with
  | zero => exact ⟨rfl, rfl, rfl⟩
  | succ n =>
    rw [ticks_latchCombine_empty (s := clearDone s) hlen]
    exact ⟨rfl, rfl, rfl⟩

end Sys2Proof.Machine

/-! Proofs of the statements of 45_split_merge.md: the host's lines, chains of digest lines, the parallel driver. -/

namespace Sys2Proof.Machine

/-! ### A line of the host (R85) -/

/-- When digest lines for the command `i` complete: its kernel `k` is ready and reads words in the right byte order. -/
structure DigestReady (i : Instr) (k : Kernel) (s : State) : Prop where
  kernel : kernelOf s.cfg.level i = some k
  ready : KernelReady k s
  order : blockBytes k = 0 ∨ s.cfg.cfgBe = s.cfg.platBe

section
variable {i : Instr} {k : Kernel} {s t : State}

/-- Whether digest lines complete does not depend on the registers of the engine, once it is idle. -/
theorem DigestReady.of_sameBlock (h : DigestReady i k s) (hblock : SameBlock s t) (hidle : t.eng.ctrl = .idle) :
    DigestReady i k t := by
  obtain ⟨hk, ⟨-, hchecks, htable⟩, hbe⟩ := h
  obtain ⟨hcfg, hbefore, hafter, htab, htvalid, -⟩ := hblock
  have hothers : otherEngines t = otherEngines s := by rw [otherEngines, hbefore, hafter, otherEngines]
  refine ⟨by rwa [hcfg], ⟨hidle, ?_, ?_⟩, by rwa [hcfg]⟩
  · rwa [ChecksPass, hcfg, htvalid]
  · rwa [NoBuilder, hcfg, htab, hothers]

/-- A 32-bit register takes back what the host widened to the 64-bit slot (R30, R31). -/
theorem slot_setWidth (w : Word) : (w.setWidth 64).setWidth 32 = w := by
  rw [BitVec.setWidth_setWidth_of_le _ (by decide), BitVec.setWidth_eq]

/-- The last action of a line issues its command; the line then reads the result that the command has completed with. -/
theorem hostLine_issue (hexec : exec i s = .next t) (hdone : t.eng.done = true) (hidle : t.eng.ctrl = .idle) :
    hostLine (writeNumber 5 ((encode i).setWidth 64)) s = some (t.eng.res, t) := by
  have hperform : perform (.write .cmd ((encode i).setWidth 64)) s = .next t := by
    simp only [perform, issueWord, slot_setWidth, decode_encode, hexec]
  have hwrites : performAll (writeNumber 5 ((encode i).setWidth 64)) s = .next t := by
    simp only [writeNumber, regOfIndex, Option.toList_some, List.map_cons, List.map_nil, performAll, hperform]
  rw [hostLine, hwrites]
  exact if_pos ⟨hdone, hidle⟩

/-- A digest line sets `PTR`, `LEN` and the seed and issues its command. -/
theorem digestLine_eq_hostLine (i : Instr) (ptr len : DWord) (seed : Word) (s : State) :
    digestLine i ptr len seed s = hostLine (writeNumber 5 ((encode i).setWidth 64))
      (setOperands seed s.eng.opb (truncAddr s.cfg ptr) len s) :=
  congrArg (fun w => hostLine (writeNumber 5 ((encode i).setWidth 64))
    (setOperands w s.eng.opb (truncAddr s.cfg ptr) len s)) (slot_setWidth seed)

/-- A combine line sets the two CRCs and `LEN` and issues COMBINE. -/
theorem combineLine_eq_hostLine (crcA crcB : Word) (lenB : DWord) (s : State) :
    combineLine crcA crcB lenB s = hostLine (writeNumber 5 ((encode .combine).setWidth 64))
      (setOperands crcA crcB s.eng.ptr lenB s) :=
  congrArg₂ (fun a b => hostLine (writeNumber 5 ((encode .combine).setWidth 64)) (setOperands a b s.eng.ptr lenB s))
    (slot_setWidth crcA) (slot_setWidth crcB)

theorem lt_of_admitted {c : Config} {a : Nat} (h : admitted c a = true) : a < 2 ^ c.aw := by
  rw [admitted, Bool.and_eq_true, decide_eq_true_eq] at h
  exact h.1

/-- An admitted range with a byte in it begins inside the address space, so `PTR` holds its address whole (R15, R53). -/
theorem truncAddr_of_admitted {c : Config} {ptr : DWord} (h : admitted c ptr.toNat = true) : truncAddr c ptr = ptr :=
  BitVec.eq_of_toNat_eq ((truncAddr_toNat c ptr).trans (Nat.mod_eq_of_lt (lt_of_admitted h)))

/-- A digest line over an admitted range answers the digest of the range from its seed, and the engine is idle again. -/
theorem digestLine_completes {ptr len : DWord} (h : DigestReady i k s)
    (hadm : ∀ n < len.toNat, admitted s.cfg (ptr.toNat + n) = true) (seed : Word) :
    ∃ t, digestLine i ptr len seed s = some (digest (rangeBytes s.mem ptr.toNat len.toNat) seed, t) ∧
      SameBlock s t ∧ t.eng.ctrl = .idle := by
  obtain ⟨hk, hready, hbe⟩ := h
  have hrange : RangeAdmitted (setOperands seed s.eng.opb (truncAddr s.cfg ptr) len s) ∧
      rangeBytes s.mem (truncAddr s.cfg ptr).toNat len.toNat = rangeBytes s.mem ptr.toNat len.toNat := by
    rcases Nat.eq_zero_or_pos len.toNat with hzero | hpos
    · refine ⟨fun n (hn : n < len.toNat) => by omega, ?_⟩
      rw [hzero]
      rfl
    · rw [truncAddr_of_admitted (hadm 0 hpos)]
      exact ⟨hadm, rfl⟩
  obtain ⟨hadm', hbytes⟩ := hrange
  have hexec := exec_digest (s := setOperands seed s.eng.opb (truncAddr s.cfg ptr) len s) hk hready hadm' hbe
  rw [digestLine_eq_hostLine, ← hbytes]
  exact ⟨_, hostLine_issue hexec rfl rfl, ⟨rfl, rfl, rfl, rfl, rfl, rfl⟩, rfl⟩

/-- A combine line answers `combine` of its three numbers, and the engine is idle again. -/
theorem combineLine_completes (hidle : s.eng.ctrl = .idle) (crcA crcB : Word) (lenB : DWord) :
    ∃ t, combineLine crcA crcB lenB s = some (combine crcA crcB lenB, t) ∧ t.eng.ctrl = .idle := by
  have hexec := combineCompletes (setOperands crcA crcB s.eng.ptr lenB s) hidle
  rw [combineLine_eq_hostLine]
  by_cases hlen : (setOperands crcA crcB s.eng.ptr lenB s).eng.len = 0
  · rw [if_pos hlen] at hexec
    exact ⟨_, hostLine_issue hexec rfl rfl, rfl⟩
  · rw [if_neg hlen] at hexec
    exact ⟨_, hostLine_issue hexec rfl rfl, rfl⟩

end

/-! ### Chains (R166) -/

/-- Each line of a chain answers the digest of its range from the result before it, which is the digest of all the bytes
so far. -/
theorem chainLines_completes {i : Instr} {k : Kernel} {rs : List (DWord × DWord)} {s : State} (h : DigestReady i k s)
    (hadm : ∀ r ∈ rs, ∀ n < r.2.toNat, admitted s.cfg (r.1.toNat + n) = true) (seed : Word) :
    ∃ t, chainLines i rs seed s =
      some (digest (rs.flatMap fun r => rangeBytes s.mem r.1.toNat r.2.toNat) seed, t) := by
  induction rs generalizing seed s with
  | nil => exact ⟨s, by rw [List.flatMap_nil, digest_nil, chainLines]⟩
  | cons r rs ih =>
    obtain ⟨t, hline, hblock, hidle⟩ := digestLine_completes h (hadm r List.mem_cons_self) seed
    have hadm' : ∀ q ∈ rs, ∀ n < q.2.toNat, admitted t.cfg (q.1.toNat + n) = true := by
      rw [hblock.cfg]
      exact fun q hq => hadm q (List.mem_cons_of_mem r hq)
    obtain ⟨u, hrest⟩ := ih (h.of_sameBlock hblock hidle) hadm' _
    refine ⟨u, ?_⟩
    rw [chainLines, hline, List.flatMap_cons, digest_append, ← hblock.mem]
    exact hrest

/-- Settles O59: what is asked of the command holds again after each line. -/
theorem chainedLinesDigestConcatenation : Obligations.ChainedLinesDigestConcatenation := by
  unfold Obligations.ChainedLinesDigestConcatenation
  exact fun i k rs seed s hk hready hbe _ hadm => chainLines_completes ⟨hk, hready, hbe⟩ hadm seed

/-! ### The flat partition (R169) -/

/-- The quotient rounded up counts the multiples of the divisor below a number. -/
theorem lt_roundUp_div_iff {a b j : Nat} (hb : 0 < b) : j < (a + b - 1) / b ↔ j * b < a := by
  rw [← Nat.ceilDiv_eq_add_pred_div, Nat.mul_comm]
  exact lt_iff_lt_of_le_iff_le (ceilDiv_le_iff_le_mul hb)

/-- Consecutive blocks of `b` bytes, the last one cut off at `len`, make up the bytes before `len`. -/
theorem flatMap_blocks (m : List Host.Cell) (a b len q : Nat) :
    (List.range q).flatMap (fun j => rangeBytes m (a + j * b) (min b (len - j * b))) =
      rangeBytes m a (min (q * b) len) := by
  induction q with
  | zero => simp [rangeBytes]
  | succ q ih =>
    rw [List.range_succ, List.flatMap_append, ih, List.flatMap_singleton]
    rcases Nat.le_total len (q * b) with hle | hle
    · have hlast : len - q * b = 0 := by omega
      have hend : min ((q + 1) * b) len = len := by
        rw [Nat.succ_mul]
        omega
      rw [hlast, hend, Nat.min_zero, Nat.min_eq_right hle]
      exact List.append_nil _
    · have hend : min ((q + 1) * b) len = q * b + min b (len - q * b) := by
        rw [Nat.succ_mul]
        omega
      rw [hend, rangeBytes_add, Nat.min_eq_left hle]

section
variable {len workers : Nat}

/-- With a byte to digest, the blocks are not empty. -/
theorem blockSize_pos (hw : 1 ≤ workers) (hlen : len ≠ 0) : 0 < (len + workers - 1) / workers :=
  (lt_roundUp_div_iff hw).2 (by omega)

/-- The ranges of the partition cover the whole input in order. -/
theorem flatMap_partitionRanges (m : List Host.Cell) (ptr : Nat) (hw : 1 ≤ workers) :
    (partitionRanges len workers).flatMap (fun r => rangeBytes m (ptr + r.1) r.2) = rangeBytes m ptr len := by
  unfold partitionRanges
  by_cases hlen : len = 0
  · rw [if_pos hlen, hlen]
    rfl
  · have hbs : 0 < (len + workers - 1) / workers := (lt_roundUp_div_iff hw).2 (by omega)
    have hcover := (lt_roundUp_div_iff (a := len) hbs).not.1 (Nat.lt_irrefl _)
    rw [if_neg hlen, List.flatMap_map, flatMap_blocks, Nat.min_eq_right (Nat.le_of_not_lt hcover)]

/-- Each range of the partition has a byte and lies inside the input. -/
theorem partitionRanges_bounds (hw : 1 ≤ workers) {r : Nat × Nat} (hr : r ∈ partitionRanges len workers) :
    0 < r.2 ∧ r.1 + r.2 ≤ len := by
  unfold partitionRanges at hr
  by_cases hlen : len = 0
  · rw [if_pos hlen] at hr
    cases hr
  · have hbs : 0 < (len + workers - 1) / workers := (lt_roundUp_div_iff hw).2 (by omega)
    rw [if_neg hlen, List.mem_map] at hr
    obtain ⟨j, hj, rfl⟩ := hr
    have hstart := (lt_roundUp_div_iff hbs).1 (List.mem_range.1 hj)
    dsimp only
    omega

end

/-! ### The partial digests (R170) -/

theorem rangeBytes_length (m : List Host.Cell) (a n : Nat) : (rangeBytes m a n).length = n := by
  rw [rangeBytes, List.length_map, List.length_range]

/-- What the driver keeps of a range with the bytes `d`: its digest with seed 0 and its length. -/
def partOf (d : List Byte) : Word × DWord := (digest d 0, BitVec.ofNat 64 d.length)

section
variable {i : Instr} {k : Kernel} {s : State} {ptr : Nat}

/-- The partial digests of admitted ranges that lie inside the 64-bit numbers: a range that is not empty begins inside
the address space. -/
theorem partLines_completes {rs : List (Nat × Nat)} (h : DigestReady i k s) (haw : s.cfg.aw ≤ 64)
    (hrs : ∀ r ∈ rs, 0 < r.2 ∧ r.2 < 2 ^ 64 ∧ ∀ n < r.2, admitted s.cfg (ptr + r.1 + n) = true) :
    ∃ t, partLines i ptr rs s = some (rs.map fun r => partOf (rangeBytes s.mem (ptr + r.1) r.2), t) ∧
      t.eng.ctrl = .idle := by
  induction rs generalizing s with
  | nil => exact ⟨s, rfl, h.ready.1⟩
  | cons r rs ih =>
    obtain ⟨hpos, hlen, hadm⟩ := hrs r List.mem_cons_self
    have hstart : ptr + r.1 < 2 ^ 64 :=
      (lt_of_admitted (hadm 0 hpos)).trans_le (Nat.pow_le_pow_right (by decide) haw)
    have hptr : (BitVec.ofNat 64 (ptr + r.1)).toNat = ptr + r.1 := Nat.mod_eq_of_lt hstart
    have hn : (BitVec.ofNat 64 r.2).toNat = r.2 := Nat.mod_eq_of_lt hlen
    obtain ⟨t, hline, hblock, hidle⟩ := digestLine_completes (ptr := BitVec.ofNat 64 (ptr + r.1))
      (len := BitVec.ofNat 64 r.2) h (by rwa [hptr, hn]) 0
    rw [hptr, hn] at hline
    obtain ⟨u, hrest, hu⟩ := ih (h.of_sameBlock hblock hidle) (by rwa [hblock.cfg])
      (by rw [hblock.cfg]; exact fun q hq => hrs q (List.mem_cons_of_mem r hq))
    refine ⟨u, ?_, hu⟩
    rw [partLines, hline]
    simp only [hrest, hblock.mem, List.map_cons, partOf, rangeBytes_length]

/-- The driver's partial digests are those of a list of byte stretches that make up the input. -/
theorem partLines_partitionRanges {len workers : Nat} (h : DigestReady i k s) (haw : s.cfg.aw ≤ 64) (hlen : len < 2 ^ 64)
    (hw : 1 ≤ workers) (hadm : ∀ n < len, admitted s.cfg (ptr + n) = true) :
    ∃ (ds : List (List Byte)) (t : State), partLines i ptr (partitionRanges len workers) s = some (ds.map partOf, t) ∧
      ds.flatten = rangeBytes s.mem ptr len ∧ t.eng.ctrl = .idle := by
  have hrs : ∀ r ∈ partitionRanges len workers,
      0 < r.2 ∧ r.2 < 2 ^ 64 ∧ ∀ n < r.2, admitted s.cfg (ptr + r.1 + n) = true := by
    intro r hr
    obtain ⟨hpos, hend⟩ := partitionRanges_bounds hw hr
    refine ⟨hpos, by omega, fun n hn => ?_⟩
    rw [Nat.add_assoc]
    exact hadm _ (by omega)
  obtain ⟨t, hparts, hidle⟩ := partLines_completes h haw hrs
  refine ⟨(partitionRanges len workers).map fun r => rangeBytes s.mem (ptr + r.1) r.2, t, ?_, ?_, hidle⟩
  · rw [hparts, List.map_map]
    rfl
  · rw [← flatMap_partitionRanges s.mem ptr hw]
    rfl

end

/-! ### The folds (R171) -/

section
variable {ds : List (List Byte)} {s : State}

/-- The head-forward fold carries the digest of all the bytes before the next range. -/
theorem foldHead_completes (a : List Byte) (hidle : s.eng.ctrl = .idle) (hlen : ds.flatten.length < 2 ^ 64) :
    ∃ t, foldHead (digest a 0) (ds.map partOf) s = some (digest (a ++ ds.flatten) 0, t) := by
  induction ds generalizing a s with
  | nil => exact ⟨s, by rw [List.flatten_nil, List.append_nil]; rfl⟩
  | cons d ds ih =>
    rw [List.flatten_cons, List.length_append] at hlen
    obtain ⟨t, hline, ht⟩ := combineLine_completes hidle (digest a 0) (digest d 0) (BitVec.ofNat 64 d.length)
    rw [combineContract a d 0 (by omega)] at hline
    obtain ⟨u, hrest⟩ := ih (a ++ d) ht (by omega)
    refine ⟨u, ?_⟩
    rw [List.map_cons, partOf, foldHead, hline, List.flatten_cons, ← List.append_assoc]
    exact hrest

/-- The tail-forward fold carries the digest of all the bytes from a range on, and how many they are. -/
theorem foldTail_completes (hidle : s.eng.ctrl = .idle) (hlen : ds.flatten.length < 2 ^ 64) :
    ∃ t, foldTail (ds.map partOf) s = some (digest ds.flatten 0, BitVec.ofNat 64 ds.flatten.length, t) ∧
      t.eng.ctrl = .idle := by
  induction ds with
  | nil => exact ⟨s, by rw [List.flatten_nil, digest_nil]; rfl, hidle⟩
  | cons d ds ih =>
    cases ds with
    | nil => exact ⟨s, by rw [List.flatten_singleton]; rfl, hidle⟩
    | cons e ds =>
      rw [List.flatten_cons, List.length_append] at hlen
      obtain ⟨t, hrest, ht⟩ := ih (by omega)
      obtain ⟨u, hline, hu⟩ := combineLine_completes ht (digest d 0) (digest (e :: ds).flatten 0)
        (BitVec.ofNat 64 (e :: ds).flatten.length)
      rw [combineContract d _ 0 (by omega)] at hline
      refine ⟨u, ?_, hu⟩
      rw [List.flatten_cons, List.length_append, BitVec.ofNat_add]
      rw [List.map_cons] at hrest ⊢
      rw [List.map_cons, partOf, foldTail, hrest]
      dsimp only
      rw [hline]

end

/-! ### The driver (R168, R172) -/

/-- Settles O60: the partial digests cover the input in order, and either fold turns digests of neighbouring stretches
into the digest of both. -/
theorem parallelDigestEqualsPlain : Obligations.ParallelDigestEqualsPlain := by
  unfold Obligations.ParallelDigestEqualsPlain
  intro i k ptr len workers s hk hready hbe haw hlen hw hadm
  obtain ⟨ds, t, hparts, hflat, hidle⟩ := partLines_partitionRanges ⟨hk, hready, hbe⟩ haw hlen hw hadm
  have hbound : ds.flatten.length < 2 ^ 64 := by
    rwa [hflat, rangeBytes_length]
  rw [← hflat, pdigestLines, pdigestHeadLines, if_neg (by omega), if_neg (by omega), hparts]
  constructor
  · obtain ⟨u, hfold, -⟩ := foldTail_completes hidle hbound
    exact ⟨u, by simp only [hfold]⟩
  · cases ds with
    | nil => exact ⟨t, by rw [List.flatten_nil, digest_nil]; rfl⟩
    | cons d ds =>
      rw [List.flatten_cons, List.length_append] at hbound
      obtain ⟨u, hfold⟩ := foldHead_completes (ds := ds) d hidle (by omega)
      exact ⟨u, hfold⟩

end Sys2Proof.Machine

/-! Proofs of the statements of 60_exceptions.md: error entry. -/

namespace Sys2Proof.Machine

/-! ### Error entry (R183, R184) -/

@[simp] theorem raiseError_eng_isBusy (err : EngineError) (info : DWord) (s : State) :
    (raiseError err info s).eng.isBusy = false := rfl

/-- `raise E(info)` sets `ERR` and clears `BUSY` and `DONE` (R183); `STATUS` shows the engine's new state. -/
theorem raiseError_statusWord_flags (err : EngineError) (info : DWord) (s : State) :
    (statusWord (raiseError err info s)).getLsbD 2 = true ∧ (statusWord (raiseError err info s)).getLsbD 0 = false ∧
      (statusWord (raiseError err info s)).getLsbD 1 = false := by
  obtain ⟨hbusy, hdone, herr, -⟩ := statusWord_flags (raiseError err info s)
  rw [hbusy, hdone, herr]
  simp

/-- Settles O10: the flags of `STATUS` follow from the engine's new state, and every other field is read off the
rules for `raiseError`. -/
theorem raiseEntersErrorState : Obligations.RaiseEntersErrorState := by
  unfold Obligations.RaiseEntersErrorState
  intro err info s
  obtain ⟨herr, hbusy, hdone⟩ := raiseError_statusWord_flags err info s
  refine ⟨raiseError_eng_ecode s err info, raiseError_eng_einfo s err info, herr, hbusy, hdone, ?_⟩
  simp [errorCode]

end Sys2Proof.Machine

/-! Proofs of the statements of 70_reset_and_hazards.md: the reset event, what stays between commands, the end of every
command, the mark of a table race. -/

namespace Sys2Proof.Machine

/-! ### The reset event (R205, R206, R208) -/

theorem resetAll_engines {s : State} {e : Engine} (h : e ∈ allEngines (resetAll s)) : e = Engine.reset := by
  have hmap : allEngines (resetAll s) = (allEngines s).map fun _ => Engine.reset := by simp [allEngines]
  rw [hmap] at h
  obtain ⟨_, -, rfl⟩ := List.mem_map.1 h
  rfl

/-- `STATUS` shows the addressed engine and `TVALID` alone, which the reset event leaves as a reset block has them. -/
theorem statusWord_resetAll (s : State) : statusWord (resetAll s) = 0 := statusWord_resetWith s.cfg

/-- Settles O13: every engine is the reset engine. -/
theorem resetEvent : Obligations.ResetEvent := by
  unfold Obligations.ResetEvent
  refine fun s => ⟨resetAll s, rfl, fun e he => ?_, rfl, statusWord_resetAll s, rfl, rfl, (resetAll_sameParams s).2⟩
  rw [resetAll_engines he]
  exact ⟨rfl, rfl, rfl, rfl⟩

/-! ### A result stays until the next command (R213) -/

/-- Engine `k` has done a command: it is idle, `DONE` is set and `RES` holds `r`. -/
def DoneAt (k : Nat) (r : Word) (s : State) : Prop :=
  ∃ e, (allEngines s)[k]? = some e ∧ e.res = r ∧ e.done = true ∧ e.ctrl = .idle

section
variable {s t : State} {k : Nat} {r : Word}

/-- A change of the addressed engine and of the others by `f` keeps a result when `f` leaves idle engines alone and, if
the result is the addressed engine's, that engine keeps it. -/
theorem DoneAt.of_map (h : DoneAt k r s) {f : Engine → Engine} (hf : ∀ e, e.ctrl = .idle → f e = e)
    (hbefore : t.before = s.before.map f) (hafter : t.after = s.after.map f)
    (heng : s.before.length = k → s.eng.ctrl = .idle →
      t.eng.res = s.eng.res ∧ t.eng.done = s.eng.done ∧ t.eng.ctrl = .idle) : DoneAt k r t := by
  obtain ⟨e, he, hres, hdone, hidle⟩ := h
  unfold DoneAt
  rw [allEngines_eq_set hbefore hafter]
  by_cases hk : s.before.length = k
  · subst hk
    cases (allEngines_getElem?_self s).symm.trans he
    obtain ⟨hres', hdone', hidle'⟩ := heng rfl hidle
    exact ⟨t.eng, by simp [allEngines], hres'.trans hres, hdone'.trans hdone, hidle'⟩
  · exact ⟨e, by simp [List.getElem?_set_ne hk, he, hf e hidle], hres, hdone, hidle⟩

/-- As `DoneAt.of_map`, when no other engine changes. -/
theorem DoneAt.of_others (h : DoneAt k r s) (hbefore : t.before = s.before) (hafter : t.after = s.after)
    (heng : s.before.length = k → s.eng.ctrl = .idle →
      t.eng.res = s.eng.res ∧ t.eng.done = s.eng.done ∧ t.eng.ctrl = .idle) : DoneAt k r t :=
  h.of_map (f := id) (fun _ _ => rfl) (by simp [hbefore]) (by simp [hafter]) heng

theorem noteStore_of_idle (a : Nat) (old : Byte) {e : Engine} (h : e.ctrl = .idle) : noteStore a old e = e := by
  simp [noteStore, h]

theorem taintReader_of_idle {e : Engine} (h : e.ctrl = .idle) : taintReader e = e := by
  simp [taintReader, h]

theorem focus_doneAt {j : Nat} (hu : focus j s = some t) (h : DoneAt k r s) : DoneAt k r t := by
  obtain ⟨-, hall, -, -⟩ := focus_cases hu
  unfold DoneAt
  rwa [hall]

theorem tick_doneAt (h : DoneAt k r s) : DoneAt k r (tick s) := by
  obtain ⟨hbefore, hafter, -⟩ := (tick_outcome s).others
  refine h.of_others hbefore hafter fun _ hidle => ?_
  rw [tick_idle hidle]
  exact ⟨rfl, rfl, hidle⟩

theorem drain_doneAt (h : DoneAt k r s) : DoneAt k r (drain s) := by
  rcases drain_cases s with ⟨-, hd⟩ | ⟨j, u, hu, -, hd⟩ <;> rw [hd]
  · exact h
  · exact tick_doneAt (focus_doneAt hu h)

/-- A word issued to another engine at most marks running readers, and no idle engine is one. -/
theorem startWord_doneAt (w : Word) (hk : s.before.length ≠ k) (h : DoneAt k r s) : DoneAt k r (startWord w s) := by
  rcases (startWord_keeps w s).2.others with ⟨hbefore, hafter⟩ | ⟨-, hbefore, hafter⟩
  · exact h.of_others hbefore hafter fun hk' => absurd hk' hk
  · exact h.of_map (fun _ => taintReader_of_idle) hbefore hafter fun hk' => absurd hk' hk

theorem issueWord_doneAt {w : Word} (ht : issueWord w s = .next t) (hk : s.before.length ≠ k) (h : DoneAt k r s) :
    DoneAt k r t := by
  obtain ⟨n, hn⟩ := issueWord_eq_ticks w s
  cases hn.symm.trans ht
  exact ticks_induction (P := DoneAt k r) (fun _ => tick_doneAt) n (startWord_doneAt w hk h)

theorem hostWrite_doneAt (reg : HostReg) (v : DWord) (h : DoneAt k r s) : DoneAt k r (hostWrite reg v s) := by
  obtain ⟨-, hbefore, hafter, -⟩ := hostWrite_sameBlock reg v s
  exact h.of_others hbefore hafter fun _ hidle => by cases reg <;> exact ⟨rfl, rfl, hidle⟩

theorem platformStore_doneAt (a : Nat) (b : Byte) (h : DoneAt k r s) : DoneAt k r (platformStore a b s) := by
  refine h.of_map (fun _ => noteStore_of_idle a (memRead s.mem a)) rfl rfl fun _ hidle => ?_
  rw [show (platformStore a b s).eng = s.eng from noteStore_of_idle _ _ hidle]
  exact ⟨rfl, rfl, hidle⟩

theorem perform_doneAt {a : Action} (ht : perform a s = .next t) (hreset : a ≠ .reset)
    (hwrite : ∀ v, a = .write .cmd v → s.before.length ≠ k) (hstart : ∀ w, a = .start w → s.before.length ≠ k)
    (h : DoneAt k r s) : DoneAt k r t := by
  rcases perform_cases ht with ⟨v, _, rfl, -⟩ | ⟨v, _, rfl, -⟩ | ⟨reg, v, -, -, rfl⟩ | ⟨w, rfl, rfl⟩ | ⟨reg, -, rfl⟩ |
    ⟨-, rfl⟩ | ⟨x, b, -, -, rfl⟩ | ⟨rfl, -⟩
  · exact issueWord_doneAt ht (hwrite v rfl) h
  · exact issueWord_doneAt ht (hwrite v rfl) h
  · exact hostWrite_doneAt reg v h
  · exact startWord_doneAt w (hstart w rfl) h
  · exact h
  · exact tick_doneAt h
  · exact platformStore_doneAt x b h
  · exact absurd rfl hreset

end

/-- Settles O17: no part of a step but the reset and an `Issue` to that engine touches an engine that is idle. -/
theorem resultStaysUntilNextCommand : Obligations.ResultStaysUntilNextCommand := by
  unfold Obligations.ResultStaysUntilNextCommand
  intro s t k e h he hidle hdone hwrite hstart hreset
  have hs : DoneAt k e.res s := ⟨e, he, rfl, hdone, hidle⟩
  rcases step_cases h with ⟨-, rfl⟩ | ⟨⟨j, a⟩, es, u, hp, hu, hperform⟩
  · exact drain_doneAt hs
  · obtain ⟨-, -, hlen, -⟩ := focus_cases hu
    refine perform_doneAt hperform ?_ ?_ ?_ (focus_doneAt hu hs)
    · rintro rfl
      exact hreset j es hp
    · rintro v rfl hk
      exact hwrite v es (hlen.symm.trans hk ▸ hp)
    · rintro w rfl hk
      exact hstart w es (hlen.symm.trans hk ▸ hp)

/-! ### Every running command ends (R82, R214) -/

/-- A bound on the steps the running command still takes that every step lowers: `workLeft`, with the loop of COMBINE
counted by the bits left in `NB` (R154). -/
def stepsLeft (s : State) : Nat :=
  match s.eng.ctrl with
  | .busy (.digest _) => s.eng.rem.toNat + 1
  | .busy (.tblinit r) => rowsOf s.cfg.level - r + 1
  | .busy (.combine false) => 66
  | .busy (.combine true) => s.eng.nb.toNat.size + 1
  | .idle | .error => 0

section
variable {s : State}

theorem stepsLeft_pos (h : s.eng.isBusy = true) : 0 < stepsLeft s := by
  unfold Engine.isBusy at h
  rcases hc : s.eng.ctrl with _ | (j | r | _ | _) | _
  case idle | error => simp [hc] at h
  all_goals simp [stepsLeft, hc]

theorem stepsLeft_digest {j : DigestJob} (hc : s.eng.ctrl = .busy (.digest j)) :
    stepsLeft s = s.eng.rem.toNat + 1 := by simp [stepsLeft, hc]

theorem stepsLeft_tblinit {r : Nat} (hc : s.eng.ctrl = .busy (.tblinit r)) :
    stepsLeft s = rowsOf s.cfg.level - r + 1 := by simp [stepsLeft, hc]

theorem stepsLeft_combine_false (hc : s.eng.ctrl = .busy (.combine false)) : stepsLeft s = 66 := by
  simp [stepsLeft, hc]

theorem stepsLeft_combine_true (hc : s.eng.ctrl = .busy (.combine true)) :
    stepsLeft s = s.eng.nb.toNat.size + 1 := by simp [stepsLeft, hc]

theorem nb_size_le (n : DWord) : n.toNat.size ≤ 64 := Nat.size_le.2 n.isLt

/-- An iteration uses up a bit of `NB` (R151). -/
theorem combineIteration_nb_size_lt {e : Engine} (h : e.nb ≠ 0) : (combineIteration e).nb.toNat.size < e.nb.toNat.size := by
  have hpos : 0 < e.nb.toNat.size := Nat.size_pos.2 (Nat.pos_of_ne_zero (by simpa [BitVec.toNat_eq] using h))
  obtain ⟨m, hm⟩ := Nat.exists_eq_succ_of_ne_zero hpos.ne'
  have hlt : e.nb.toNat < 2 ^ (m + 1) := Nat.size_le.1 hm.le
  have hhalf : (combineIteration e).nb.toNat < 2 ^ m := by
    rw [combineIteration_nb_toNat]
    omega
  rw [hm]
  exact Nat.lt_succ_of_le (Nat.size_le.2 hhalf)

theorem stepsLeft_le_workLeft (s : State) : stepsLeft s ≤ workLeft s := by
  unfold stepsLeft workLeft
  rcases s.eng.ctrl with _ | (j | r | _ | _) | _
  case busy.combine.true => exact Nat.add_le_add_right ((nb_size_le _).trans (by decide : 64 ≤ 65)) 1
  all_goals exact Nat.le_refl _

theorem tickDigest_stepsLeft_lt {j : DigestJob} (hc : s.eng.ctrl = .busy (.digest j)) :
    stepsLeft (tickDigest j s) < stepsLeft s := by
  rw [stepsLeft_digest hc]
  rcases tickDigest_cases j s with ⟨-, h⟩ | ⟨n, r, -, hpos, hn, -, h, -⟩ <;> rw [h]
  · exact Nat.succ_pos _
  · rcases absorb_cases n r j s with ⟨a, -, h⟩ | ⟨c, -, h⟩ <;> rw [h]
    · exact Nat.succ_pos _
    · refine Eq.trans_lt (stepsLeft_digest (j := j) hc) ?_
      rw [rem_sub_toNat hn]
      omega

theorem tickTblinit_stepsLeft_lt {r : Nat} (hc : s.eng.ctrl = .busy (.tblinit r)) :
    stepsLeft (tickTblinit r s) < stepsLeft s := by
  rw [stepsLeft_tblinit hc]
  rcases tickTblinit_cases r s with ⟨hr, h⟩ | ⟨-, h⟩ <;> rw [h]
  · show rowsOf s.cfg.level - (r + 1) + 1 < rowsOf s.cfg.level - r + 1
    omega
  · exact Nat.succ_pos _

theorem tickCombine_stepsLeft_lt {b : Bool} (hc : s.eng.ctrl = .busy (.combine b)) :
    stepsLeft (tickCombine b s) < stepsLeft s := by
  rcases tickCombine_cases b s with ⟨rfl, -, h⟩ | ⟨rfl, -, h⟩ | ⟨rfl, -, h⟩ | ⟨rfl, hnb, h⟩ <;> rw [h]
  · rw [stepsLeft_combine_false hc]
    exact Nat.succ_pos _
  · rw [stepsLeft_combine_false hc, stepsLeft_combine_true rfl]
    exact Nat.lt_succ_of_le (Nat.succ_le_succ (nb_size_le _))
  · rw [stepsLeft_combine_true hc]
    exact Nat.succ_pos _
  · rw [stepsLeft_combine_true hc, stepsLeft_combine_true (s := mapEng combineIteration s) hc]
    exact Nat.succ_lt_succ (combineIteration_nb_size_lt hnb)

theorem tick_stepsLeft_lt (h : s.eng.isBusy = true) : stepsLeft (tick s) < stepsLeft s := by
  rcases hc : s.eng.ctrl with _ | (j | r | b) | _
  · simp [Engine.isBusy, hc] at h
  · rw [tick_digest hc]
    exact tickDigest_stepsLeft_lt hc
  · rw [tick_tblinit hc]
    exact tickTblinit_stepsLeft_lt hc
  · rw [tick_combine hc]
    exact tickCombine_stepsLeft_lt hc
  · simp [Engine.isBusy, hc] at h

theorem ticks_not_busy {n : Nat} (h : stepsLeft s ≤ n) : (ticks n s).eng.isBusy = false := by
  induction n generalizing s with
  | zero => exact Bool.eq_false_iff.2 fun hb => Nat.not_le_of_lt (stepsLeft_pos hb) h
  | succ n ih =>
    cases hb : s.eng.isBusy with
    | true =>
      rw [ticks_succ]
      exact ih (Nat.le_of_lt_succ ((tick_stepsLeft_lt hb).trans_le h))
    | false => rwa [ticks_of_not_busy hb]

end

/-- Settles O49: every step of a busy engine lowers `stepsLeft`, which is never above `workLeft`. -/
theorem runningCommandEnds : Obligations.RunningCommandEnds := by
  unfold Obligations.RunningCommandEnds
  intro s
  have hends : (ticks (workLeft s) s).eng.isBusy = false := ticks_not_busy (stepsLeft_le_workLeft s)
  refine ⟨hends, fun n hn => ?_⟩
  obtain ⟨m, rfl⟩ := Nat.exists_eq_add_of_le hn
  rw [ticks_add, ticks_of_not_busy hends]

/-! ### Table races are marked (R212) -/

theorem latchDigest_racy (k : Kernel) (s : State) :
    (latchDigest k s).racy = (s.racy || (usesTable k && (otherEngines s).any Engine.isBuilding)) := rfl

theorem latchTblinit_racy (s : State) :
    (latchTblinit s).racy = (s.racy || (otherEngines s).any fun e => e.isReadingTable || e.isBuilding) := rfl

section
variable {s : State} {i : Instr}

theorem beginCommand_racy (i : Instr) (h : s.racy = true) : (beginCommand i s).racy = true := by
  rcases beginCommand_cases i s with ⟨err, info, -, hb⟩ | ⟨k, -, hb⟩ | ⟨-, hb⟩ | ⟨-, hb⟩ <;> rw [hb]
  · exact h
  · rw [latchDigest_racy, clearDone_racy, h, Bool.true_or]
  · rw [latchTblinit_racy, clearDone_racy, h, Bool.true_or]
  · exact h

theorem platformStore_racy (a : Nat) (b : Byte) (h : s.racy = true) : (platformStore a b s).racy = true := by
  simp [platformStore, h]

/-- The mark of a hazard is sticky. -/
theorem racy_keptByParts : KeptByParts fun s => s.racy = true where
  focus hu h := by
    obtain ⟨-, -, -, ht⟩ := focus_cases hu
    rw [ht]
    exact h
  pending _ h := h
  tick h := by
    obtain ⟨-, -, hracy⟩ := (tick_outcome _).others
    exact hracy.trans h
  beginCommand i _ h := beginCommand_racy i h
  refuseWord _ _ h := h
  hostWrite r v h := by cases r <;> exact h
  hostRead _ h := h
  platformStore b _ h := platformStore_racy _ b h
  resetAll h := h

/-- TBLINIT beside a reader of the tables. -/
theorem beginCommand_tblinit_racy (h : ∃ e ∈ otherEngines s, e.isReadingTable = true) :
    (beginCommand .tblinit s).racy = true := by
  obtain ⟨e, he, hreads⟩ := h
  have hany : ((otherEngines s).any fun e => e.isReadingTable || e.isBuilding) = true :=
    List.any_eq_true.2 ⟨e, he, by rw [hreads, Bool.true_or]⟩
  exact Bool.or_eq_true_iff.2 (.inr hany)

/-- A table-driven command beside a TBLINIT. -/
theorem beginCommand_tableDriven_racy {k : Kernel} (hk : kernelOf s.cfg.level i = some k) (hrows : 0 < rowsNeeded k)
    (hchecks : ChecksPass k s) (h : ∃ e ∈ otherEngines s, e.isBuilding = true) : (beginCommand i s).racy = true := by
  rw [beginCommand_checksPass hk hchecks, latchDigest_racy, usesTable, decide_eq_true hrows, Bool.true_and]
  exact Bool.or_eq_true_iff.2 (.inr (List.any_eq_true.2 h))

/-- Acceptance that marks the run marks the command taken whole and the command only accepted. -/
theorem exec_startWord_racy (hidle : s.eng.ctrl = .idle) (h : (beginCommand i s).racy = true) :
    (∃ t, exec i s = .next t ∧ t.racy = true) ∧ (startWord (encode i) s).racy = true := by
  rw [startWord_encode i hidle, exec_eq, issueWhole, whenIdle_of_idle _ hidle]
  exact ⟨⟨_, rfl, ticks_induction (P := fun u => u.racy = true) (fun _ => racy_keptByParts.tick) _ h⟩, h⟩

end

/-- Settles O54: acceptance sets the mark, and no part of a step clears it. -/
theorem tableRaceIsMarked : Obligations.TableRaceIsMarked := by
  unfold Obligations.TableRaceIsMarked
  refine ⟨fun s i hidle hrace => exec_startWord_racy hidle ?_, fun _ _ h hs => racy_keptByParts.step h hs⟩
  rcases hrace with ⟨rfl, hreader⟩ | ⟨⟨k, hk, hrows, hchecks⟩, hbuilder⟩
  · exact beginCommand_tblinit_racy hreader
  · exact beginCommand_tableDriven_racy hk hrows hchecks hbuilder

end Sys2Proof.Machine
